-- ==== Sys2Proof/Word.lean ====
section
/-! DEFINITION. The word types of the block: the 16-bit data word of every buffer slot and of DR, the 32-bit
word of the four ports, and the channel index. -/

namespace Sys2Proof

/-- A data word: "`W = 16` bits wide in every buffer slot and on the DR field" (00_scope R8). -/
abbrev Word := BitVec 16

/-- A word of the command, data-in, response or data-out port, 32 bits each (30_encoding R70). -/
abbrev PortWord := BitVec 32

/-- A channel index `c`, which is also the index of the PHY unit bound to it: `NCH = 4` (00_scope R5). -/
abbrev Chan := Fin 4

/-- The four channels in ascending order, the order in which INIT visits them (40_init_bitrate R100). -/
def allChans : List Chan := [0, 1, 2, 3]

end Sys2Proof
end

