-- ==== Sys2Proof/Syntax.lean ====
section
/-! DEFINITION. The commands of the block, one constructor per row of spec/opcode_table.json (30_encoding R72).
A command is taken with its data-in payload, as 30_encoding R74 allows. -/

namespace Sys2Proof

/-- The legal commands. -/
inductive Instr where
  /-- `INIT` (40_init_bitrate R100) -/
  | init
  /-- `ENABLE_IRQ c` (41_irq_control R121) -/
  | enableIrq (c : Chan)
  /-- `DISABLE_IRQ c` (41_irq_control R122) -/
  | disableIrq (c : Chan)
  /-- `GET_STATUS c` (42_buffers R140) -/
  | getStatus (c : Chan)
  /-- `WRITE_IB c, n, words`; `n` is the length of `words` (42_buffers R130) -/
  | writeIb (c : Chan) (words : List Word)
  /-- `READ_IB c` (42_buffers R135) -/
  | readIb (c : Chan)
  /-- `ASYNC_TX c` (43_transfer R160) -/
  | asyncTx (c : Chan)
  /-- `SYNC_TX c` (43_transfer R150) -/
  | syncTx (c : Chan)
  /-- `TX_DRAIN c` (43_transfer R166) -/
  | txDrain (c : Chan)
  /-- `IRQ_ENTRY u` (44_dispatch R180) -/
  | irqEntry (u : Chan)
  /-- `BITRATE_CALC R`; `R` is the one data-in word (40_init_bitrate R107) -/
  | bitrateCalc (rate : PortWord)
deriving DecidableEq, Repr, Inhabited

/-- The pseudo-instructions of the assembler (30_encoding R81). They have no encoding of their own. -/
inductive Pseudo where
  /-- `SEND c, words` -/
  | send (c : Chan) (words : List Word)
  /-- `ASYNC_START c` -/
  | asyncStart (c : Chan)
  /-- `ASYNC_FUSED c` -/
  | asyncFused (c : Chan)
deriving DecidableEq, Repr

/-- The channel or unit a command names; none for INIT and BITRATE_CALC (30_encoding R72, "CH used"). -/
def Instr.chan? : Instr → Option Chan
  | .init => none
  | .enableIrq c => some c
  | .disableIrq c => some c
  | .getStatus c => some c
  | .writeIb c _ => some c
  | .readIb c => some c
  | .asyncTx c => some c
  | .syncTx c => some c
  | .txDrain c => some c
  | .irqEntry u => some u
  | .bitrateCalc _ => none

end Sys2Proof
end

