-- ==== Sys2Proof/WellFormed.lean ====
section
/-! DEFINITION. Which terms of Instr have an encoding. -/

namespace Sys2Proof

/-- A WRITE_IB carries at most 255 words, because its COUNT field has 8 bits (30_encoding R71). Every other
operand is bounded by its type. -/
def Instr.wf : Instr → Bool
  | .writeIb _ words => decide (words.length ≤ 255)
  | .init => true
  | .enableIrq _ => true
  | .disableIrq _ => true
  | .getStatus _ => true
  | .readIb _ => true
  | .asyncTx _ => true
  | .syncTx _ => true
  | .txDrain _ => true
  | .irqEntry _ => true
  | .bitrateCalc _ => true

end Sys2Proof
end

