-- ==== Sys2Proof/Decode.lean ====
section
/-! DEFINITION. The decoder of command words, total on all 2^32 of them, with the reason an illegal word is refused
(30_encoding R71, R72, R74, R76, R77), and after it the encoder. -/

namespace Sys2Proof

/-- Why a command word is illegal, one name for each item of 30_encoding R76. -/
inductive Illegal where
  /-- OP is 0x0 or in 0xC to 0xF -/
  | reservedOpcode
  /-- CMD[7:6] or CMD[31:16] is not 0 -/
  | reservedBits
  /-- COUNT is not 0 and OP is not WRITE_IB's -/
  | countNotZero
  /-- CH is not 0 and OP is INIT's or BITRATE_CALC's -/
  | channelNotZero
deriving DecidableEq, Repr

/-- What the decoder makes of a command word and the data-in words waiting behind it. -/
inductive Decoded where
  /-- a command, and the data-in words it leaves -/
  | command (i : Instr) (rest : List PortWord)
  /-- an illegal word; it consumes no data-in word -/
  | illegal (why : Illegal)
  /-- a legal word whose payload is not all there: the host "never issues a half command" (60_exceptions R216) -/
  | incomplete
deriving DecidableEq, Repr

/-- `CMD[3:0]` (30_encoding R71). -/
def opField (w : PortWord) : BitVec 4 := w.extractLsb' 0 4

/-- `CMD[5:4]` (30_encoding R71). -/
def chField (w : PortWord) : BitVec 2 := w.extractLsb' 4 2

/-- `CMD[15:8]` (30_encoding R71). -/
def countField (w : PortWord) : BitVec 8 := w.extractLsb' 8 8

/-- The reserved bits `CMD[7:6]` (30_encoding R71). -/
def reservedLow (w : PortWord) : BitVec 2 := w.extractLsb' 6 2

/-- The reserved bits `CMD[31:16]` (30_encoding R71). -/
def reservedHigh (w : PortWord) : BitVec 16 := w.extractLsb' 16 16

/-- `c = zext(CMD[5:4])` (30_encoding R71). -/
def chanOfBits (b : BitVec 2) : Chan := ⟨b.toNat, b.isLt⟩

/-- The legality check, which comes before everything else (30_encoding R76, R77). -/
def illegalWord (w : PortWord) : Option Illegal :=
  if opField w = 0 ∨ 0xC#4 ≤ opField w then some .reservedOpcode
  else if reservedLow w ≠ 0 ∨ reservedHigh w ≠ 0 then some .reservedBits
  else if countField w ≠ 0 ∧ opField w ≠ 0x5 then some .countNotZero
  else if chField w ≠ 0 ∧ (opField w = 0x1 ∨ opField w = 0xB) then some .channelNotZero
  else none

/-- The number of data-in words behind a command word: COUNT for WRITE_IB, 1 for BITRATE_CALC, 0 otherwise, and
0 for an illegal word (30_encoding R74, R76, R78). -/
def payloadCount (w : PortWord) : Nat :=
  match illegalWord w with
  | some _ => 0
  | none =>
    if opField w = 0x5 then (countField w).toNat
    else if opField w = 0xB then 1
    else 0

/-- "`words[j] = DIN_j[15:0]`; bits [31:16] are ignored" (30_encoding R74). -/
def dinWord (d : PortWord) : Word := d.extractLsb' 0 16

/-- The command of a legal word whose payload is `payload` (30_encoding R72, R77). `none` is a reserved opcode or
a BITRATE_CALC with no payload; `decode` never asks for either. -/
def instrOf (w : PortWord) (payload : List PortWord) : Option Instr :=
  let c := chanOfBits (chField w)
  match (opField w).toNat with
  | 0x1 => some .init
  | 0x2 => some (.enableIrq c)
  | 0x3 => some (.disableIrq c)
  | 0x4 => some (.getStatus c)
  | 0x5 => some (.writeIb c (payload.map dinWord))
  | 0x6 => some (.readIb c)
  | 0x7 => some (.asyncTx c)
  | 0x8 => some (.syncTx c)
  | 0x9 => some (.txDrain c)
  | 0xA => some (.irqEntry c)
  | 0xB => payload.head?.map .bitrateCalc
  | _ => none

/-- The decoder (30_encoding R77): the legality check first, then the command with its payload read from `din`. -/
def decode (w : PortWord) (din : List PortWord) : Decoded :=
  match illegalWord w with
  | some why => .illegal why
  | none =>
    if din.length < payloadCount w then .incomplete
    else
      match instrOf w (din.take (payloadCount w)) with
      | some i => .command i (din.drop (payloadCount w))
      | none => .illegal .reservedOpcode

/-- The 32 bits of format C: OP in [3:0], CH in [5:4], COUNT in [15:8], the others 0 (30_encoding R71, R80). -/
def formatC (op : BitVec 4) (ch : BitVec 2) (count : BitVec 8) : PortWord :=
  op.setWidth 32 ||| ch.setWidth 32 <<< 4 ||| count.setWidth 32 <<< 8

/-- The CH field of a channel. -/
def bitsOfChan (c : Chan) : BitVec 2 := BitVec.ofNat 2 c.val

/-- The opcode of a command (30_encoding R72). -/
def Instr.opcode : Instr → BitVec 4
  | .init => 0x1
  | .enableIrq _ => 0x2
  | .disableIrq _ => 0x3
  | .getStatus _ => 0x4
  | .writeIb _ _ => 0x5
  | .readIb _ => 0x6
  | .asyncTx _ => 0x7
  | .syncTx _ => 0x8
  | .txDrain _ => 0x9
  | .irqEntry _ => 0xA
  | .bitrateCalc _ => 0xB

/-- The word count of a command: the COUNT field, used by WRITE_IB alone (30_encoding R72). -/
def Instr.count : Instr → Nat
  | .writeIb _ words => words.length
  | .init => 0
  | .enableIrq _ => 0
  | .disableIrq _ => 0
  | .getStatus _ => 0
  | .readIb _ => 0
  | .asyncTx _ => 0
  | .syncTx _ => 0
  | .txDrain _ => 0
  | .irqEntry _ => 0
  | .bitrateCalc _ => 0

/-- The command word: `OP | (c << 4) | (n << 8)` (30_encoding R80). -/
def encodeWord (i : Instr) : PortWord :=
  formatC i.opcode (match i.chan? with | some c => bitsOfChan c | none => 0) (BitVec.ofNat 8 i.count)

/-- The data-in words of a command (30_encoding R74). -/
def encodePayload : Instr → List PortWord
  | .writeIb _ words => words.map (·.setWidth 32)
  | .bitrateCalc rate => [rate]
  | .init => []
  | .enableIrq _ => []
  | .disableIrq _ => []
  | .getStatus _ => []
  | .readIb _ => []
  | .asyncTx _ => []
  | .syncTx _ => []
  | .txDrain _ => []
  | .irqEntry _ => []

/-- A whole command: its word, then its payload (30_encoding R70). -/
def encode (i : Instr) : List PortWord := encodeWord i :: encodePayload i

/-- The commands a pseudo-instruction stands for, in order. They are separate commands, not one step (30_encoding
R81). -/
def expandPseudo : Pseudo → List Instr
  | .send c words => [.writeIb c words, .syncTx c]
  | .asyncStart c => [.asyncTx c, .enableIrq c]
  | .asyncFused c => [.enableIrq c, .txDrain c]

/-- The rows of the opcode map as (match, mask) pairs: a word belongs to a row when it agrees with `match` on the bits
of `mask` (spec/opcode_table.json). -/
def opcodeRows : List (PortWord × PortWord) :=
  [ (0x00000001, 0xFFFFFFFF),
    (0x00000002, 0xFFFFFFCF),
    (0x00000003, 0xFFFFFFCF),
    (0x00000004, 0xFFFFFFCF),
    (0x00000005, 0xFFFF00CF),
    (0x00000006, 0xFFFFFFCF),
    (0x00000007, 0xFFFFFFCF),
    (0x00000008, 0xFFFFFFCF),
    (0x00000009, 0xFFFFFFCF),
    (0x0000000A, 0xFFFFFFCF),
    (0x0000000B, 0xFFFFFFFF) ]

/-- The word belongs to the row. -/
def inRow (w : PortWord) (row : PortWord × PortWord) : Bool := decide (w &&& row.2 = row.1)

/-- The words of a WRITE_IB's list in the assembler's text, separated by ", ". -/
def asmWords : List Word → String
  | [] => ""
  | [w] => toString w.toNat
  | w :: ws => toString w.toNat ++ ", " ++ asmWords ws

/-- The assembler's text of a command, with decimal operands (30_encoding R80). The list of WRITE_IB stands between
braces, characters 0x7B and 0x7D. -/
def asmText : Instr → String
  | .init => "INIT"
  | .enableIrq c => "ENABLE_IRQ " ++ toString c.val
  | .disableIrq c => "DISABLE_IRQ " ++ toString c.val
  | .getStatus c => "GET_STATUS " ++ toString c.val
  | .writeIb c words =>
    "WRITE_IB " ++ toString c.val ++ ", " ++ toString words.length ++ ", " ++ (Char.ofNat 0x7B).toString ++
      asmWords words ++ (Char.ofNat 0x7D).toString
  | .readIb c => "READ_IB " ++ toString c.val
  | .asyncTx c => "ASYNC_TX " ++ toString c.val
  | .syncTx c => "SYNC_TX " ++ toString c.val
  | .txDrain c => "TX_DRAIN " ++ toString c.val
  | .irqEntry u => "IRQ_ENTRY " ++ toString u.val
  | .bitrateCalc rate => "BITRATE_CALC " ++ toString rate.toNat

/-- Word `k` of an instruction whose low `nbits` bits are `w`, the bits above them zero: word 0 is the command word,
and word `k + 1` is `DIN_k`. -/
def tableWord (nbits w k : Nat) : PortWord := BitVec.ofNat 32 ((w % 2 ^ nbits) >>> (32 * k))

/-- The data-in words that instruction needs. -/
def tablePayload (nbits w : Nat) : List PortWord :=
  (List.range (payloadCount (tableWord nbits w 0))).map fun k => tableWord nbits w (k + 1)

/-- The instruction the decoder reads from an instruction whose bits are `w`, numbered as spec/opcode_table.json
numbers them. -/
def decodeTableWord (nbits w : Nat) : Option Instr :=
  match decode (tableWord nbits w 0) (tablePayload nbits w) with
  | .command i _ => some i
  | .illegal _ => none
  | .incomplete => none

end Sys2Proof
end

