-- ==== Sys2Proof/Config.lean ====
section
/-! DEFINITION. What is fixed for one machine: the implementation parameters of 00_scope R5 to R10 and the
configuration table of 10_state R30 and R31; and the free values, constants with no body, so that a statement
about one of them holds whatever it is. -/

namespace Sys2Proof

/-- `READ_MODE` (00_scope R10; read by 42_buffers R136 and R137). -/
inductive ReadMode where
  | counted
  | sentinel
deriving DecidableEq, Repr, Inhabited

/-- `ISR_MODE` (00_scope R10; read by 44_dispatch R181). -/
inductive IsrMode where
  | filled
  | stub
deriving DecidableEq, Repr, Inhabited

/-- `WRITE_WHILE_BUSY` (00_scope R10; read by 42_buffers R131). -/
inductive WriteWhileBusy where
  | accept
  | reject
deriving DecidableEq, Repr, Inhabited

/-- One configuration entry, field by field with the widths of 10_state R31. The two reserved fields are kept,
because INIT raises `ConfigRange` when one of them is not zero (40_init_bitrate R102). -/
structure CfgEntry where
  /-- master/slave code, packed bit [0] -/
  mode : BitVec 1
  /-- packed bit [1] -/
  loopback : BitVec 1
  /-- clock source code, packed bits [5:2] -/
  clkSrc : BitVec 4
  /-- packed bit [6] -/
  polarity : BitVec 1
  /-- packed bit [7] -/
  phase : BitVec 1
  /-- frame protocol code, packed bits [9:8] -/
  frame : BitVec 2
  /-- data width code, packed bits [13:10] -/
  dsize : BitVec 4
  /-- reserved, packed bits [15:14]; must be 0 -/
  rsvLow : BitVec 2
  /-- receive-overrun enable flag, packed bit [16] -/
  ieRor : BitVec 1
  /-- receive-timeout enable flag, packed bit [17] -/
  ieRt : BitVec 1
  /-- receive-complete enable flag, packed bit [18] -/
  ieRx : BitVec 1
  /-- transmit-complete enable flag, packed bit [19] -/
  ieTx : BitVec 1
  /-- reserved, packed bits [31:20]; must be 0 -/
  rsvHigh : BitVec 12
  /-- target bit rate in hertz, packed bits [63:32] -/
  bitrate : BitVec 32
deriving DecidableEq, Repr, Inhabited

/-- The parameters the spec says a model takes as arguments (00_scope R6, R7, R9, R10; 10_state R30). A machine
carries them in its state, where no step writes them (log entry 1). -/
structure Params where
  /-- transmit-buffer capacity `TX_CAP` (00_scope R6) -/
  txCap : Nat
  /-- receive-buffer capacity `RX_CAP` (00_scope R7) -/
  rxCap : Nat
  /-- system clock frequency `SYSCLK` in hertz (00_scope R9) -/
  sysclk : Nat
  readMode : ReadMode
  /-- the sentinel word `SENT`, read only under `READ_MODE = Sentinel` (42_buffers R137) -/
  sent : Word
  /-- `SYNC_TIMEOUT`: none, or a number of BSY reads (43_transfer R152) -/
  syncTimeout : Option Nat
  isrMode : IsrMode
  /-- `TXINT_MODE`, the value INIT writes to EOT (40_init_bitrate R101) -/
  txintMode : BitVec 1
  writeWhileBusy : WriteWhileBusy
  /-- the configuration table `CFG`, a partial map from channel to entry (10_state R30) -/
  cfg : Vector (Option CfgEntry) 4
deriving DecidableEq, Repr, Inhabited

/-- The ranges the spec puts on the parameters (00_scope R6, R7, R9, R10). -/
def Params.Valid (p : Params) : Prop :=
  1 ≤ p.txCap ∧ p.txCap ≤ 255 ∧ 1 ≤ p.rxCap ∧ p.rxCap ≤ 255 ∧
  1 ≤ p.sysclk ∧ p.sysclk < 2 ^ 32 ∧ ∀ n, p.syncTimeout = some n → 1 ≤ n

/-- Whose move comes next at a step boundary (20_memory R61): the host, with its next command; the dispatcher,
with `IRQ_ENTRY u`; or the sequencer, with the next micro-step of a SYNC_TX in progress. -/
inductive Turn where
  | host
  | dispatcher (u : Chan)
  | sequencer
deriving DecidableEq, Repr, Inhabited

/-- FREE VALUE. The configuration table "supplied at start-up" (10_state R30); it has no default (log entry 2). -/
opaque Config.cfg : Vector (Option CfgEntry) 4

/-- FREE VALUE. `TXINT_MODE`, left OPEN by 40_init_bitrate R101 (log entry 2). -/
opaque Config.txintMode : BitVec 1

/-- FREE VALUE. `SENT`, left OPEN by 42_buffers R137 (log entry 2). -/
opaque Config.sent : Word

/-- FREE VALUE. The `n`-th value a PHY unit answers a read with, before the constraints of 20_memory R56 are laid
on it (log entry 3). -/
opaque Config.draw : Nat → Word

/-- FREE VALUE. The `n`-th choice of the agent that moves next, which 20_memory R61 leaves open (log entry 4). -/
opaque Config.turn : Nat → Turn

/-- The parameters of the machine at reset: the spec's defaults, and the free values where it gives none. -/
def Params.default : Params where
  txCap := 16
  rxCap := 16
  sysclk := 16000000
  readMode := .counted
  sent := Config.sent
  syncTimeout := none
  isrMode := .filled
  txintMode := Config.txintMode
  writeWhileBusy := .accept
  cfg := Config.cfg

end Sys2Proof
end

