-- ==== Sys2Proof/Machine/State.lean ====
section
/-! DEFINITION. The state of the block: everything 10_state R38 lists, the parameters, and the environment's input
(what the host, the dispatcher and the PHY units have still to send). Plain data throughout. -/

namespace Sys2Proof.Machine

/-- `status` of a channel (10_state R22, R24). -/
inductive Status where
  | idle
  | busy
deriving DecidableEq, Repr, Inhabited

/-- The two phases of a SYNC_TX in progress (10_state R23). -/
inductive Phase where
  | write
  | wait
deriving DecidableEq, Repr, Inhabited

/-- `seq`, the only sequencing state (10_state R23). -/
inductive Seq where
  /-- no multi-step command is in progress -/
  | ready
  /-- a SYNC_TX on `c`: word `i` is next to write (`write`) or just written (`wait`), and `polls` consecutive BSY
  reads of 1 have been seen for it -/
  | syncTx (c : Chan) (i : Nat) (phase : Phase) (polls : Nat)
deriving DecidableEq, Repr, Inhabited

/-- The context a command runs in: mainline for the host's, interrupt for the dispatcher's (60_exceptions R210). It
decides whether a response ends the host's outstanding command (10_state R37; log entry 6). -/
inductive Context where
  | mainline
  | interrupt
deriving DecidableEq, Repr, Inhabited

/-- A channel record (10_state R22). A slot that is `none` is *unwritten*, which is the spec's own state of a slot
(10_state R26). -/
structure Channel where
  status : Status
  /-- `TX_CAP` slots -/
  txBuf : List (Option Word)
  txLen : Nat
  txIdx : Nat
  /-- `RX_CAP` slots -/
  rxBuf : List (Option Word)
  rxIdx : Nat
deriving DecidableEq, Repr, Inhabited

/-- The fields of a unit's register interface (20_memory R54). -/
inductive Field where
  | sse | ms | lbm | eot | cs | cpsdvsr | scr | sph | spo | frf | dss
  | dr | bsy | tnf | rne
  | imTx | imRx | imRt | imRor
  | mis | icrRt | icrRor
deriving DecidableEq, Repr, Inhabited

/-- The last value written to each field of a unit (10_state R32). A configuration shadow that is `none` is
*unknown*, which the spec says "is not a value". A mask bit always holds a value: 0 is enabled, 1 is disabled
(10_state R33). -/
structure Shadow where
  sse : Option (BitVec 1)
  ms : Option (BitVec 1)
  lbm : Option (BitVec 1)
  eot : Option (BitVec 1)
  cs : Option (BitVec 4)
  cpsdvsr : Option (BitVec 8)
  scr : Option (BitVec 8)
  sph : Option (BitVec 1)
  spo : Option (BitVec 1)
  frf : Option (BitVec 2)
  dss : Option (BitVec 4)
  imTx : BitVec 1
  imRx : BitVec 1
  imRt : BitVec 1
  imRor : BitVec 1
deriving DecidableEq, Repr, Inhabited

/-- The operation a response names in the history (10_state R35). -/
inductive Op where
  | init | enableIrq | disableIrq | getStatus | writeIb | readIb | asyncTx | syncTx | txDrain | irqEntry
  | bitrateCalc
  /-- an illegal command word, which is carried raw -/
  | illegal (w : PortWord)
deriving DecidableEq, Repr, Inhabited

/-- An event of the history (10_state R35). -/
inductive Event where
  /-- `W(u, F, v)` -/
  | write (u : Chan) (f : Field) (v : Word)
  /-- `R(u, F, v)` -/
  | read (u : Chan) (f : Field) (v : Word)
  /-- `Rsp(op, r, data)` -/
  | rsp (op : Op) (r : PortWord) (data : List PortWord)
deriving DecidableEq, Repr, Inhabited

/-- Which buffer of a channel (60_exceptions R202, code 20). -/
inductive Buffer where
  | tx
  | rx
deriving DecidableEq, Repr, Inhabited

/-- The faults of 60_exceptions R202, each with the info recorded. Raising one is a NEXT state, in which the fault
record holds it; the machine stops at the step after, with that same fault, because "a state with `fault ≠ none`
has no further steps" (10_state R36; log entry 5). Each is safe: the spec gives the block no behaviour for its cause
or calls the behaviour unsafe, and the machine goes no further. -/
inductive Fault where
  /-- code 16, raised by every command but INIT and BITRATE_CALC while `inited = false`; info: the command word.
  Safe. -/
  | notInitialized (word : PortWord)
  /-- code 17, raised by every command that names a channel with no configuration entry; info: the channel. Safe. -/
  | unconfiguredChannel (c : Chan)
  /-- code 18, raised by INIT for a malformed entry (info: its channel) and by BITRATE_CALC for `R = 0` (info: none).
  Safe. -/
  | configRange (c : Option Chan)
  /-- code 19, raised by ASYNC_TX on an Idle channel when `tx_idx >= tx_len`. Safe. -/
  | cursorOverrun (c : Chan) (txIdx txLen : Nat)
  /-- code 20, raised by a read of a slot never written; only READ_IB with `READ_MODE = Sentinel` reaches one. Safe. -/
  | unwrittenRead (c : Chan) (buf : Buffer) (slot : Nat)
  /-- code 21, raised by READ_IB with `READ_MODE = Sentinel` when no slot holds the sentinel. Safe. -/
  | unboundedCopy (c : Chan)
deriving DecidableEq, Repr, Inhabited

/-- A refusal. No meaning answers with one. -/
inductive Refusal where
  /-- an arm of exec that has no meaning yet would answer with it; there is none. Safe. -/
  | notModelled (mnemonic : String)
deriving DecidableEq, Repr, Inhabited

/-- The state of the machine. -/
@[ext]
structure State where
  /-- the parameters and the configuration table, which no step writes (00_scope R10, 10_state R30; log entry 1) -/
  params : Params
  /-- set by INIT (10_state R29) -/
  inited : Bool
  /-- a SYNC_TX in progress, if any (10_state R23) -/
  seq : Seq
  /-- the four channel records (10_state R22) -/
  ch : Vector Channel 4
  /-- the block's view of the four register interfaces (10_state R32) -/
  phy : Vector Shadow 4
  /-- the event history, oldest first (10_state R35) -/
  hist : List Event
  /-- the fault record (10_state R36) -/
  fault : Option Fault
  /-- the host's outstanding command (10_state R37) -/
  hostPending : Option Instr
  /-- the context of the command being run (60_exceptions R210; log entry 6) -/
  context : Context
  /-- ENVIRONMENT: the command words the host has still to issue (30_encoding R70; log entry 7) -/
  cmdIn : List PortWord
  /-- ENVIRONMENT: the words waiting on the data-in port (30_encoding R70, R74; log entry 7) -/
  dataIn : List PortWord
  /-- ENVIRONMENT: which agents move next, oldest first; free once it is used up (20_memory R61; log entry 4) -/
  turns : List Turn
  /-- ENVIRONMENT: what the PHY answers the next reads with, oldest first; free once it is used up (20_memory R56;
  log entry 3) -/
  draws : List Word
  /-- MODEL: how many free turns have been taken, the index of the next one (log entry 4) -/
  nTurns : Nat
  /-- MODEL: how many free draws have been taken, the index of the next one (log entry 3) -/
  nDraws : Nat
deriving DecidableEq, Repr, Inhabited

/-- A channel record after reset (10_state R38). -/
def Channel.reset (p : Params) : Channel where
  status := .idle
  txBuf := List.replicate p.txCap none
  txLen := 0
  txIdx := 0
  rxBuf := List.replicate p.rxCap none
  rxIdx := 0

/-- A unit's shadows after reset: the configuration unknown, every source disabled (10_state R32, R33, R38). -/
def Shadow.reset : Shadow where
  sse := none
  ms := none
  lbm := none
  eot := none
  cs := none
  cpsdvsr := none
  scr := none
  sph := none
  spo := none
  frf := none
  dss := none
  imTx := 1
  imRx := 1
  imRt := 1
  imRor := 1

/-- Reset of a machine with parameters `p` (10_state R38, 70_reset_and_hazards R230). Nothing waits on the ports,
and no turn and no draw is fixed. -/
def State.resetWith (p : Params) : State where
  params := p
  inited := false
  seq := .ready
  ch := Vector.replicate 4 (Channel.reset p)
  phy := Vector.replicate 4 Shadow.reset
  hist := []
  fault := none
  hostPending := none
  context := .mainline
  cmdIn := []
  dataIn := []
  turns := []
  draws := []
  nTurns := 0
  nDraws := 0

/-- The machine right after reset, with the spec's default parameters (log entry 2). -/
def State.reset : State := State.resetWith Params.default

end Sys2Proof.Machine
end

