-- ==== Sys2Proof/Machine/Flags.lean ====
section
/-! DEFINITION. The flags: the response word's (30_encoding R73), the status bit of GET_STATUS (42_buffers R140), the
legality of a bit-rate pair (40_init_bitrate R105), and the masked interrupt status (20_memory R56). -/

namespace Sys2Proof.Machine

/-- Format R: FAIL in [0], STATUS in [1], LEGAL in [2], ILL in [3], N in [15:8], the others 0 (30_encoding R73). -/
def formatR (n : BitVec 8) (ill legal status fail : BitVec 1) : PortWord :=
  fail.setWidth 32 ||| status.setWidth 32 <<< 1 ||| legal.setWidth 32 <<< 2 ||| ill.setWidth 32 <<< 3 |||
    n.setWidth 32 <<< 8

/-- `OK` (30_encoding R73). -/
def respOk : PortWord := formatR 0 0 0 0 0

/-- `FAIL` (30_encoding R73). -/
def respFail : PortWord := formatR 0 0 0 0 1

/-- The illegal-command response: FAIL and ILL (30_encoding R76). -/
def respIllegal : PortWord := formatR 0 1 0 0 1

/-- The response of GET_STATUS (42_buffers R140). -/
def respStatus (st : Status) : PortWord :=
  match st with
  | .idle => formatR 0 0 0 0 0
  | .busy => formatR 0 0 0 1 0

/-- The response of BITRATE_CALC (40_init_bitrate R107). -/
def respLegal (legal : Bool) : PortWord := formatR 0 0 (BitVec.ofBool legal) 0 0

/-- The response of a READ_IB that gives `n` data-out words (42_buffers R135). -/
def respCount (n : Nat) : PortWord := formatR (BitVec.ofNat 8 n) 0 0 0 0

/-- The legality of a (prescaler, divider) pair (40_init_bitrate R105). -/
def legalPair (pd : Nat × Nat) : Bool :=
  decide (pd.1 % 2 = 0) && decide (2 ≤ pd.1) && decide (pd.1 ≤ 254) && decide (pd.2 ≤ 255)

/-- The bits MIS may show: a masked source is never seen as pending (20_memory R56). Bit order of 41_irq_control
R120: TX, RX, RT, ROR from bit 3 down. -/
def misVisible (p : Shadow) : BitVec 4 :=
  (~~~p.imTx).setWidth 4 <<< 3 ||| (~~~p.imRx).setWidth 4 <<< 2 ||| (~~~p.imRt).setWidth 4 <<< 1 |||
    (~~~p.imRor).setWidth 4

/-- `m[3]`, the transmit source (41_irq_control R120). -/
def misTx (m : Word) : Bool := m.getLsbD 3

/-- `m[2]`, the receive source. -/
def misRx (m : Word) : Bool := m.getLsbD 2

/-- `m[1]`, the receive-timeout source. -/
def misRt (m : Word) : Bool := m.getLsbD 1

/-- `m[0]`, the receive-overrun source. -/
def misRor (m : Word) : Bool := m.getLsbD 0

/-- The code of a fault (60_exceptions R202). -/
def faultCode : Fault → Nat
  | .notInitialized _ => 16
  | .unconfiguredChannel _ => 17
  | .configRange _ => 18
  | .cursorOverrun _ _ _ => 19
  | .unwrittenRead _ _ _ => 20
  | .unboundedCopy _ => 21

end Sys2Proof.Machine
end

