-- ==== Sys2Proof/Machine/Operands.lean ====
section
/-! DEFINITION. The operand forms: the register-interface fields with their widths and directions (20_memory R54), the
value a read may draw (20_memory R56), the packed configuration entry (10_state R31), buffer slots (10_state R26) and the
payload words (30_encoding R75). -/

namespace Sys2Proof.Machine

/-- The width of the value moved (20_memory R54). -/
def fieldWidth : Field → Nat
  | .sse => 1
  | .ms => 1
  | .lbm => 1
  | .eot => 1
  | .cs => 4
  | .cpsdvsr => 8
  | .scr => 8
  | .sph => 1
  | .spo => 1
  | .frf => 2
  | .dss => 4
  | .dr => 16
  | .bsy => 1
  | .tnf => 1
  | .rne => 1
  | .imTx => 1
  | .imRx => 1
  | .imRt => 1
  | .imRor => 1
  | .mis => 4
  | .icrRt => 1
  | .icrRor => 1

/-- The fields with direction R (20_memory R54). -/
def fieldReadable : Field → Bool
  | .dr | .bsy | .tnf | .rne | .mis => true
  | .sse | .ms | .lbm | .eot | .cs | .cpsdvsr | .scr | .sph | .spo | .frf | .dss => false
  | .imTx | .imRx | .imRt | .imRor | .icrRt | .icrRor => false

/-- The fields with direction W (20_memory R54); DR has both. -/
def fieldWritable : Field → Bool
  | .sse | .ms | .lbm | .eot | .cs | .cpsdvsr | .scr | .sph | .spo | .frf | .dss => true
  | .dr | .imTx | .imRx | .imRt | .imRor | .icrRt | .icrRor => true
  | .bsy | .tnf | .rne | .mis => false

/-- The configuration fields other than SSE, which "may be written only while the unit is disabled"
(70_reset_and_hazards R233). -/
def fieldConfig : Field → Bool
  | .ms | .lbm | .eot | .cs | .cpsdvsr | .scr | .sph | .spo | .frf | .dss => true
  | .sse | .dr | .bsy | .tnf | .rne | .imTx | .imRx | .imRt | .imRor | .mis | .icrRt | .icrRor => false

/-- The value fits the field's width (20_memory R54). -/
def fitsField (f : Field) (v : Word) : Bool := decide (v.toNat < 2 ^ fieldWidth f)

/-- The value a read of field `f` returns when the PHY's free answer is `raw`: cut to the field's width, and for MIS
with the masked sources at 0 (20_memory R56). Every value R56 allows is the result of some `raw`. -/
def legalDraw (p : Shadow) (f : Field) (raw : Word) : Word :=
  match f with
  | .mis => (raw.setWidth 4 &&& misVisible p).setWidth 16
  | .sse | .ms | .lbm | .eot | .cs | .cpsdvsr | .scr | .sph | .spo | .frf | .dss
  | .dr | .bsy | .tnf | .rne | .imTx | .imRx | .imRt | .imRor | .icrRt | .icrRor =>
    (raw.setWidth (fieldWidth f)).setWidth 16

/-- The shadow after a write of `v` to field `f`; DR, ICR_RT and ICR_ROR have none (10_state R32, 20_memory R55). -/
def shadowWrite (f : Field) (v : Word) (p : Shadow) : Shadow :=
  match f with
  | .sse => { p with sse := some (v.setWidth 1) }
  | .ms => { p with ms := some (v.setWidth 1) }
  | .lbm => { p with lbm := some (v.setWidth 1) }
  | .eot => { p with eot := some (v.setWidth 1) }
  | .cs => { p with cs := some (v.setWidth 4) }
  | .cpsdvsr => { p with cpsdvsr := some (v.setWidth 8) }
  | .scr => { p with scr := some (v.setWidth 8) }
  | .sph => { p with sph := some (v.setWidth 1) }
  | .spo => { p with spo := some (v.setWidth 1) }
  | .frf => { p with frf := some (v.setWidth 2) }
  | .dss => { p with dss := some (v.setWidth 4) }
  | .imTx => { p with imTx := v.setWidth 1 }
  | .imRx => { p with imRx := v.setWidth 1 }
  | .imRt => { p with imRt := v.setWidth 1 }
  | .imRor => { p with imRor := v.setWidth 1 }
  | .dr | .bsy | .tnf | .rne | .mis | .icrRt | .icrRor => p

/-- A configuration entry read from its packed 64 bits (10_state R31). -/
def cfgOfPacked (b : BitVec 64) : CfgEntry where
  mode := b.extractLsb' 0 1
  loopback := b.extractLsb' 1 1
  clkSrc := b.extractLsb' 2 4
  polarity := b.extractLsb' 6 1
  phase := b.extractLsb' 7 1
  frame := b.extractLsb' 8 2
  dsize := b.extractLsb' 10 4
  rsvLow := b.extractLsb' 14 2
  ieRor := b.extractLsb' 16 1
  ieRt := b.extractLsb' 17 1
  ieRx := b.extractLsb' 18 1
  ieTx := b.extractLsb' 19 1
  rsvHigh := b.extractLsb' 20 12
  bitrate := b.extractLsb' 32 32

/-- The packed 64 bits of a configuration entry (10_state R31). -/
def cfgToPacked (e : CfgEntry) : BitVec 64 :=
  e.mode.setWidth 64 ||| e.loopback.setWidth 64 <<< 1 ||| e.clkSrc.setWidth 64 <<< 2 ||| e.polarity.setWidth 64 <<< 6 |||
    e.phase.setWidth 64 <<< 7 ||| e.frame.setWidth 64 <<< 8 ||| e.dsize.setWidth 64 <<< 10 |||
    e.rsvLow.setWidth 64 <<< 14 ||| e.ieRor.setWidth 64 <<< 16 ||| e.ieRt.setWidth 64 <<< 17 |||
    e.ieRx.setWidth 64 <<< 18 ||| e.ieTx.setWidth 64 <<< 19 ||| e.rsvHigh.setWidth 64 <<< 20 |||
    e.bitrate.setWidth 64 <<< 32

/-- The word in slot `i` of a buffer, or `none` where the slot is unwritten (10_state R26). -/
def slotAt (buf : List (Option Word)) (i : Nat) : Option Word := buf.getD i none

/-- A buffer with `words` copied into its slots from slot 0 up, the slots above kept (42_buffers R130). -/
def loadSlots (buf : List (Option Word)) (words : List Word) : List (Option Word) :=
  words.map some ++ buf.drop words.length

/-- The words of slots `0` to `n - 1` of channel `c`'s receive buffer, in order; the first unwritten one raises
`UnwrittenRead` (00_scope R12, 42_buffers R135). -/
def readRxSlots (c : Chan) (buf : List (Option Word)) : Nat → Except Fault (List Word)
  | 0 => .ok []
  | n + 1 =>
    match readRxSlots c buf n with
    | .error r => .error r
    | .ok ws =>
      match slotAt buf n with
      | none => .error (.unwrittenRead c .rx n)
      | some w => .ok (ws ++ [w])

/-- The sentinel scan from slot `i` up over `n` slots: the index of the first slot that holds `sent`; an unwritten slot
raises `UnwrittenRead`, and no sentinel within capacity raises `UnboundedCopy` (42_buffers R137). -/
def scanSentinel (c : Chan) (sent : Word) (buf : List (Option Word)) : Nat → Nat → Except Fault Nat
  | 0, _ => .error (.unboundedCopy c)
  | n + 1, i =>
    match slotAt buf i with
    | none => .error (.unwrittenRead c .rx i)
    | some w => if w = sent then .ok i else scanSentinel c sent buf n (i + 1)

/-- A data-out word: "`zext_32(rx_buf[j])`" (30_encoding R75). -/
def doutWord (w : Word) : PortWord := w.setWidth 32

/-- The data-out word of a prescaler or a divider, each a 32-bit unsigned value (30_encoding R75). -/
def doutNat (n : Nat) : PortWord := BitVec.ofNat 32 n

end Sys2Proof.Machine
end

