-- ==== Sys2Proof/Machine/Ops.lean ====
section
/-! DEFINITION. The named operations over the state: the environment's input, the two accesses to the register
interface, the response, raising a fault, entering an interrupt, the checks that come first in every command, and the
internal procedures DisableAll, Drain and RxDrain. -/

namespace Sys2Proof.Machine

/-! ### Updates of the state -/

/-- `ch[c] <- x` (00_scope R12). -/
def State.setCh (c : Chan) (x : Channel) (s : State) : State := { s with ch := s.ch.set c x }

/-- `phy[u] <- p` (10_state R32). -/
def State.setPhy (u : Chan) (p : Shadow) (s : State) : State := { s with phy := s.phy.set u p }

/-- Append an event to the history, "a list that only grows" (10_state R35). -/
def State.record (e : Event) (s : State) : State := { s with hist := s.hist ++ [e] }

/-- `seq <- q` (10_state R23). -/
def State.setSeq (q : Seq) (s : State) : State := { s with seq := q }

/-- `inited <- true` (40_init_bitrate R100). -/
def State.setInited (s : State) : State := { s with inited := true }

/-- Run the command in the host's context (60_exceptions R210). -/
def State.enterMainline (s : State) : State := { s with context := .mainline }

/-! ### The environment's input -/

/-- The PHY's next answer, before the constraints of 20_memory R56: the next one of `draws`, or a free value once that
list is used up. -/
def State.nextDraw (s : State) : Word :=
  match s.draws with
  | w :: _ => w
  | [] => Config.draw s.nDraws

/-- The state after the PHY's next answer is used. -/
def State.popDraw (s : State) : State :=
  match s.draws with
  | _ :: ws => { s with draws := ws }
  | [] => { s with nDraws := s.nDraws + 1 }

/-- The agent that moves next (20_memory R61): the next one of `turns`, or a free value once that list is used up. -/
def State.nextTurn (s : State) : Turn :=
  match s.turns with
  | t :: _ => t
  | [] => Config.turn s.nTurns

/-- The state after the choice of the next agent is used. -/
def State.popTurn (s : State) : State :=
  match s.turns with
  | _ :: ts => { s with turns := ts }
  | [] => { s with nTurns := s.nTurns + 1 }

/-! ### The register interface -/

/-- `PhyWrite(u, F, v)` (20_memory R55): the event, and the shadow where the field has one. -/
def phyWrite (u : Chan) (f : Field) (v : Word) (s : State) : State :=
  (s.setPhy u (shadowWrite f v s.phy[u])).record (.write u f v)

/-- Writes to unit `u`, one after the other in the order of the list (20_memory R60). -/
def phyWrites (u : Chan) (ws : List (Field × Word)) (s : State) : State :=
  ws.foldl (fun t fv => phyWrite u fv.1 fv.2 t) s

/-- The value `PhyRead(u, F)` returns in state `s` (20_memory R56). -/
def phyReadValue (u : Chan) (f : Field) (s : State) : Word := legalDraw s.phy[u] f s.nextDraw

/-- The state after `PhyRead(u, F)`: the answer is used, and the event recorded (20_memory R56). -/
def phyRead (u : Chan) (f : Field) (s : State) : State :=
  s.popDraw.record (.read u f (phyReadValue u f s))

/-! ### Responses, faults and interrupts -/

/-- The operation a command's response names (10_state R35). -/
def opOf : Instr → Op
  | .init => .init
  | .enableIrq _ => .enableIrq
  | .disableIrq _ => .disableIrq
  | .getStatus _ => .getStatus
  | .writeIb _ _ => .writeIb
  | .readIb _ => .readIb
  | .asyncTx _ => .asyncTx
  | .syncTx _ => .syncTx
  | .txDrain _ => .txDrain
  | .irqEntry _ => .irqEntry
  | .bitrateCalc _ => .bitrateCalc

/-- `respond(r, data…)` (00_scope R12). In mainline it ends the host's outstanding command (10_state R37). In interrupt
context it is the return: the context is left, nothing else is restored, and `host_pending` is not touched
(30_encoding R79; 60_exceptions R208, R210). -/
def respond (op : Op) (r : PortWord) (data : List PortWord) (s : State) : State :=
  match s.context with
  | .mainline => { s.record (.rsp op r data) with hostPending := none }
  | .interrupt => { s.record (.rsp op r data) with context := .mainline }

/-- `raise` (00_scope R12): the fault record is set; there is no response, and every other field is as it was at the
command's start (10_state R36, 60_exceptions R202). -/
def State.raise (r : Fault) (s : State) : State := { s with fault := some r }

/-- The entry of an interrupt: "Entry saves nothing, changes no mode and masks nothing" (60_exceptions R207); the
command that follows runs in interrupt context (R210). -/
def enterInterrupt (s : State) : State := { s with context := .interrupt }

/-- What a command makes of the state it starts in: its own effect, or the fault it raises. -/
def settle (s : State) (r : Except Fault State) : State :=
  match r with
  | .ok t => t
  | .error f => s.raise f

/-- The frame every command runs in: a faulted machine takes no step (10_state R36), any other a next state. -/
def runCommand (s : State) (r : Except Fault State) : Host.Outcome State Fault Refusal :=
  match s.fault with
  | some f => .fault f
  | none => .next (settle s r)

/-- The checks that come first in every command that names a channel: NotInitialized, then UnconfiguredChannel
(60_exceptions R206). `body` is the command itself, given the channel's configuration entry. -/
def withChannel (i : Instr) (c : Chan) (s : State) (body : CfgEntry → Except Fault State) : Except Fault State :=
  if s.inited then
    match s.params.cfg[c] with
    | some e => body e
    | none => .error (.unconfiguredChannel c)
  else .error (.notInitialized (encodeWord i))

/-! ### Internal procedures -/

/-- The four writes of DisableAll, in its order (41_irq_control R123). -/
def disableWrites : List (Field × Word) := [(.imRor, 1), (.imRt, 1), (.imRx, 1), (.imTx, 1)]

/-- `DisableAll(c)` (41_irq_control R123). -/
def disableAll (c : Chan) (s : State) : State := phyWrites c disableWrites s

/-- `ch[c].status <- st`. -/
def setStatus (c : Chan) (st : Status) (s : State) : State := s.setCh c { s.ch[c] with status := st }

/-- `ch[c].tx_idx <- i`. -/
def setTxIdx (c : Chan) (i : Nat) (s : State) : State := s.setCh c { s.ch[c] with txIdx := i }

/-- `ch[c].rx_idx <- i`. -/
def setRxIdx (c : Chan) (i : Nat) (s : State) : State := s.setCh c { s.ch[c] with rxIdx := i }

/-- `PhyWrite(c, DR, ch[c].tx_buf[i])` and then `tx_idx <- i + 1`: how every transmit path sends one word (43_transfer
R151, R160, R165). An unwritten slot raises `UnwrittenRead` (10_state R26). -/
def sendWord (c : Chan) (i : Nat) (s : State) : Except Fault State :=
  match slotAt s.ch[c].txBuf i with
  | none => .error (.unwrittenRead c .tx i)
  | some w => .ok (setTxIdx c (i + 1) (phyWrite c .dr w s))

/-- The completion of a drain: DisableAll, then the cursor to 0, then Idle (43_transfer R165). -/
def drainComplete (c : Chan) (s : State) : State := setStatus c .idle (setTxIdx c 0 (disableAll c s))

/-- The loop of `Drain(c)` with `n` words between the cursor and `tx_len`: the cursor test comes first, so TNF is read
only while words remain (43_transfer R165). -/
def drainLoop (c : Chan) : Nat → State → Except Fault State
  | 0, s => .ok (drainComplete c s)
  | n + 1, s =>
    if phyReadValue c .tnf s = 0 then .ok (phyRead c .tnf s)
    else
      match sendWord c s.ch[c].txIdx (phyRead c .tnf s) with
      | .error f => .error f
      | .ok t => drainLoop c n t

/-- `Drain(c)`, the FIFO-drain continuation (43_transfer R165). -/
def drain (c : Chan) (s : State) : Except Fault State :=
  drainLoop c (s.ch[c].txLen - s.ch[c].txIdx) (setStatus c .busy s)

/-- `ch[c].rx_buf[rx_idx] <- w` and then `rx_idx <- rx_idx + 1` (43_transfer R170). -/
def storeRx (c : Chan) (w : Word) (s : State) : State :=
  s.setCh c { s.ch[c] with rxBuf := s.ch[c].rxBuf.set s.ch[c].rxIdx (some w), rxIdx := s.ch[c].rxIdx + 1 }

/-- The loop of `RxDrain(c)` with room for `n` more words: the buffer-full test comes first, so a full buffer reads
neither RNE nor DR (43_transfer R170). -/
def rxDrainLoop (c : Chan) : Nat → State → State
  | 0, s => s
  | n + 1, s =>
    if phyReadValue c .rne s = 0 then phyRead c .rne s
    else
      let s1 := phyRead c .rne s
      rxDrainLoop c n (storeRx c (phyReadValue c .dr s1) (phyRead c .dr s1))

/-- `RxDrain(c)`, the receive drain (43_transfer R170). -/
def rxDrain (c : Chan) (s : State) : State := rxDrainLoop c (s.params.rxCap - s.ch[c].rxIdx) s

end Sys2Proof.Machine
end

