-- ==== Sys2Proof/Machine/Buffers.lean ====
section
/-! DEFINITION. WRITE_IB, READ_IB and GET_STATUS (spec/42_buffers.md). None of them accesses the PHY. -/

namespace Sys2Proof.Machine

/-- WRITE_IB is turned away by a Busy channel, under `WRITE_WHILE_BUSY = Reject` alone (42_buffers R131). -/
def writeRejected (c : Chan) (s : State) : Bool :=
  decide (s.params.writeWhileBusy = .reject) && decide (s.ch[c].status = .busy)

/-- The channel record after an accepted WRITE_IB (42_buffers R130). -/
def loadTx (words : List Word) (x : Channel) : Channel :=
  { x with txBuf := loadSlots x.txBuf words, txLen := words.length, txIdx := 0 }

/-- WRITE_IB: the capacity check first, then the busy check, then the copy (42_buffers R130, R131). -/
def writeIbBody (c : Chan) (words : List Word) (s : State) : State :=
  if s.params.txCap < words.length then respond .writeIb respFail [] s
  else if writeRejected c s then respond .writeIb respFail [] s
  else respond .writeIb respOk [] (s.setCh c (loadTx words s.ch[c]))

/-- `WRITE_IB c, n, words` (42_buffers R130). -/
def execWriteIb (c : Chan) (words : List Word) (s : State) : Host.Outcome State Fault Refusal :=
  runCommand s <| withChannel (.writeIb c words) c s fun _ => .ok (writeIbBody c words s)

/-- `readCount(c)` (42_buffers R136, R137). -/
def readCount (c : Chan) (s : State) : Except Fault Nat :=
  match s.params.readMode with
  | .counted => .ok s.ch[c].rxIdx
  | .sentinel => scanSentinel c s.params.sent s.ch[c].rxBuf s.params.rxCap 0

/-- READ_IB (42_buffers R135): the no-data test comes before the count and the copy. -/
def readIbBody (c : Chan) (s : State) : Except Fault State :=
  if s.ch[c].rxIdx = 0 then .ok (respond .readIb respFail [] s)
  else
    match readCount c s with
    | .error f => .error f
    | .ok n =>
      match readRxSlots c s.ch[c].rxBuf n with
      | .error f => .error f
      | .ok out => .ok (respond .readIb (respCount n) (out.map doutWord) (setRxIdx c 0 s))

/-- `READ_IB c` (42_buffers R135). -/
def execReadIb (c : Chan) (s : State) : Host.Outcome State Fault Refusal :=
  runCommand s <| withChannel (.readIb c) c s fun _ => readIbBody c s

/-- `GET_STATUS c` (42_buffers R140). -/
def execGetStatus (c : Chan) (s : State) : Host.Outcome State Fault Refusal :=
  runCommand s <| withChannel (.getStatus c) c s fun _ =>
    .ok (respond .getStatus (respStatus s.ch[c].status) [] s)

end Sys2Proof.Machine
end

