-- ==== Sys2Proof/Machine/InitBitrate.lean ====
section
/-! DEFINITION. The bit-rate function, INIT and BITRATE_CALC (spec/40_init_bitrate.md). -/

namespace Sys2Proof.Machine

/-- `bitrate(R)`: the prescaler and the divider, on unbounded naturals with floor division (40_init_bitrate R104). -/
def bitrate (sysclk rate : Nat) : Nat × Nat :=
  let ratio := sysclk / rate
  if ratio % 2 = 0 ∧ ratio ≤ 254 then (ratio, 0) else (2, ratio - 1)

/-- The defects for which INIT raises `ConfigRange`: a zero bit rate, an illegal pair, a nonzero reserved bit
(40_init_bitrate R102). -/
def configDefect (p : Params) (e : CfgEntry) : Bool :=
  decide (e.bitrate = 0) || !legalPair (bitrate p.sysclk e.bitrate.toNat) || decide (e.rsvLow ≠ 0) ||
    decide (e.rsvHigh ≠ 0)

/-- The channel has an active entry with a defect (40_init_bitrate R102). -/
def channelDefect (p : Params) (c : Chan) : Bool :=
  match p.cfg[c] with
  | some e => configDefect p e
  | none => false

/-- INIT's check: the first defective active channel, in ascending order (40_init_bitrate R102). -/
def initCheck (p : Params) : Option Chan := allChans.find? (channelDefect p)

/-- The twelve writes INIT makes to an active unit, in order (40_init_bitrate R100). -/
def initWrites (p : Params) (e : CfgEntry) : List (Field × Word) :=
  [ (.sse, 0),
    (.ms, e.mode.setWidth 16),
    (.lbm, e.loopback.setWidth 16),
    (.eot, p.txintMode.setWidth 16),
    (.cs, e.clkSrc.setWidth 16),
    (.cpsdvsr, BitVec.ofNat 16 (bitrate p.sysclk e.bitrate.toNat).1),
    (.scr, BitVec.ofNat 16 (bitrate p.sysclk e.bitrate.toNat).2),
    (.sph, e.phase.setWidth 16),
    (.spo, e.polarity.setWidth 16),
    (.frf, e.frame.setWidth 16),
    (.dss, e.dsize.setWidth 16),
    (.sse, 1) ]

/-- INIT's work on one channel: nothing where it is inactive (40_init_bitrate R100). -/
def initChannel (s : State) (c : Chan) : State :=
  match s.params.cfg[c] with
  | none => s
  | some e => setStatus c .idle (phyWrites c (initWrites s.params e) s)

/-- INIT (40_init_bitrate R100, R102, R103). It is the same before and after the first INIT. -/
def initBody (s : State) : Except Fault State :=
  match initCheck s.params with
  | some c => .error (.configRange (some c))
  | none => .ok (respond .init respOk [] (allChans.foldl initChannel s).setInited)

/-- `INIT` (40_init_bitrate R100). -/
def execInit (s : State) : Host.Outcome State Fault Refusal := runCommand s (initBody s)

/-- BITRATE_CALC (40_init_bitrate R107): legal before INIT, and it changes nothing but the history. -/
def bitrateBody (rate : PortWord) (s : State) : Except Fault State :=
  if rate = 0 then .error (.configRange none)
  else
    let pd := bitrate s.params.sysclk rate.toNat
    .ok (respond .bitrateCalc (respLegal (legalPair pd)) [doutNat pd.1, doutNat pd.2] s)

/-- `BITRATE_CALC R` (40_init_bitrate R107). -/
def execBitrateCalc (rate : PortWord) (s : State) : Host.Outcome State Fault Refusal :=
  runCommand s (bitrateBody rate s)

end Sys2Proof.Machine
end

