-- ==== Sys2Proof/Machine/IrqControl.lean ====
section
/-! DEFINITION. ENABLE_IRQ and DISABLE_IRQ (spec/41_irq_control.md). -/

namespace Sys2Proof.Machine

/-- The writes of ENABLE_IRQ: 0 to the mask bit of each source whose configuration flag is 1, in the order ROR, RT,
RX, TX (41_irq_control R120, R121). -/
def enableWrites (e : CfgEntry) : List (Field × Word) :=
  (if e.ieRor = 1 then [(.imRor, 0)] else []) ++ (if e.ieRt = 1 then [(.imRt, 0)] else []) ++
    (if e.ieRx = 1 then [(.imRx, 0)] else []) ++ (if e.ieTx = 1 then [(.imTx, 0)] else [])

/-- `ENABLE_IRQ c` (41_irq_control R121). -/
def execEnableIrq (c : Chan) (s : State) : Host.Outcome State Fault Refusal :=
  runCommand s <| withChannel (.enableIrq c) c s fun e =>
    .ok (respond .enableIrq respOk [] (phyWrites c (enableWrites e) s))

/-- `DISABLE_IRQ c` (41_irq_control R122). -/
def execDisableIrq (c : Chan) (s : State) : Host.Outcome State Fault Refusal :=
  runCommand s <| withChannel (.disableIrq c) c s fun _ =>
    .ok (respond .disableIrq respOk [] (disableAll c s))

end Sys2Proof.Machine
end

