-- ==== Sys2Proof/Machine/IrqEntry.lean ====
section
/-! DEFINITION. IRQ_ENTRY, the per-unit interrupt handler (spec/44_dispatch.md). -/

namespace Sys2Proof.Machine

/-- The transmit branch (44_dispatch R182). -/
def txBranch (u : Chan) (m : Word) (s : State) : Except Fault State :=
  if misTx m then drain u s else .ok s

/-- The receive branch (44_dispatch R182). -/
def rxBranch (u : Chan) (m : Word) (s : State) : State :=
  if misRx m then rxDrain u s else s

/-- The receive-timeout branch: the receive drain, then the latched status is cleared (44_dispatch R182). -/
def rtBranch (u : Chan) (m : Word) (s : State) : State :=
  if misRt m then phyWrite u .icrRt 1 (rxDrain u s) else s

/-- The receive-overrun branch: the latched status is cleared (44_dispatch R182). -/
def rorBranch (u : Chan) (m : Word) (s : State) : State :=
  if misRor m then phyWrite u .icrRor 1 s else s

/-- The four branches in the order TX, RX, RT, ROR, all from the one snapshot `m` (44_dispatch R183). -/
def irqBranches (u : Chan) (m : Word) (s : State) : Except Fault State :=
  match txBranch u m s with
  | .error f => .error f
  | .ok t => .ok (rorBranch u m (rtBranch u m (rxBranch u m t)))

/-- IRQ_ENTRY: one MIS read, then the branches unless `ISR_MODE = Stub` (44_dispatch R180, R181). -/
def irqBody (u : Chan) (s : State) : Except Fault State :=
  let m := phyReadValue u .mis s
  let t := phyRead u .mis s
  match s.params.isrMode with
  | .stub => .ok (respond .irqEntry respOk [] t)
  | .filled =>
    match irqBranches u m t with
    | .error f => .error f
    | .ok t' => .ok (respond .irqEntry respOk [] t')

/-- `IRQ_ENTRY u` (44_dispatch R180). -/
def execIrqEntry (u : Chan) (s : State) : Host.Outcome State Fault Refusal :=
  runCommand s <| withChannel (.irqEntry u) u s fun _ => irqBody u s

end Sys2Proof.Machine
end

