-- ==== Sys2Proof/Machine/Transfer.lean ====
section
/-! DEFINITION. SYNC_TX with its micro-steps, ASYNC_TX and TX_DRAIN (spec/43_transfer.md). -/

namespace Sys2Proof.Machine

/-- SYNC_TX, the issue step (43_transfer R150): it gives no response unless it fails. -/
def syncIssue (c : Chan) (s : State) : State :=
  if s.ch[c].status = .idle then (setTxIdx c 0 (setStatus c .busy s)).setSeq (.syncTx c 0 .write 0)
  else respond .syncTx respFail [] s

/-- `SYNC_TX c` (43_transfer R150). -/
def execSyncTx (c : Chan) (s : State) : Host.Outcome State Fault Refusal :=
  runCommand s <| withChannel (.syncTx c) c s fun _ => .ok (syncIssue c s)

/-- The end of a SYNC_TX, at its completion (43_transfer R154) or its abort (R153): the cursor to 0, Idle, `seq` Ready,
and the response `r`. -/
def syncEnd (c : Chan) (r : PortWord) (s : State) : State :=
  respond .syncTx r [] ((setStatus c .idle (setTxIdx c 0 s)).setSeq .ready)

/-- SYNC_TX, the `Write` micro-step (43_transfer R151). -/
def syncWrite (c : Chan) (i : Nat) (s : State) : Except Fault State :=
  if s.ch[c].txLen ≤ i then .ok (syncEnd c respOk s)
  else
    match sendWord c i s with
    | .error f => .error f
    | .ok t => .ok (t.setSeq (.syncTx c i .wait 0))

/-- The number of polls reached is the timeout (43_transfer R152, R153); without one it never is. -/
def timedOut (p : Params) (polls : Nat) : Bool :=
  match p.syncTimeout with
  | some n => decide (n ≤ polls)
  | none => false

/-- SYNC_TX, the `Wait` micro-step: one BSY read (43_transfer R152). -/
def syncWait (c : Chan) (i polls : Nat) (s : State) : State :=
  let t := phyRead c .bsy s
  if phyReadValue c .bsy s = 0 then t.setSeq (.syncTx c (i + 1) .write 0)
  else if timedOut s.params (polls + 1) then syncEnd c respFail t
  else t.setSeq (.syncTx c i .wait (polls + 1))

/-- The sequencer's move: the next micro-step of a SYNC_TX in progress (20_memory R61), or a hold, which changes
nothing, when there is none (00_scope R14). -/
def microStep (s : State) : State :=
  match s.seq with
  | .ready => s
  | .syncTx c i .write _ => settle s (syncWrite c i s.enterMainline)
  | .syncTx c i .wait polls => syncWait c i polls s.enterMainline

/-- ASYNC_TX (43_transfer R160): not Idle is checked before the cursor. It leaves `status` Idle. -/
def asyncBody (c : Chan) (s : State) : Except Fault State :=
  if s.ch[c].status ≠ .idle then .ok (respond .asyncTx respFail [] s)
  else if s.ch[c].txLen ≤ s.ch[c].txIdx then .error (.cursorOverrun c s.ch[c].txIdx s.ch[c].txLen)
  else
    match sendWord c s.ch[c].txIdx s with
    | .error f => .error f
    | .ok t => .ok (respond .asyncTx respOk [] t)

/-- `ASYNC_TX c` (43_transfer R160). -/
def execAsyncTx (c : Chan) (s : State) : Host.Outcome State Fault Refusal :=
  runCommand s <| withChannel (.asyncTx c) c s fun _ => asyncBody c s

/-- TX_DRAIN: the drain run once from mainline (43_transfer R166). -/
def txDrainBody (c : Chan) (s : State) : Except Fault State :=
  match drain c s with
  | .error f => .error f
  | .ok t => .ok (respond .txDrain respOk [] t)

/-- `TX_DRAIN c` (43_transfer R166). -/
def execTxDrain (c : Chan) (s : State) : Host.Outcome State Fault Refusal :=
  runCommand s <| withChannel (.txDrain c) c s fun _ => txDrainBody c s

end Sys2Proof.Machine
end

