-- ==== Sys2Proof/Machine/Dispatch.lean ====
section
/-! DEFINITION. exec: one arm per command of the opcode map (30_encoding R72). -/

namespace Sys2Proof.Machine

def exec (i : Instr) (s : State) : Host.Outcome State Fault Refusal :=
  match i with
  | .init => Sys2Proof.Machine.execInit s
  | .enableIrq c => Sys2Proof.Machine.execEnableIrq c s
  | .disableIrq c => Sys2Proof.Machine.execDisableIrq c s
  | .getStatus c => Sys2Proof.Machine.execGetStatus c s
  | .writeIb c words => Sys2Proof.Machine.execWriteIb c words s
  | .readIb c => Sys2Proof.Machine.execReadIb c s
  | .asyncTx c => Sys2Proof.Machine.execAsyncTx c s
  | .syncTx c => Sys2Proof.Machine.execSyncTx c s
  | .txDrain c => Sys2Proof.Machine.execTxDrain c s
  | .irqEntry u => Sys2Proof.Machine.execIrqEntry u s
  | .bitrateCalc rate => Sys2Proof.Machine.execBitrateCalc rate s

end Sys2Proof.Machine
end

