-- ==== Sys2Proof/Machine/Fetch.lean ====
section
/-! DEFINITION. What happens at a step boundary (20_memory R61): which agent moves, and which command it brings. The
block fetches nothing; a command arrives on the command port (10_state R23, 30_encoding R70). -/

namespace Sys2Proof.Machine

/-- What the boundary brings. -/
inductive Fetched where
  /-- the machine has faulted: no step (10_state R36) -/
  | stopped (f : Fault)
  /-- a command to run, in the state it starts in -/
  | command (i : Instr) (s : State)
  /-- a step that runs no command: a micro-step, an illegal word's answer, or a hold -/
  | moved (s : State)
deriving DecidableEq, Repr

/-- A host command may start only when `seq = Ready` and `host_pending = none` (20_memory R61). -/
def hostMayIssue (s : State) : Bool := decide (s.seq = .ready) && s.hostPending.isNone

/-- The dispatcher may issue `IRQ_ENTRY u` for an initialized, active unit, at any boundary (60_exceptions R205). -/
def dispatcherMayIssue (u : Chan) (s : State) : Bool := s.inited && s.params.cfg[u].isSome

/-- The host issues `i`: the command is outstanding until its response (10_state R37). -/
def issue (i : Instr) (s : State) : State := { s with hostPending := some i, context := .mainline }

/-- The command word is taken from the command port, and `din` is what its payload leaves on the data-in port
(30_encoding R70, R74). -/
def takeWord (words din : List PortWord) (s : State) : State := { s with cmdIn := words, dataIn := din }

/-- The answer to an illegal command word: no data-in word is consumed, and nothing changes but the history
(30_encoding R76). -/
def answerIllegal (w : PortWord) (s : State) : State := respond (.illegal w) respIllegal [] s.enterMainline

/-- The host's move: its next command word, decoded (30_encoding R77). It is a hold when the host may not issue, has no
word, or has not supplied the whole payload (60_exceptions R216). -/
def hostTurn (s : State) : Fetched :=
  if hostMayIssue s then
    match s.cmdIn with
    | [] => .moved s
    | w :: words =>
      match decode w s.dataIn with
      | .command i rest => .command i (issue i (takeWord words rest s))
      | .illegal _ => .moved (answerIllegal w (takeWord words s.dataIn s))
      | .incomplete => .moved s
  else .moved s

/-- The dispatcher's move: `IRQ_ENTRY u`, or a hold where it may not issue it (60_exceptions R205, R207). -/
def dispatcherTurn (u : Chan) (s : State) : Fetched :=
  if dispatcherMayIssue u s then .command (.irqEntry u) (enterInterrupt s) else .moved s

/-- What the next step boundary brings (20_memory R61). -/
def fetch (s : State) : Fetched :=
  match s.fault with
  | some f => .stopped f
  | none =>
    match s.nextTurn with
    | .host => hostTurn s.popTurn
    | .dispatcher u => dispatcherTurn u s.popTurn
    | .sequencer => .moved (microStep s.popTurn)

/-- `s` with the command of a table row's bits waiting on the ports, the host the next to move, and nothing that would
hold it: no fault, no SYNC_TX and no outstanding command. -/
def placeCommand (s : State) (nbits w : Nat) : State :=
  { s with
    cmdIn := tableWord nbits w 0 :: s.cmdIn
    dataIn := tablePayload nbits w ++ s.dataIn
    turns := .host :: s.turns
    fault := none
    seq := .ready
    hostPending := none }

end Sys2Proof.Machine
end

