-- ==== Sys2Proof/Machine/Step.lean ====
section
/-! DEFINITION. One step of the machine (00_scope R13, 20_memory R61). -/

namespace Sys2Proof.Machine

/-- One step: what the boundary brings is run. A faulted machine answers with its fault. -/
def step (s : State) : Host.Outcome State Fault Refusal :=
  match fetch s with
  | .stopped f => .fault f
  | .command i t => exec i t
  | .moved t => .next t

/-- `s` with an instruction placed where `step` takes its next one: its command word on the command port, its payload
on the data-in port, and the host's turn next. -/
def State.withFetchWord (s : State) (nbits w : Nat) : State := placeCommand s nbits w

end Sys2Proof.Machine
end

