-- ==== Sys2Proof/Safety.lean ====
section
/-! DEFINITION. What counts as a sound state and a legal history, in the terms the statements use: the invariants of
spec/10_state.md and of part D of spec/95_test_vectors.md, the failure responses of 60_exceptions R200, and the end of a
run of 70_reset_and_hazards R246. -/

namespace Sys2Proof.Machine

/-! ### When a command runs -/

/-- A command that names channel `c` passes the checks every command makes first: the machine has not faulted, it is
initialized, and `c` is active (60_exceptions R206). -/
abbrev Accepts (c : Chan) (s : State) : Prop :=
  s.fault = none ∧ s.inited = true ∧ s.params.cfg[c].isSome = true

/-- The checks every command that names a channel makes first, and the faults they raise: NotInitialized, with the command
word, then UnconfiguredChannel (60_exceptions R202, R206). -/
def ChecksFirst (i : Instr) (c : Chan) : Prop :=
  ∀ s : State, s.fault = none →
    (s.inited = false → exec i s = .next { s with fault := some (.notInitialized (encodeWord i)) }) ∧
    (s.inited = true → s.params.cfg[c] = none → exec i s = .next { s with fault := some (.unconfiguredChannel c) })

/-- The response failures of 60_exceptions R200, with the code each has there. -/
inductive Failure where
  | capacityExceeded
  | writeWhileBusy
  | noData
  | notIdle
  | syncTimeout
deriving DecidableEq, Repr

/-- The code of a failure (60_exceptions R200). -/
def failureCode : Failure → Nat
  | .capacityExceeded => 1
  | .writeWhileBusy => 2
  | .noData => 3
  | .notIdle => 4
  | .syncTimeout => 5

/-- The failure a command answers with at its first step, if it fails there: the conditions of codes 1 to 4 of 60_exceptions
R200, in the order of R206. Code 5, the timeout of a SYNC_TX, comes later, in a micro-step (43_transfer R153). -/
def failureOf (i : Instr) (s : State) : Option Failure :=
  match i with
  | .writeIb c words =>
    if s.params.txCap < words.length then some .capacityExceeded
    else if s.params.writeWhileBusy = .reject ∧ s.ch[c].status = .busy then some .writeWhileBusy
    else none
  | .readIb c => if s.ch[c].rxIdx = 0 then some .noData else none
  | .syncTx c => if s.ch[c].status = .busy then some .notIdle else none
  | .asyncTx c => if s.ch[c].status = .busy then some .notIdle else none
  | .init => none
  | .enableIrq _ => none
  | .disableIrq _ => none
  | .getStatus _ => none
  | .txDrain _ => none
  | .irqEntry _ => none
  | .bitrateCalc _ => none

/-- The defects of a configuration entry for which INIT raises `ConfigRange` (40_init_bitrate R102). -/
abbrev EntryDefective (p : Params) (e : CfgEntry) : Prop :=
  e.bitrate = 0 ∨ legalPair (bitrate p.sysclk e.bitrate.toNat) = false ∨ e.rsvLow ≠ 0 ∨ e.rsvHigh ≠ 0

/-! ### Histories -/

/-- The unit an event accesses; none for a response. -/
def Event.unit? : Event → Option Chan
  | .write u _ _ => some u
  | .read u _ _ => some u
  | .rsp _ _ _ => none

/-- An access of the register interface, of either direction. -/
def Event.isAccess : Event → Bool
  | .write _ _ _ => true
  | .read _ _ _ => true
  | .rsp _ _ _ => false

/-- A response event. -/
def Event.isRsp : Event → Bool
  | .write _ _ _ => false
  | .read _ _ _ => false
  | .rsp _ _ _ => true

/-- An access goes in a direction its field has, with a value of its width (20_memory R54). -/
def Event.legal : Event → Bool
  | .write _ f v => fieldWritable f && fitsField f v
  | .read _ f v => fieldReadable f && fitsField f v
  | .rsp _ _ _ => true

/-- The last value written to field `f` of unit `u`. -/
def lastWrite (u : Chan) (f : Field) (h : List Event) : Option Word :=
  h.foldl (fun a e => match e with
    | .write u' f' v => if u' = u ∧ f' = f then some v else a
    | .read _ _ _ => a
    | .rsp _ _ _ => a) none

/-- The last value read from field `f` of unit `u`. -/
def lastRead (u : Chan) (f : Field) (h : List Event) : Option Word :=
  h.foldl (fun a e => match e with
    | .read u' f' v => if u' = u ∧ f' = f then some v else a
    | .write _ _ _ => a
    | .rsp _ _ _ => a) none

/-- The events a step from `s` to `t` appended. -/
def newEvents (s t : State) : List Event := t.hist.drop s.hist.length

/-- Every write of a configuration field came while the unit was disabled: the last SSE write before it was 0
(70_reset_and_hazards R233). -/
def ConfigWritesSafe (h : List Event) : Prop :=
  ∀ pre u f v post, h = pre ++ .write u f v :: post → fieldConfig f = true → lastWrite u .sse pre = some 0

/-- Every shadow holds the last value written to its field, and at reset the value of 10_state R38 (10_state R32, R33). -/
def ShadowsMatch (s : State) : Prop :=
  ∀ u : Chan,
    s.phy[u].sse = (lastWrite u .sse s.hist).map (·.setWidth 1) ∧
    s.phy[u].ms = (lastWrite u .ms s.hist).map (·.setWidth 1) ∧
    s.phy[u].lbm = (lastWrite u .lbm s.hist).map (·.setWidth 1) ∧
    s.phy[u].eot = (lastWrite u .eot s.hist).map (·.setWidth 1) ∧
    s.phy[u].cs = (lastWrite u .cs s.hist).map (·.setWidth 4) ∧
    s.phy[u].cpsdvsr = (lastWrite u .cpsdvsr s.hist).map (·.setWidth 8) ∧
    s.phy[u].scr = (lastWrite u .scr s.hist).map (·.setWidth 8) ∧
    s.phy[u].sph = (lastWrite u .sph s.hist).map (·.setWidth 1) ∧
    s.phy[u].spo = (lastWrite u .spo s.hist).map (·.setWidth 1) ∧
    s.phy[u].frf = (lastWrite u .frf s.hist).map (·.setWidth 2) ∧
    s.phy[u].dss = (lastWrite u .dss s.hist).map (·.setWidth 4) ∧
    s.phy[u].imTx = ((lastWrite u .imTx s.hist).map (·.setWidth 1)).getD 1 ∧
    s.phy[u].imRx = ((lastWrite u .imRx s.hist).map (·.setWidth 1)).getD 1 ∧
    s.phy[u].imRt = ((lastWrite u .imRt s.hist).map (·.setWidth 1)).getD 1 ∧
    s.phy[u].imRor = ((lastWrite u .imRor s.hist).map (·.setWidth 1)).getD 1

/-! ### Sound states -/

/-- A sound channel record: its buffers have their capacities, the cursors stay in their ranges, and every slot a rule
reads without a check is written (10_state R22, R26, R27, R28). -/
structure ChannelSound (p : Params) (x : Channel) : Prop where
  txBuf_length : x.txBuf.length = p.txCap
  rxBuf_length : x.rxBuf.length = p.rxCap
  txIdx_le : x.txIdx ≤ x.txLen
  txLen_le : x.txLen ≤ p.txCap
  rxIdx_le : x.rxIdx ≤ p.rxCap
  tx_written : ∀ i, i < x.txLen → (slotAt x.txBuf i).isSome = true
  rx_written : ∀ i, i < x.rxIdx → (slotAt x.rxBuf i).isSome = true

/-- `seq = SyncTx{c, …}`. -/
def inSync (c : Chan) (s : State) : Bool :=
  match s.seq with
  | .ready => false
  | .syncTx d _ _ _ => decide (d = c)

/-- A SYNC_TX in progress is the host's outstanding command on an active channel, and its index stays in its range
(10_state R23, R37; 95_test_vectors V3). With none in progress and no fault, no command is outstanding. -/
def SeqSound (s : State) : Prop :=
  match s.seq with
  | .ready => s.fault = none → s.hostPending = none
  | .syncTx c i phase polls =>
    s.hostPending = some (.syncTx c) ∧ s.inited = true ∧ s.params.cfg[c].isSome = true ∧
    match phase with
    | .write => i ≤ s.ch[c].txLen ∧ polls = 0
    | .wait => i < s.ch[c].txLen

/-- A Busy channel has a SYNC_TX in progress, or a drain that stopped on a full FIFO and has not completed since
(10_state R25; 95_test_vectors V3). A drain that completes leaves the channel Idle, so the last TNF read of a
channel left Busy by a drain is 0. -/
def BusySound (s : State) : Prop :=
  ∀ c : Chan, s.ch[c].status = .busy → inSync c s = true ∨ lastRead c .tnf s.hist = some 0

/-- A source is enabled only where the configuration enables it, and only after INIT (41_irq_control R121,
60_exceptions R205). -/
def MasksSound (s : State) : Prop :=
  ∀ u : Chan,
    (s.phy[u].imRor = 0 → s.inited = true ∧ ∃ e, s.params.cfg[u] = some e ∧ e.ieRor = 1) ∧
    (s.phy[u].imRt = 0 → s.inited = true ∧ ∃ e, s.params.cfg[u] = some e ∧ e.ieRt = 1) ∧
    (s.phy[u].imRx = 0 → s.inited = true ∧ ∃ e, s.params.cfg[u] = some e ∧ e.ieRx = 1) ∧
    (s.phy[u].imTx = 0 → s.inited = true ∧ ∃ e, s.params.cfg[u] = some e ∧ e.ieTx = 1)

/-- No unit is left disabled: an active unit is enabled once INIT has run, and no other unit's SSE has been written
(60_exceptions R215). -/
def UnitsEnabled (s : State) : Prop :=
  ∀ u : Chan,
    s.phy[u].sse = if s.inited = true ∧ s.params.cfg[u].isSome = true then some 1 else none

/-- The invariant of the machine. -/
structure Sound (s : State) : Prop where
  channels : ∀ c : Chan, ChannelSound s.params s.ch[c]
  seq : SeqSound s
  busy : BusySound s
  masks : MasksSound s
  units : UnitsEnabled s
  mainline : s.context = .mainline

/-! ### The end of a run -/

/-- An ended run (70_reset_and_hazards R246): no fault, nothing in progress, nothing outstanding, and no further
command from the host. -/
def Ended (s : State) : Prop :=
  s.fault = none ∧ s.seq = .ready ∧ s.hostPending = none ∧ s.cmdIn = []

/-- Every source of every unit is disabled. -/
def AllMasked (s : State) : Prop :=
  ∀ u : Chan, s.phy[u].imTx = 1 ∧ s.phy[u].imRx = 1 ∧ s.phy[u].imRt = 1 ∧ s.phy[u].imRor = 1

/-- A quiescent run (70_reset_and_hazards R246). -/
def Quiescent (s : State) : Prop :=
  Ended s ∧ ∀ c : Chan, s.ch[c].status = .idle ∧ s.ch[c].txIdx = 0

end Sys2Proof.Machine
end

