-- ==== Sys2Proof/Certificates/Slice0/Obligations.lean ====
section
/-! DEFINITION. The statements for the provers. Each docstring names the rules of spec/ it formalises, and the log entry
where a clause rests on a choice of the model. -/

open Sys2Proof Sys2Proof.Machine

/-! ### Encoding -/

/-- 30_encoding R71, R72, R74, R77: a well-formed command laid out as its word and its payload decodes to itself, and
leaves the data-in words behind it. The payload as part of the command is the model's form (log entry 7). -/
def Obligations.DecodeOfEncode : Prop :=
  ∀ (i : Instr) (rest : List PortWord), i.wf = true →
    decode (encodeWord i) (encodePayload i ++ rest) = .command i rest

/-- 30_encoding R71, R72, R74: the command word of what the decoder reads is the word it read, so no bit of a legal word is
dropped; the command is well formed; exactly its payload is consumed, and of each WRITE_IB payload word the low half is
kept, of BITRATE_CALC's all 32 bits. -/
def Obligations.EncodeOfDecode : Prop :=
  ∀ (w : PortWord) (din rest : List PortWord) (i : Instr), decode w din = .command i rest →
    encodeWord i = w ∧ i.wf = true ∧ (encodePayload i).length ≤ din.length ∧
    rest = din.drop (encodePayload i).length ∧
    (∀ c words, i = .writeIb c words → words = (din.take words.length).map (·.setWidth 16)) ∧
    (∀ rate, i = .bitrateCalc rate → din.head? = some rate)

/-- 30_encoding R72, R76, R80: words written out from the encoding, as spec/95_test_vectors.md part B1 lists them. -/
def Obligations.ListedWordsDecode : Prop :=
  decode 0x00000001 [] = .command .init [] ∧
  decode 0x00000012 [] = .command (.enableIrq 1) [] ∧
  decode 0x00000033 [] = .command (.disableIrq 3) [] ∧
  decode 0x00000024 [] = .command (.getStatus 2) [] ∧
  decode 0x00000005 [9] = .command (.writeIb 0 []) [9] ∧
  decode 0x00000315 [0x00012345, 2, 3, 9] = .command (.writeIb 1 [0x2345, 2, 3]) [9] ∧
  decode 0x00000016 [] = .command (.readIb 1) [] ∧
  decode 0x00000027 [] = .command (.asyncTx 2) [] ∧
  decode 0x00000038 [] = .command (.syncTx 3) [] ∧
  decode 0x00000019 [] = .command (.txDrain 1) [] ∧
  decode 0x0000003A [] = .command (.irqEntry 3) [] ∧
  decode 0x0000000B [0x000F4240] = .command (.bitrateCalc 1000000) [] ∧
  decode 0x00000000 [] = .illegal .reservedOpcode ∧
  decode 0x0000000C [] = .illegal .reservedOpcode ∧
  decode 0x00000011 [] = .illegal .channelNotZero ∧
  decode 0x0000001B [7] = .illegal .channelNotZero ∧
  decode 0x00000102 [] = .illegal .countNotZero ∧
  decode 0x00000084 [] = .illegal .reservedBits ∧
  decode 0x80000005 [] = .illegal .reservedBits ∧
  decode 0x000000F5 [] = .illegal .reservedBits

/-- 30_encoding R72, R76: "Every legal word is one of the rows": the legality check agrees with the match and mask columns of
spec/opcode_table.json on all 2^32 words, and no word belongs to two rows. -/
def Obligations.LegalWordsAreTheTablesRows : Prop :=
  (∀ w : PortWord, illegalWord w = none ↔ ∃ row ∈ opcodeRows, inRow w row = true) ∧
  (∀ w : PortWord, ∀ a ∈ opcodeRows, ∀ b ∈ opcodeRows, inRow w a = true → inRow w b = true → a = b)

/-- 10_state R31: the packed layout of a configuration entry loses no bit, in either direction. -/
def Obligations.ConfigEntryPacking : Prop :=
  (∀ e : CfgEntry, cfgOfPacked (cfgToPacked e) = e) ∧ (∀ b : BitVec 64, cfgToPacked (cfgOfPacked b) = b)

/-! ### The step -/

/-- 30_encoding R76: a word that is illegal by one of the four items is answered with 0x00000009 and no data-out word, in one
step; it consumes no data-in word, and only the history changes (the word leaves the command port, and the turn is used). -/
def Obligations.IllegalWordIsAnswered : Prop :=
  ∀ (s : State) (w : PortWord) (words : List PortWord),
    s.fault = none → s.nextTurn = .host → s.seq = .ready → s.hostPending = none → s.cmdIn = w :: words →
    ((w.extractLsb' 0 4 = 0x0#4 ∨ 0xC#4 ≤ w.extractLsb' 0 4) ∨
      (w.extractLsb' 6 2 ≠ 0#2 ∨ w.extractLsb' 16 16 ≠ 0#16) ∨
      (w.extractLsb' 8 8 ≠ 0#8 ∧ w.extractLsb' 0 4 ≠ 0x5#4) ∨
      (w.extractLsb' 4 2 ≠ 0#2 ∧ (w.extractLsb' 0 4 = 0x1#4 ∨ w.extractLsb' 0 4 = 0xB#4))) →
    step s = .next { s.popTurn with
      cmdIn := words
      hist := s.hist ++ [.rsp (.illegal w) 0x00000009 []]
      hostPending := none
      context := .mainline }

/-- 20_memory R61, 30_encoding R77, 10_state R37: on the host's turn, when no command is in progress or outstanding, a step is
exec of the command the ports decode to, in the state that has it outstanding (log entries 4, 6 and 7). -/
def Obligations.StepRunsTheDecodedCommand : Prop :=
  ∀ (s : State) (w : PortWord) (words rest : List PortWord) (i : Instr),
    s.fault = none → s.nextTurn = .host → s.seq = .ready → s.hostPending = none → s.cmdIn = w :: words →
    decode w s.dataIn = .command i rest →
    step s = exec i { s.popTurn with
      cmdIn := words, dataIn := rest, hostPending := some i, context := .mainline }

/-- 60_exceptions R205, R207: the dispatcher's turn is IRQ_ENTRY for an initialized, active unit, at any boundary, and no move
otherwise. Entry changes nothing but the context (log entries 4 and 6). -/
def Obligations.StepRunsTheDispatchersEntry : Prop :=
  ∀ (s : State) (u : Chan), s.fault = none → s.nextTurn = .dispatcher u →
    (s.inited = true → s.params.cfg[u].isSome = true →
      step s = exec (.irqEntry u) { s.popTurn with context := .interrupt }) ∧
    (s.inited = false ∨ s.params.cfg[u] = none → step s = .next s.popTurn)

/-- THE MODEL'S CHOICE (log entries 4 and 7), no rule of the spec: an agent with no move when its turn comes holds, which is a next
state that changes nothing but the use of the turn. Who has no move rests on 20_memory R61 (the host while a SYNC_TX is in progress
or a command is outstanding, the sequencer with no micro-step). Of a host with part of a payload 60_exceptions R216 says that it never
issues a half command and that a claim says nothing of a run in which it does; that the model then holds is log entry 7's. -/
def Obligations.HoldsChangeNothing : Prop :=
  ∀ s : State, s.fault = none →
    (s.nextTurn = .host → (s.seq ≠ .ready ∨ s.hostPending ≠ none ∨ s.cmdIn = []) → step s = .next s.popTurn) ∧
    (s.nextTurn = .host → ∀ w words, s.cmdIn = w :: words → decode w s.dataIn = .incomplete →
      step s = .next s.popTurn) ∧
    (s.nextTurn = .sequencer → s.seq = .ready → step s = .next s.popTurn)

/-- 10_state R36: the fault record is none at reset and set by `raise`; a state that holds a fault has no further step of any
kind, and is never final. That the step, and exec of every command, then answers with that same fault is the form of the model
(log entry 5). -/
def Obligations.FaultedMachineStops : Prop :=
  State.reset.fault = none ∧ (∀ (s : State) (f : Fault), (s.raise f).fault = some f) ∧
  ∀ (s : State) (f : Fault), s.fault = some f →
    step s = .fault f ∧ (∀ i, exec i s = .fault f) ∧ ¬ Ended s

/-! ### The checks that come first -/

/-- 10_state R29: `inited` is false after reset and set true by INIT; every command except INIT and BITRATE_CALC raises
NotInitialized while it is false, with the command word as info. -/
def Obligations.CommandsBeforeInitFault : Prop :=
  State.reset.inited = false ∧
  (∀ s t : State, exec .init s = .next t → t.fault = none → t.inited = true) ∧
  (∀ (i : Instr) (s : State), s.fault = none → s.inited = false → i ≠ .init → (∀ r, i ≠ .bitrateCalc r) →
    exec i s = .next { s with fault := some (.notInitialized (encodeWord i)) }) ∧
  (∀ (i : Instr) (s t : State), s.fault = none → (i = .init ∨ ∃ r, i = .bitrateCalc r) → exec i s = .next t →
    ∀ w, t.fault ≠ some (.notInitialized w))

/-- 10_state R30: any command naming an inactive channel raises UnconfiguredChannel (after NotInitialized, 60_exceptions R206);
and no step writes the configuration table, which the model carries in its state (log entry 1). -/
def Obligations.InactiveChannelsFault : Prop :=
  (∀ (i : Instr) (c : Chan) (s : State), i.chan? = some c → s.fault = none → s.inited = true →
    s.params.cfg[c] = none → exec i s = .next { s with fault := some (.unconfiguredChannel c) }) ∧
  (∀ s t : State, step s = .next t → t.params.cfg = s.params.cfg)

/-! ### INIT and BITRATE_CALC -/

/-- 40_init_bitrate R100: INIT of a table with no defect makes the twelve writes to every active unit in ascending order, sets
every active channel Idle and `inited` true, and answers OK. Inactive channels, the buffers and cursors, the mask bits and
`seq` are untouched. -/
def Obligations.InitProgramsTheUnits : Prop :=
  encodeWord .init = 0x00000001 ∧
  ∀ s : State, s.fault = none → (∀ (c : Chan) (e : CfgEntry), s.params.cfg[c] = some e → ¬ EntryDefective s.params e) →
    ∃ t, exec .init s = .next (respond .init 0x00000000 [] t) ∧
      t.inited = true ∧
      t.hist = s.hist ++ ([0, 1, 2, 3] : List Chan).flatMap (fun c =>
        match s.params.cfg[c] with
        | none => []
        | some e =>
          [ .write c .sse 0,
            .write c .ms (e.mode.setWidth 16),
            .write c .lbm (e.loopback.setWidth 16),
            .write c .eot (s.params.txintMode.setWidth 16),
            .write c .cs (e.clkSrc.setWidth 16),
            .write c .cpsdvsr (BitVec.ofNat 16 (bitrate s.params.sysclk e.bitrate.toNat).1),
            .write c .scr (BitVec.ofNat 16 (bitrate s.params.sysclk e.bitrate.toNat).2),
            .write c .sph (e.phase.setWidth 16),
            .write c .spo (e.polarity.setWidth 16),
            .write c .frf (e.frame.setWidth 16),
            .write c .dss (e.dsize.setWidth 16),
            .write c .sse 1 ]) ∧
      (∀ (c : Chan) (e : CfgEntry), s.params.cfg[c] = some e →
        t.ch[c] = { s.ch[c] with status := .idle } ∧
        t.phy[c] = { s.phy[c] with
          sse := some 1
          ms := some e.mode
          lbm := some e.loopback
          eot := some s.params.txintMode
          cs := some e.clkSrc
          cpsdvsr := some (BitVec.ofNat 8 (bitrate s.params.sysclk e.bitrate.toNat).1)
          scr := some (BitVec.ofNat 8 (bitrate s.params.sysclk e.bitrate.toNat).2)
          sph := some e.phase
          spo := some e.polarity
          frf := some e.frame
          dss := some e.dsize }) ∧
      (∀ c : Chan, s.params.cfg[c] = none → t.ch[c] = s.ch[c] ∧ t.phy[c] = s.phy[c]) ∧
      t.params = s.params ∧ t.seq = s.seq ∧ t.fault = none ∧ t.hostPending = s.hostPending ∧
      t.context = s.context ∧ t.cmdIn = s.cmdIn ∧ t.dataIn = s.dataIn ∧ t.draws = s.draws ∧ t.turns = s.turns ∧
      t.nDraws = s.nDraws ∧ t.nTurns = s.nTurns

/-- 40_init_bitrate R102: INIT raises ConfigRange for the first active channel, in ascending order, whose entry has a zero bit
rate, an illegal pair or a nonzero reserved bit; nothing is written first. -/
def Obligations.InitRejectsADefectiveTable : Prop :=
  ∀ (s : State) (c : Chan) (e : CfgEntry), s.fault = none → s.params.cfg[c] = some e → EntryDefective s.params e →
    (∀ (d : Chan) (e' : CfgEntry), d < c → s.params.cfg[d] = some e' → ¬ EntryDefective s.params e') →
    exec .init s = .next { s with fault := some (.configRange (some c)) }

/-- 40_init_bitrate R104: the two paths of the calculator, with floor division; on the fallback path the ratio is at least 1, so
`ratio - 1` never goes below 0. -/
def Obligations.BitrateTakesThePath : Prop :=
  ∀ sysclk rate : Nat, 1 ≤ rate →
    (sysclk / rate % 2 = 0 ∧ sysclk / rate ≤ 254 → bitrate sysclk rate = (sysclk / rate, 0)) ∧
    (¬ (sysclk / rate % 2 = 0 ∧ sysclk / rate ≤ 254) →
      bitrate sysclk rate = (2, sysclk / rate - 1) ∧ 1 ≤ sysclk / rate)

/-- 40_init_bitrate R105: which pairs are legal, and that `bitrate` returns an illegal one in exactly two cases, with the pair of
each. -/
def Obligations.IllegalPairsAreTwoCases : Prop :=
  (∀ p d : Nat, legalPair (p, d) = true ↔ p % 2 = 0 ∧ 2 ≤ p ∧ p ≤ 254 ∧ d ≤ 255) ∧
  ∀ sysclk rate : Nat, 1 ≤ rate →
    (legalPair (bitrate sysclk rate) = false ↔ sysclk / rate = 0 ∨ 257 ≤ sysclk / rate) ∧
    (sysclk / rate = 0 ↔ sysclk < rate) ∧
    (sysclk / rate = 0 → bitrate sysclk rate = (0, 0)) ∧
    (257 ≤ sysclk / rate → bitrate sysclk rate = (2, sysclk / rate - 1) ∧ 256 ≤ (bitrate sysclk rate).2)

/-- 40_init_bitrate R107: BITRATE_CALC answers with the pair and LEGAL, for every nonzero rate, initialized or not, and changes
nothing but the history; R = 0 raises ConfigRange with no channel. -/
def Obligations.BitrateCalcAnswersThePair : Prop :=
  ∀ (rate : PortWord) (s : State), encodeWord (.bitrateCalc rate) = 0x0000000B ∧
    (s.fault = none → rate ≠ 0 →
      exec (.bitrateCalc rate) s = .next (respond .bitrateCalc
        (if legalPair (bitrate s.params.sysclk rate.toNat) = true then 0x00000004 else 0x00000000)
        [BitVec.ofNat 32 (bitrate s.params.sysclk rate.toNat).1,
          BitVec.ofNat 32 (bitrate s.params.sysclk rate.toNat).2] s)) ∧
    (s.fault = none → rate = 0 →
      exec (.bitrateCalc rate) s = .next { s with fault := some (.configRange none) })

/-- 40_init_bitrate R108: with SYSCLK in its range, both data-out words of BITRATE_CALC hold their number whole; nothing
wraps. -/
def Obligations.BitratePairFitsThePort : Prop :=
  ∀ sysclk rate : Nat, sysclk < 2 ^ 32 → 1 ≤ rate →
    (BitVec.ofNat 32 (bitrate sysclk rate).1).toNat = (bitrate sysclk rate).1 ∧
    (BitVec.ofNat 32 (bitrate sysclk rate).2).toNat = (bitrate sysclk rate).2

/-- 40_init_bitrate R106: the achieved rate `SYSCLK / (p * (1 + d))` of a legal pair, said without dividing: on the preferred
path it is at least the target, and on the fallback path the divisor is twice the ratio. -/
def Obligations.AchievedRate : Prop :=
  ∀ sysclk rate p d : Nat, 1 ≤ rate → bitrate sysclk rate = (p, d) → legalPair (p, d) = true →
    (sysclk / rate % 2 = 0 ∧ sysclk / rate ≤ 254 → p * (1 + d) * rate ≤ sysclk) ∧
    (¬ (sysclk / rate % 2 = 0 ∧ sysclk / rate ≤ 254) → p * (1 + d) = 2 * (sysclk / rate))

/-! ### Interrupt control -/

/-- 41_irq_control R121: ENABLE_IRQ clears the mask bit of every source the configuration enables, one write each in the order
ROR, RT, RX, TX, keeps the others, and answers OK. The faults of the channel checks come first. -/
def Obligations.EnableIrqClearsConfiguredMasks : Prop :=
  ∀ (c : Chan) (s : State) (e : CfgEntry), encodeWord (.enableIrq c) = 0x00000002 ||| (BitVec.ofNat 32 c.val <<< 4) ∧
    ChecksFirst (.enableIrq c) c ∧
    (s.fault = none → s.inited = true → s.params.cfg[c] = some e →
      exec (.enableIrq c) s = .next (respond .enableIrq 0x00000000 [] { s with
        phy := s.phy.set c { s.phy[c] with
          imRor := if e.ieRor = 1 then 0 else s.phy[c].imRor
          imRt := if e.ieRt = 1 then 0 else s.phy[c].imRt
          imRx := if e.ieRx = 1 then 0 else s.phy[c].imRx
          imTx := if e.ieTx = 1 then 0 else s.phy[c].imTx }
        hist := s.hist ++
          ((if e.ieRor = 1 then [.write c .imRor 0] else []) ++ (if e.ieRt = 1 then [.write c .imRt 0] else []) ++
            (if e.ieRx = 1 then [.write c .imRx 0] else []) ++ (if e.ieTx = 1 then [.write c .imTx 0] else [])) }))

/-- 41_irq_control R122, R123: DISABLE_IRQ sets all four mask bits whatever the configuration says, in four writes in order, and
answers OK. The faults of the channel checks come first. -/
def Obligations.DisableIrqSetsAllMasks : Prop :=
  ∀ (c : Chan) (s : State), encodeWord (.disableIrq c) = 0x00000003 ||| (BitVec.ofNat 32 c.val <<< 4) ∧
    ChecksFirst (.disableIrq c) c ∧
    (Accepts c s →
      exec (.disableIrq c) s = .next (respond .disableIrq 0x00000000 [] { s with
        phy := s.phy.set c { s.phy[c] with imRor := 1, imRt := 1, imRx := 1, imTx := 1 }
        hist := s.hist ++
          [.write c .imRor 1, .write c .imRt 1, .write c .imRx 1, .write c .imTx 1] }))

/-! ### Buffers and status -/

/-- 42_buffers R130, R131: WRITE_IB. Over capacity, or Busy under Reject, it answers FAIL and changes nothing; otherwise the
words stand in the slots from 0 up, the slots above keep what they held, `tx_len` is the count and `tx_idx` is 0, and the answer
is OK. The capacity comes first; `status` is not written. The faults of the channel checks come before both. -/
def Obligations.WriteIbLoadsTheBuffer : Prop :=
  (∀ (c : Chan) (words : List Word), ChecksFirst (.writeIb c words) c ∧
    (words.length ≤ 255 → encodeWord (.writeIb c words) =
        0x00000005 ||| (BitVec.ofNat 32 c.val <<< 4) ||| (BitVec.ofNat 32 words.length <<< 8) ∧
      encodePayload (.writeIb c words) = words.map (·.setWidth 32))) ∧
  ∀ (c : Chan) (words : List Word) (s : State), Accepts c s →
    (s.params.txCap < words.length → exec (.writeIb c words) s = .next (respond .writeIb 0x00000001 [] s)) ∧
    (words.length ≤ s.params.txCap → s.params.writeWhileBusy = .reject → s.ch[c].status = .busy →
      exec (.writeIb c words) s = .next (respond .writeIb 0x00000001 [] s)) ∧
    (words.length ≤ s.params.txCap → (s.params.writeWhileBusy = .accept ∨ s.ch[c].status = .idle) →
      ∃ buf, exec (.writeIb c words) s = .next (respond .writeIb 0x00000000 [] { s with
          ch := s.ch.set c { s.ch[c] with txBuf := buf, txLen := words.length, txIdx := 0 } }) ∧
        (∀ j, j < words.length → slotAt buf j = words[j]?) ∧
        (∀ j, words.length ≤ j → slotAt buf j = slotAt s.ch[c].txBuf j))

/-- 42_buffers R135, R136: READ_IB under Counted, on a sound channel. With no data it answers FAIL and gives no word; otherwise
it gives the `rx_idx` words received, oldest first, with N in the response, and only `rx_idx` changes, to 0. -/
def Obligations.ReadIbReturnsTheReceivedWords : Prop :=
  (∀ c : Chan, encodeWord (.readIb c) = 0x00000006 ||| (BitVec.ofNat 32 c.val <<< 4) ∧ ChecksFirst (.readIb c) c) ∧
  ∀ (c : Chan) (s : State), Accepts c s → s.params.readMode = .counted →
    (s.ch[c].rxIdx = 0 → exec (.readIb c) s = .next (respond .readIb 0x00000001 [] s)) ∧
    (s.ch[c].rxIdx ≠ 0 → ChannelSound s.params s.ch[c] → s.params.rxCap ≤ 255 →
      ∃ out : List Word, out.length = s.ch[c].rxIdx ∧
        (∀ j, j < s.ch[c].rxIdx → slotAt s.ch[c].rxBuf j = out[j]?) ∧
        exec (.readIb c) s = .next (respond .readIb (BitVec.ofNat 32 (s.ch[c].rxIdx * 256))
          (out.map (·.setWidth 32)) { s with ch := s.ch.set c { s.ch[c] with rxIdx := 0 } }))

/-- 42_buffers R137: READ_IB under Sentinel. The scan stops at the first sentinel and returns the words before it, be they more or
fewer than `rx_idx`; an unwritten slot met first faults, and so does a buffer with no sentinel within capacity. With no data
there is no scan and no fault. -/
def Obligations.ReadIbScansToTheSentinel : Prop :=
  ∀ (c : Chan) (s : State), Accepts c s → s.params.readMode = .sentinel → s.params.rxCap ≤ 255 →
    (s.ch[c].rxIdx = 0 → exec (.readIb c) s = .next (respond .readIb 0x00000001 [] s)) ∧
    (∀ out : List Word, s.ch[c].rxIdx ≠ 0 → out.length < s.params.rxCap →
      (∀ j, j < out.length → slotAt s.ch[c].rxBuf j = out[j]?) → s.params.sent ∉ out →
      (slotAt s.ch[c].rxBuf out.length = some s.params.sent →
        exec (.readIb c) s = .next (respond .readIb (BitVec.ofNat 32 (out.length * 256))
          (out.map (·.setWidth 32)) { s with ch := s.ch.set c { s.ch[c] with rxIdx := 0 } })) ∧
      (slotAt s.ch[c].rxBuf out.length = none →
        exec (.readIb c) s = .next { s with fault := some (.unwrittenRead c .rx out.length) })) ∧
    (∀ out : List Word, s.ch[c].rxIdx ≠ 0 → out.length = s.params.rxCap →
      (∀ j, j < out.length → slotAt s.ch[c].rxBuf j = out[j]?) → s.params.sent ∉ out →
      exec (.readIb c) s = .next { s with fault := some (.unboundedCopy c) })

/-- 42_buffers R140: GET_STATUS answers Busy as 0x2 and Idle as 0x0, and writes nothing. The faults of the channel checks
come first. -/
def Obligations.GetStatusReportsTheStatus : Prop :=
  ∀ (c : Chan) (s : State), encodeWord (.getStatus c) = 0x00000004 ||| (BitVec.ofNat 32 c.val <<< 4) ∧
    ChecksFirst (.getStatus c) c ∧
    (Accepts c s → exec (.getStatus c) s = .next (respond .getStatus
      (if s.ch[c].status = .busy then 0x00000002 else 0x00000000) [] s))

/-! ### The transfer engine -/

/-- 43_transfer R150: SYNC_TX's issue step. On a channel that is not Idle it answers FAIL and changes nothing; on an Idle one it
sets Busy, the cursor to 0 and `seq`, and gives no response. The faults of the channel checks come first. -/
def Obligations.SyncTxIssues : Prop :=
  (∀ c : Chan, encodeWord (.syncTx c) = 0x00000008 ||| (BitVec.ofNat 32 c.val <<< 4) ∧ ChecksFirst (.syncTx c) c) ∧
  ∀ (c : Chan) (s : State), Accepts c s →
    (s.ch[c].status = .busy → exec (.syncTx c) s = .next (respond .syncTx 0x00000001 [] s)) ∧
    (s.ch[c].status = .idle → exec (.syncTx c) s = .next { s with
      ch := s.ch.set c { s.ch[c] with status := .busy, txIdx := 0 }
      seq := .syncTx c 0 .write 0 })

/-- 43_transfer R151, R154: the Write micro-step writes word `i` to DR, sets the cursor to `i + 1` and waits; at `i >= tx_len` it
completes instead: cursor 0, Idle, Ready, and the answer OK to the host. The turn and the context are the model's form (log entries
4 and 6). -/
def Obligations.SyncTxWritesOrCompletes : Prop :=
  ∀ (s : State) (c : Chan) (i polls : Nat), s.fault = none → s.nextTurn = .sequencer →
    s.seq = .syncTx c i .write polls →
    (s.ch[c].txLen ≤ i → step s = .next { s.popTurn with
      ch := s.ch.set c { s.ch[c] with txIdx := 0, status := .idle }
      seq := .ready
      hist := s.hist ++ [.rsp .syncTx 0x00000000 []]
      hostPending := none
      context := .mainline }) ∧
    (∀ w, i < s.ch[c].txLen → slotAt s.ch[c].txBuf i = some w → step s = .next { s.popTurn with
      ch := s.ch.set c { s.ch[c] with txIdx := i + 1 }
      seq := .syncTx c i .wait 0
      hist := s.hist ++ [.write c .dr w]
      context := .mainline })

/-- 43_transfer R152, R153: the Wait micro-step is one BSY read, whose value is the low bit of the PHY's answer. At 0 the next word
is due; at 1 the poll counts, and the SYNC_TX aborts with FAIL exactly when the count reaches the timeout. The answer, the turn
and the context are the model's form (log entries 3, 4 and 6). -/
def Obligations.SyncTxWaitsForBusy : Prop :=
  ∀ (s : State) (c : Chan) (i polls : Nat), s.fault = none → s.nextTurn = .sequencer →
    s.seq = .syncTx c i .wait polls →
    (s.nextDraw.getLsbD 0 = false → step s = .next { s.popTurn.popDraw with
      seq := .syncTx c (i + 1) .write 0
      hist := s.hist ++ [.read c .bsy 0]
      context := .mainline }) ∧
    (s.nextDraw.getLsbD 0 = true → (∀ n, s.params.syncTimeout = some n → polls + 1 < n) →
      step s = .next { s.popTurn.popDraw with
        seq := .syncTx c i .wait (polls + 1)
        hist := s.hist ++ [.read c .bsy 1]
        context := .mainline }) ∧
    (∀ n, s.nextDraw.getLsbD 0 = true → s.params.syncTimeout = some n → n ≤ polls + 1 →
      step s = .next { s.popTurn.popDraw with
        ch := s.ch.set c { s.ch[c] with txIdx := 0, status := .idle }
        seq := .ready
        hist := s.hist ++ [.read c .bsy 1, .rsp .syncTx 0x00000001 []]
        hostPending := none
        context := .mainline })

/-- 43_transfer R151, R152, R154, and fairness assumption FA1 of 60_exceptions R217 as a hypothesis on the PHY's answers: word `j` is
answered by `polls[j]` BSY reads of 1 and one of 0, each count below the timeout if there is one. From the issue step, the
sequencer then writes exactly the words of the buffer to DR, in order, each followed by its BSY reads, answers OK, and leaves
the channel Idle with the cursor at 0: the source's "drains exactly `count` words to the register interface in order". The given
turns and answers are the model's form (log entries 3 and 4). -/
def Obligations.SyncTxSendsTheBuffer : Prop :=
  ∀ (s : State) (c : Chan) (words : List Word) (polls : List Nat) (ts : List Turn) (ds : List Word),
    s.fault = none → s.seq = .syncTx c 0 .write 0 →
    s.ch[c].txLen = words.length → (∀ j, j < words.length → slotAt s.ch[c].txBuf j = words[j]?) →
    polls.length = words.length → (∀ n, s.params.syncTimeout = some n → ∀ k ∈ polls, k < n) →
    s.turns = List.replicate (2 * words.length + polls.sum + 1) .sequencer ++ ts →
    s.draws = polls.flatMap (fun k => List.replicate k 1 ++ [0]) ++ ds →
    Sys2Proof.core.run (2 * words.length + polls.sum + 1) s = .next { s with
      ch := s.ch.set c { s.ch[c] with status := .idle, txIdx := 0 }
      seq := .ready
      hist := s.hist ++
        (words.zip polls).flatMap (fun wk =>
          .write c .dr wk.1 :: List.replicate wk.2 (.read c .bsy 1) ++ [.read c .bsy 0]) ++
        [.rsp .syncTx 0x00000000 []]
      hostPending := none
      context := .mainline
      turns := ts
      draws := ds }

/-- 43_transfer R152, 70_reset_and_hazards R237: without a timeout, a BSY flag that stays 1 keeps a SYNC_TX waiting: after any number
of BSY reads of 1 there is no response and no other change than the count and the history (log entries 3 and 4). -/
def Obligations.SyncTxHangsOnAStuckBusyFlag : Prop :=
  ∀ (s : State) (c : Chan) (i p k : Nat) (ts : List Turn) (ds : List Word),
    s.fault = none → s.seq = .syncTx c i .wait p → s.params.syncTimeout = none → s.context = .mainline →
    s.turns = List.replicate k .sequencer ++ ts → s.draws = List.replicate k 1 ++ ds →
    Sys2Proof.core.run k s = .next { s with
      seq := .syncTx c i .wait (p + k)
      hist := s.hist ++ List.replicate k (.read c .bsy 1)
      turns := ts
      draws := ds }

/-- 43_transfer R160: ASYNC_TX. Not Idle is FAIL, with nothing changed; Idle with the cursor at or past the length is CursorOverrun;
otherwise the word at the cursor goes to DR, the cursor advances by one, `status` stays Idle, and the answer is OK. The faults of
the channel checks come first. -/
def Obligations.AsyncTxSendsOneWord : Prop :=
  (∀ c : Chan, encodeWord (.asyncTx c) = 0x00000007 ||| (BitVec.ofNat 32 c.val <<< 4) ∧ ChecksFirst (.asyncTx c) c) ∧
  ∀ (c : Chan) (s : State), Accepts c s →
    (s.ch[c].status = .busy → exec (.asyncTx c) s = .next (respond .asyncTx 0x00000001 [] s)) ∧
    (s.ch[c].status = .idle → s.ch[c].txLen ≤ s.ch[c].txIdx →
      exec (.asyncTx c) s = .next { s with fault := some (.cursorOverrun c s.ch[c].txIdx s.ch[c].txLen) }) ∧
    (∀ w, s.ch[c].status = .idle → s.ch[c].txIdx < s.ch[c].txLen → slotAt s.ch[c].txBuf s.ch[c].txIdx = some w →
      exec (.asyncTx c) s = .next (respond .asyncTx 0x00000000 [] { s with
        ch := s.ch.set c { s.ch[c] with txIdx := s.ch[c].txIdx + 1 }
        hist := s.hist ++ [.write c .dr w] }))

/-- 43_transfer R165, R166: TX_DRAIN, for PHY answers that are given (log entry 3). TNF is read once per word that remains, before its DR write, and
not after the last. When TNF reads 0 with words left, the drain stops: Busy, the cursor past the words sent, the masks alone. When
the cursor reaches `tx_len`, all four masks are set, the cursor is 0 and the channel Idle. The answer is OK either way; the
faults of the channel checks come first. -/
def Obligations.TxDrainSendsUntilFullOrDone : Prop :=
  (∀ c : Chan, encodeWord (.txDrain c) = 0x00000009 ||| (BitVec.ofNat 32 c.val <<< 4) ∧ ChecksFirst (.txDrain c) c) ∧
  ∀ (c : Chan) (s : State) (words ds : List Word), Accepts c s →
    (∀ j, j < words.length → slotAt s.ch[c].txBuf (s.ch[c].txIdx + j) = words[j]?) →
    (s.ch[c].txIdx + words.length < s.ch[c].txLen → s.draws = List.replicate words.length 1 ++ 0 :: ds →
      exec (.txDrain c) s = .next (respond .txDrain 0x00000000 [] { s with
        ch := s.ch.set c { s.ch[c] with status := .busy, txIdx := s.ch[c].txIdx + words.length }
        hist := s.hist ++ words.flatMap (fun w => [.read c .tnf 1, .write c .dr w]) ++ [.read c .tnf 0]
        draws := ds })) ∧
    (s.ch[c].txIdx + words.length = s.ch[c].txLen → s.draws = List.replicate words.length 1 ++ ds →
      exec (.txDrain c) s = .next (respond .txDrain 0x00000000 [] { s with
        ch := s.ch.set c { s.ch[c] with status := .idle, txIdx := 0 }
        phy := s.phy.set c { s.phy[c] with imRor := 1, imRt := 1, imRx := 1, imTx := 1 }
        hist := s.hist ++ words.flatMap (fun w => [.read c .tnf 1, .write c .dr w]) ++
          [.write c .imRor 1, .write c .imRt 1, .write c .imRx 1, .write c .imTx 1]
        draws := ds }))

/-- 43_transfer R165: whatever the PHY answers, a drain of a sound channel ends within its step, in one of two ways: partial (Busy,
the cursor below `tx_len`, the masks unchanged, the last TNF read 0) or complete (the masks set, cursor 0, Idle). -/
def Obligations.DrainEndsPartialOrComplete : Prop :=
  ∀ (c : Chan) (s : State), ChannelSound s.params s.ch[c] →
    ∃ t, drain c s = .ok t ∧
      ((∃ n, t.ch[c] = { s.ch[c] with status := .busy, txIdx := n } ∧ s.ch[c].txIdx ≤ n ∧ n < s.ch[c].txLen ∧
          t.phy = s.phy ∧ lastRead c .tnf t.hist = some 0) ∨
        (t.ch[c] = { s.ch[c] with status := .idle, txIdx := 0 } ∧
          t.phy = s.phy.set c { s.phy[c] with imRor := 1, imRt := 1, imRx := 1, imTx := 1 }))

/-- 43_transfer R170: the receive drain, for PHY answers that are given (log entry 3). It appends the words read at `rx_idx`, oldest first, until
RNE reads 0 or the buffer is full; a full buffer reads neither RNE nor DR. -/
def Obligations.RxDrainStoresUntilEmptyOrFull : Prop :=
  ∀ (c : Chan) (s : State) (words ds : List Word), s.ch[c].rxBuf.length = s.params.rxCap →
    (s.ch[c].rxIdx + words.length < s.params.rxCap →
      s.draws = words.flatMap (fun w => [1, w]) ++ 0 :: ds →
      ∃ buf, rxDrain c s = { s with
          ch := s.ch.set c { s.ch[c] with rxBuf := buf, rxIdx := s.ch[c].rxIdx + words.length }
          hist := s.hist ++ words.flatMap (fun w => [.read c .rne 1, .read c .dr w]) ++ [.read c .rne 0]
          draws := ds } ∧
        (∀ j, j < words.length → slotAt buf (s.ch[c].rxIdx + j) = words[j]?) ∧
        (∀ j, j < s.ch[c].rxIdx ∨ s.ch[c].rxIdx + words.length ≤ j → slotAt buf j = slotAt s.ch[c].rxBuf j)) ∧
    (s.ch[c].rxIdx + words.length = s.params.rxCap → s.draws = words.flatMap (fun w => [1, w]) ++ ds →
      ∃ buf, rxDrain c s = { s with
          ch := s.ch.set c { s.ch[c] with rxBuf := buf, rxIdx := s.ch[c].rxIdx + words.length }
          hist := s.hist ++ words.flatMap (fun w => [.read c .rne 1, .read c .dr w])
          draws := ds } ∧
        (∀ j, j < words.length → slotAt buf (s.ch[c].rxIdx + j) = words[j]?) ∧
        (∀ j, j < s.ch[c].rxIdx → slotAt buf j = slotAt s.ch[c].rxBuf j))

/-! ### The interrupt entry -/

/-- 44_dispatch R180, R182, R183: under Filled, on a sound channel, IRQ_ENTRY completes for every MIS draw: one MIS read, then the
pending sources' branches in the order TX, RX, RT, ROR, all from that one draw, then OK. The faults of the
channel checks come first. -/
def Obligations.IrqEntryRunsThePendingBranches : Prop :=
  (∀ u : Chan, encodeWord (.irqEntry u) = 0x0000000A ||| (BitVec.ofNat 32 u.val <<< 4) ∧ ChecksFirst (.irqEntry u) u) ∧
  ∀ (u : Chan) (s : State), Accepts u s → s.params.isrMode = .filled → ChannelSound s.params s.ch[u] →
    ∃ m s0 s1 s2 s3 s4 : State, ∃ v : Word,
      v = legalDraw s.phy[u] .mis s.nextDraw ∧
      s0 = { s.popDraw with hist := s.hist ++ [.read u .mis v] } ∧
      (if v.getLsbD 3 = true then drain u s0 = .ok s1 else s1 = s0) ∧
      s2 = (if v.getLsbD 2 = true then rxDrain u s1 else s1) ∧
      s3 = (if v.getLsbD 1 = true then phyWrite u .icrRt 1 (rxDrain u s2) else s2) ∧
      s4 = (if v.getLsbD 0 = true then phyWrite u .icrRor 1 s3 else s3) ∧
      m = respond .irqEntry 0x00000000 [] s4 ∧
      exec (.irqEntry u) s = .next m

/-- 44_dispatch R180, R181: an entry with nothing pending, and every entry under Stub, does nothing but the MIS read. -/
def Obligations.IrqEntryIdleOrStubOnlyReadsMis : Prop :=
  ∀ (u : Chan) (s : State), Accepts u s →
    (legalDraw s.phy[u] .mis s.nextDraw = 0 ∨ s.params.isrMode = .stub) →
    exec (.irqEntry u) s = .next (respond .irqEntry 0x00000000 [] { s.popDraw with
      hist := s.hist ++ [.read u .mis (legalDraw s.phy[u] .mis s.nextDraw)] })

/-- 60_exceptions R207, R208: IRQ_ENTRY neither reads nor writes `seq`: with another `seq` it does the same, and keeps it. In
interrupt context it leaves the host's outstanding command alone (30_encoding R79), and its response leaves the context (log entry
6). -/
def Obligations.IrqEntryLeavesTheInterruptedTransfer : Prop :=
  ∀ (u : Chan) (s t : State), exec (.irqEntry u) s = .next t →
    t.seq = s.seq ∧
    (∀ q : Seq, exec (.irqEntry u) { s with seq := q } = .next { t with seq := q }) ∧
    (s.context = .interrupt → t.hostPending = s.hostPending) ∧
    (t.fault = none → t.context = .mainline)

/-- 10_state R37, 30_encoding R79, 60_exceptions R210: a response is one event; in mainline it ends the host's outstanding command, in
interrupt context it leaves that command and returns to mainline; it changes nothing else. The field context is the model's (log entry 6). -/
def Obligations.ResponseEndsItsCommand : Prop :=
  ∀ (op : Op) (r : PortWord) (data : List PortWord) (s : State),
    (s.context = .mainline →
      respond op r data s = { s with hist := s.hist ++ [.rsp op r data], hostPending := none }) ∧
    (s.context = .interrupt →
      respond op r data s = { s with hist := s.hist ++ [.rsp op r data], context := .mainline })

/-! ### The register interface -/

/-- 20_memory R56: a read returns a value of the field's width, a masked source is never seen as pending, every value those two
laws allow can be drawn, and the read appends its event and uses one answer of the PHY (log entry 3). -/
def Obligations.ReadsDrawExactlyTheLegalValues : Prop :=
  (∀ (p : Shadow) (f : Field) (raw : Word), (legalDraw p f raw).toNat < 2 ^ fieldWidth f) ∧
  (∀ (p : Shadow) (raw : Word),
    (p.imTx = 1 → (legalDraw p .mis raw).getLsbD 3 = false) ∧
    (p.imRx = 1 → (legalDraw p .mis raw).getLsbD 2 = false) ∧
    (p.imRt = 1 → (legalDraw p .mis raw).getLsbD 1 = false) ∧
    (p.imRor = 1 → (legalDraw p .mis raw).getLsbD 0 = false)) ∧
  (∀ (p : Shadow) (f : Field) (v : Word), v.toNat < 2 ^ fieldWidth f →
    (f = .mis → (p.imTx = 1 → v.getLsbD 3 = false) ∧ (p.imRx = 1 → v.getLsbD 2 = false) ∧
      (p.imRt = 1 → v.getLsbD 1 = false) ∧ (p.imRor = 1 → v.getLsbD 0 = false)) →
    ∃ raw, legalDraw p f raw = v) ∧
  (∀ (u : Chan) (f : Field) (s : State), phyRead u f s = { s.popDraw with
    hist := s.hist ++ [.read u f (legalDraw s.phy[u] f s.nextDraw)] })

/-- 10_state R35, 20_memory R54: a step only appends to the history, and every access it appends goes in a direction its field has,
with a value within the field's width. -/
def Obligations.StepsAppendLegalAccesses : Prop :=
  ∀ s t : State, step s = .next t → ∃ es, t.hist = s.hist ++ es ∧ ∀ e ∈ es, e.legal = true

/-- 10_state R32, R33: "the last value the block wrote to each PHY field" is what the shadows hold, an invariant of every step. -/
def Obligations.StepsKeepTheShadows : Prop :=
  ∀ s t : State, ShadowsMatch s → step s = .next t → ShadowsMatch t

/-- 70_reset_and_hazards R233: every configuration write comes while the unit is disabled, an invariant of every step; only INIT
writes a configuration field or SSE: no other command does, and a step that appends such a write, a micro-step of SYNC_TX
included, is exec of INIT. -/
def Obligations.ConfigWritesOnlyWhileDisabled : Prop :=
  (∀ s t : State, ConfigWritesSafe s.hist → step s = .next t → ConfigWritesSafe t.hist) ∧
  (∀ (i : Instr) (s t : State), i ≠ .init → exec i s = .next t →
    ∀ u f v, .write u f v ∈ newEvents s t → fieldConfig f = false ∧ f ≠ .sse) ∧
  (∀ s t : State, step s = .next t → (∀ s' : State, fetch s ≠ .command .init s') →
    ∀ u f v, .write u f v ∈ newEvents s t → fieldConfig f = false ∧ f ≠ .sse)

/-! ### The whole machine -/

/-- 10_state R22 to R28, R33, 41_irq_control R121, 60_exceptions R215, 95_test_vectors V1 to V3: the invariant of the machine is kept
by every step, of every agent, whatever the environment supplies. The context is the model's field (log entry 6). -/
def Obligations.StepsKeepTheMachineSound : Prop :=
  ∀ s t : State, Sound s → step s = .next t → Sound t

/-- The invariants hold at reset, for every choice of the parameters (10_state R38). The context at reset is the model's choice (log
entry 9). -/
def Obligations.ResetIsSound : Prop :=
  Sound State.reset ∧ ∀ p : Params, Sound (State.resetWith p) ∧ ShadowsMatch (State.resetWith p) ∧
    ConfigWritesSafe (State.resetWith p).hist

/-- 10_state R38, 70_reset_and_hazards R230: the reset values the spec gives. -/
def Obligations.ResetValues : Prop :=
  State.reset.inited = false ∧ State.reset.seq = .ready ∧ State.reset.hist = [] ∧ State.reset.fault = none ∧
  State.reset.hostPending = none ∧
  (∀ c : Chan, State.reset.ch[c].status = .idle ∧ State.reset.ch[c].txLen = 0 ∧ State.reset.ch[c].txIdx = 0 ∧
    State.reset.ch[c].rxIdx = 0 ∧ (∀ i, slotAt State.reset.ch[c].txBuf i = none) ∧
    (∀ i, slotAt State.reset.ch[c].rxBuf i = none)) ∧
  (∀ u : Chan, State.reset.phy[u] =
    { sse := none, ms := none, lbm := none, eot := none, cs := none, cpsdvsr := none, scr := none, sph := none, spo := none,
      frf := none, dss := none, imTx := 1, imRx := 1, imRt := 1, imRor := 1 })

/-- 70_reset_and_hazards R231: after reset the block waits for a command: with none on the port, any number of steps, whoever's turn
each is, leaves the reset state but for the count of turns. The empty port at reset is the model's choice (log entries 4, 8, 9). -/
def Obligations.ResetMachineWaits : Prop :=
  ∀ k : Nat, Sys2Proof.core.run k State.reset = .next { State.reset with nTurns := k }

/-- 00_scope R10, 20_memory R64: nothing changes the parameters or what a later command means. That they are a field of the state is the model's
form (log entry 1). -/
def Obligations.ParametersNeverChange : Prop :=
  (∀ s t : State, step s = .next t → t.params = s.params) ∧
  (∀ (i : Instr) (s t : State), exec i s = .next t → t.params = s.params)

/-- 10_state R24, R39: which command writes which field. A field a command may not write keeps its value, in every channel and
unit, and so do the fields outside the records. -/
def Obligations.CommandsWriteOnlyTheirFields : Prop :=
  ∀ (i : Instr) (s t : State), exec i s = .next t →
    (∀ c : Chan,
      (t.ch[c].status = s.ch[c].status ∨ (i = .init ∧ t.ch[c].status = .idle) ∨
        (i = .syncTx c ∧ t.ch[c].status = .busy) ∨ i = .txDrain c ∨ i = .irqEntry c) ∧
      (t.ch[c].txBuf = s.ch[c].txBuf ∨ ∃ words, i = .writeIb c words) ∧
      (t.ch[c].txLen = s.ch[c].txLen ∨ ∃ words, i = .writeIb c words ∧ t.ch[c].txLen = words.length) ∧
      (t.ch[c].txIdx = s.ch[c].txIdx ∨ (∃ words, i = .writeIb c words ∧ t.ch[c].txIdx = 0) ∨
        (i = .asyncTx c ∧ t.ch[c].txIdx = s.ch[c].txIdx + 1) ∨ (i = .syncTx c ∧ t.ch[c].txIdx = 0) ∨
        i = .txDrain c ∨ i = .irqEntry c) ∧
      (t.ch[c].rxBuf = s.ch[c].rxBuf ∨ i = .irqEntry c) ∧
      (∀ j, j < s.ch[c].rxIdx → slotAt t.ch[c].rxBuf j = slotAt s.ch[c].rxBuf j) ∧
      (t.ch[c].rxIdx = s.ch[c].rxIdx ∨ (i = .readIb c ∧ t.ch[c].rxIdx = 0) ∨
        (i = .irqEntry c ∧ s.ch[c].rxIdx ≤ t.ch[c].rxIdx))) ∧
    (∀ u : Chan,
      (i ≠ .init → t.phy[u] = { s.phy[u] with
        imTx := t.phy[u].imTx, imRx := t.phy[u].imRx, imRt := t.phy[u].imRt, imRor := t.phy[u].imRor }) ∧
      ((t.phy[u].imTx = s.phy[u].imTx ∧ t.phy[u].imRx = s.phy[u].imRx ∧ t.phy[u].imRt = s.phy[u].imRt ∧
          t.phy[u].imRor = s.phy[u].imRor) ∨
        i = .enableIrq u ∨ i = .disableIrq u ∨ i = .txDrain u ∨ i = .irqEntry u)) ∧
    (t.seq = s.seq ∨ ∃ c, i = .syncTx c) ∧ (t.inited = s.inited ∨ i = .init) ∧
    t.cmdIn = s.cmdIn ∧ t.dataIn = s.dataIn ∧ t.turns = s.turns ∧ t.nTurns = s.nTurns ∧
    ((t.draws = s.draws ∧ t.nDraws = s.nDraws) ∨ ∃ c, i = .txDrain c ∨ i = .irqEntry c)

/-- 10_state R22, 60_exceptions R213: a command on channel `c` leaves the record, the shadows and the register interface of every
other channel alone. -/
def Obligations.CommandsLeaveOtherChannels : Prop :=
  ∀ (i : Instr) (c d : Chan) (s t : State), i.chan? = some c → d ≠ c → exec i s = .next t →
    t.ch[d] = s.ch[d] ∧ t.phy[d] = s.phy[d] ∧ ∀ e ∈ newEvents s t, e.unit? ≠ some d

/-- 10_state R22: "No command on channel `c` reads or writes the record of another channel": with another channel's record and shadows
replaced by anything, a command does the same, and leaves them as they were replaced. -/
def Obligations.CommandsDoNotSeeOtherChannels : Prop :=
  ∀ (i : Instr) (c d : Chan) (s t : State) (x : Channel) (p : Shadow), i.chan? = some c → d ≠ c →
    exec i s = .next t →
    exec i { s with ch := s.ch.set d x, phy := s.phy.set d p } =
      .next { t with ch := t.ch.set d x, phy := t.phy.set d p }

/-- 95_test_vectors V5 (43_transfer R151, R160, R165): every DR write of a step sends a word that stood in a transmit slot below
`tx_len` when the step began. -/
def Obligations.OnlyLoadedWordsAreSent : Prop :=
  ∀ (s t : State) (c : Chan) (w : Word), step s = .next t → .write c .dr w ∈ newEvents s t →
    ∃ i, i < s.ch[c].txLen ∧ slotAt s.ch[c].txBuf i = some w

/-- 30_encoding R70: a command that does not fault is answered by exactly one response, its last event and its own, except the issue
step of a SYNC_TX, which gives none yet (43_transfer R150). -/
def Obligations.CommandsAnswerOnce : Prop :=
  ∀ (i : Instr) (s t : State), exec i s = .next t → t.fault = none →
    (∃ es r data, newEvents s t = es ++ [.rsp (opOf i) r data] ∧ ∀ e ∈ es, e.isAccess = true) ∨
    (∃ c, i = .syncTx c ∧ newEvents s t = [] ∧ t.seq = .syncTx c 0 .write 0)

/-- 60_exceptions R202: a command that raises a fault gives no response and leaves the state of its start, but for the fault record;
the code of each fault. -/
def Obligations.FaultsKeepTheStartState : Prop :=
  (∀ (i : Instr) (s t : State) (f : Fault), exec i s = .next t → t.fault = some f → t = { s with fault := some f }) ∧
  (∀ w, faultCode (.notInitialized w) = 16) ∧ (∀ c, faultCode (.unconfiguredChannel c) = 17) ∧
  (∀ c, faultCode (.configRange c) = 18) ∧ (∀ c i n, faultCode (.cursorOverrun c i n) = 19) ∧
  (∀ c b n, faultCode (.unwrittenRead c b n) = 20) ∧ (∀ c, faultCode (.unboundedCopy c) = 21)

/-- 60_exceptions R200 codes 1 to 4, R206; 95_test_vectors V8: at its first step, a command that meets the condition of one of the
failure codes 1 to 4 answers 0x00000001 and changes nothing else, with no access of the PHY; one that meets none of them gives no
response with FAIL at that step. Code 5, the timeout of a SYNC_TX, comes in a later micro-step, after accesses of the PHY and with
changes of its own: SyncTxWaitsForBusy states it. -/
def Obligations.FailuresOnlyAnswer : Prop :=
  ∀ (i : Instr) (c : Chan) (s : State), i.chan? = some c → Accepts c s →
    (∀ f, failureOf i s = some f → exec i s = .next (respond (opOf i) 0x00000001 [] s)) ∧
    (failureOf i s = none → ∀ t op r data, exec i s = .next t → .rsp op r data ∈ newEvents s t →
      r.getLsbD 0 = false)

/-- 70_reset_and_hazards R246: once a run is ended and every source is masked, a step of any agent leaves every channel record, every
shadow and the parameters as they are, and the run ended: no later IRQ_ENTRY can change the result. -/
def Obligations.EndedMaskedRunsAreStable : Prop :=
  ∀ s t : State, Ended s → AllMasked s → s.context = .mainline → step s = .next t →
    t.ch = s.ch ∧ t.phy = s.phy ∧ t.params = s.params ∧ t.inited = s.inited ∧ Ended t ∧ t.context = .mainline

/-- 30_encoding R81: the pseudo-instruction SEND, from a host that has its two commands on the ports, with a PHY that is never busy:
the two commands, then one Write and one Wait micro-step per word and the completion. Every word is sent once, in order, both
commands answer OK, and the channel is Idle with the words loaded and the cursor at 0. The given ports, turns and answers are the
model's form (log entries 3, 4 and 7). -/
def Obligations.SendPseudoSendsTheWords : Prop :=
  ∀ (s : State) (c : Chan) (words : List Word) (cmds din : List PortWord) (ts : List Turn) (ds : List Word),
    Accepts c s → s.seq = .ready → s.hostPending = none → s.ch[c].status = .idle →
    words.length ≤ s.params.txCap → words.length ≤ 255 → s.params.syncTimeout = none →
    s.cmdIn = (expandPseudo (.send c words)).map encodeWord ++ cmds →
    s.dataIn = (expandPseudo (.send c words)).flatMap encodePayload ++ din →
    s.turns = .host :: .host :: List.replicate (2 * words.length + 1) .sequencer ++ ts →
    s.draws = List.replicate words.length 0 ++ ds →
    ∃ t, Sys2Proof.core.run (2 * words.length + 3) s = .next t ∧
      t.hist = s.hist ++ [.rsp .writeIb 0x00000000 []] ++
        words.flatMap (fun w => [.write c .dr w, .read c .bsy 0]) ++ [.rsp .syncTx 0x00000000 []] ∧
      t.ch[c].status = .idle ∧ t.ch[c].txIdx = 0 ∧ t.ch[c].txLen = words.length ∧
      (∀ j, j < words.length → slotAt t.ch[c].txBuf j = words[j]?) ∧
      t.seq = .ready ∧ t.hostPending = none ∧ t.fault = none ∧ t.cmdIn = cmds ∧ t.dataIn = din ∧
      t.turns = ts ∧ t.draws = ds
end

