-- ==== Sys2Proof/Laws/State.lean ====
section
/-! SUPPORT. One lemma per field of State per update: what the update makes of the field. With them no proof unfolds a
record update. -/

namespace Sys2Proof.Machine

/-! ### setCh -/

@[simp] theorem setCh_params (c : Chan) (x : Channel) (s : State) :
    (s.setCh c x).params = s.params := rfl

@[simp] theorem setCh_inited (c : Chan) (x : Channel) (s : State) :
    (s.setCh c x).inited = s.inited := rfl

@[simp] theorem setCh_seq (c : Chan) (x : Channel) (s : State) :
    (s.setCh c x).seq = s.seq := rfl

@[simp] theorem setCh_ch (c : Chan) (x : Channel) (s : State) :
    (s.setCh c x).ch = s.ch.set c x := rfl

@[simp] theorem setCh_phy (c : Chan) (x : Channel) (s : State) :
    (s.setCh c x).phy = s.phy := rfl

@[simp] theorem setCh_hist (c : Chan) (x : Channel) (s : State) :
    (s.setCh c x).hist = s.hist := rfl

@[simp] theorem setCh_fault (c : Chan) (x : Channel) (s : State) :
    (s.setCh c x).fault = s.fault := rfl

@[simp] theorem setCh_hostPending (c : Chan) (x : Channel) (s : State) :
    (s.setCh c x).hostPending = s.hostPending := rfl

@[simp] theorem setCh_context (c : Chan) (x : Channel) (s : State) :
    (s.setCh c x).context = s.context := rfl

@[simp] theorem setCh_cmdIn (c : Chan) (x : Channel) (s : State) :
    (s.setCh c x).cmdIn = s.cmdIn := rfl

@[simp] theorem setCh_dataIn (c : Chan) (x : Channel) (s : State) :
    (s.setCh c x).dataIn = s.dataIn := rfl

@[simp] theorem setCh_turns (c : Chan) (x : Channel) (s : State) :
    (s.setCh c x).turns = s.turns := rfl

@[simp] theorem setCh_draws (c : Chan) (x : Channel) (s : State) :
    (s.setCh c x).draws = s.draws := rfl

@[simp] theorem setCh_nTurns (c : Chan) (x : Channel) (s : State) :
    (s.setCh c x).nTurns = s.nTurns := rfl

@[simp] theorem setCh_nDraws (c : Chan) (x : Channel) (s : State) :
    (s.setCh c x).nDraws = s.nDraws := rfl

/-! ### setPhy -/

@[simp] theorem setPhy_params (u : Chan) (p : Shadow) (s : State) :
    (s.setPhy u p).params = s.params := rfl

@[simp] theorem setPhy_inited (u : Chan) (p : Shadow) (s : State) :
    (s.setPhy u p).inited = s.inited := rfl

@[simp] theorem setPhy_seq (u : Chan) (p : Shadow) (s : State) :
    (s.setPhy u p).seq = s.seq := rfl

@[simp] theorem setPhy_ch (u : Chan) (p : Shadow) (s : State) :
    (s.setPhy u p).ch = s.ch := rfl

@[simp] theorem setPhy_phy (u : Chan) (p : Shadow) (s : State) :
    (s.setPhy u p).phy = s.phy.set u p := rfl

@[simp] theorem setPhy_hist (u : Chan) (p : Shadow) (s : State) :
    (s.setPhy u p).hist = s.hist := rfl

@[simp] theorem setPhy_fault (u : Chan) (p : Shadow) (s : State) :
    (s.setPhy u p).fault = s.fault := rfl

@[simp] theorem setPhy_hostPending (u : Chan) (p : Shadow) (s : State) :
    (s.setPhy u p).hostPending = s.hostPending := rfl

@[simp] theorem setPhy_context (u : Chan) (p : Shadow) (s : State) :
    (s.setPhy u p).context = s.context := rfl

@[simp] theorem setPhy_cmdIn (u : Chan) (p : Shadow) (s : State) :
    (s.setPhy u p).cmdIn = s.cmdIn := rfl

@[simp] theorem setPhy_dataIn (u : Chan) (p : Shadow) (s : State) :
    (s.setPhy u p).dataIn = s.dataIn := rfl

@[simp] theorem setPhy_turns (u : Chan) (p : Shadow) (s : State) :
    (s.setPhy u p).turns = s.turns := rfl

@[simp] theorem setPhy_draws (u : Chan) (p : Shadow) (s : State) :
    (s.setPhy u p).draws = s.draws := rfl

@[simp] theorem setPhy_nTurns (u : Chan) (p : Shadow) (s : State) :
    (s.setPhy u p).nTurns = s.nTurns := rfl

@[simp] theorem setPhy_nDraws (u : Chan) (p : Shadow) (s : State) :
    (s.setPhy u p).nDraws = s.nDraws := rfl

/-! ### record -/

@[simp] theorem record_params (e : Event) (s : State) :
    (s.record e).params = s.params := rfl

@[simp] theorem record_inited (e : Event) (s : State) :
    (s.record e).inited = s.inited := rfl

@[simp] theorem record_seq (e : Event) (s : State) :
    (s.record e).seq = s.seq := rfl

@[simp] theorem record_ch (e : Event) (s : State) :
    (s.record e).ch = s.ch := rfl

@[simp] theorem record_phy (e : Event) (s : State) :
    (s.record e).phy = s.phy := rfl

@[simp] theorem record_hist (e : Event) (s : State) :
    (s.record e).hist = s.hist ++ [e] := rfl

@[simp] theorem record_fault (e : Event) (s : State) :
    (s.record e).fault = s.fault := rfl

@[simp] theorem record_hostPending (e : Event) (s : State) :
    (s.record e).hostPending = s.hostPending := rfl

@[simp] theorem record_context (e : Event) (s : State) :
    (s.record e).context = s.context := rfl

@[simp] theorem record_cmdIn (e : Event) (s : State) :
    (s.record e).cmdIn = s.cmdIn := rfl

@[simp] theorem record_dataIn (e : Event) (s : State) :
    (s.record e).dataIn = s.dataIn := rfl

@[simp] theorem record_turns (e : Event) (s : State) :
    (s.record e).turns = s.turns := rfl

@[simp] theorem record_draws (e : Event) (s : State) :
    (s.record e).draws = s.draws := rfl

@[simp] theorem record_nTurns (e : Event) (s : State) :
    (s.record e).nTurns = s.nTurns := rfl

@[simp] theorem record_nDraws (e : Event) (s : State) :
    (s.record e).nDraws = s.nDraws := rfl

/-! ### setSeq -/

@[simp] theorem setSeq_params (q : Seq) (s : State) :
    (s.setSeq q).params = s.params := rfl

@[simp] theorem setSeq_inited (q : Seq) (s : State) :
    (s.setSeq q).inited = s.inited := rfl

@[simp] theorem setSeq_seq (q : Seq) (s : State) :
    (s.setSeq q).seq = q := rfl

@[simp] theorem setSeq_ch (q : Seq) (s : State) :
    (s.setSeq q).ch = s.ch := rfl

@[simp] theorem setSeq_phy (q : Seq) (s : State) :
    (s.setSeq q).phy = s.phy := rfl

@[simp] theorem setSeq_hist (q : Seq) (s : State) :
    (s.setSeq q).hist = s.hist := rfl

@[simp] theorem setSeq_fault (q : Seq) (s : State) :
    (s.setSeq q).fault = s.fault := rfl

@[simp] theorem setSeq_hostPending (q : Seq) (s : State) :
    (s.setSeq q).hostPending = s.hostPending := rfl

@[simp] theorem setSeq_context (q : Seq) (s : State) :
    (s.setSeq q).context = s.context := rfl

@[simp] theorem setSeq_cmdIn (q : Seq) (s : State) :
    (s.setSeq q).cmdIn = s.cmdIn := rfl

@[simp] theorem setSeq_dataIn (q : Seq) (s : State) :
    (s.setSeq q).dataIn = s.dataIn := rfl

@[simp] theorem setSeq_turns (q : Seq) (s : State) :
    (s.setSeq q).turns = s.turns := rfl

@[simp] theorem setSeq_draws (q : Seq) (s : State) :
    (s.setSeq q).draws = s.draws := rfl

@[simp] theorem setSeq_nTurns (q : Seq) (s : State) :
    (s.setSeq q).nTurns = s.nTurns := rfl

@[simp] theorem setSeq_nDraws (q : Seq) (s : State) :
    (s.setSeq q).nDraws = s.nDraws := rfl

/-! ### setInited -/

@[simp] theorem setInited_params (s : State) :
    (s.setInited).params = s.params := rfl

@[simp] theorem setInited_inited (s : State) :
    (s.setInited).inited = true := rfl

@[simp] theorem setInited_seq (s : State) :
    (s.setInited).seq = s.seq := rfl

@[simp] theorem setInited_ch (s : State) :
    (s.setInited).ch = s.ch := rfl

@[simp] theorem setInited_phy (s : State) :
    (s.setInited).phy = s.phy := rfl

@[simp] theorem setInited_hist (s : State) :
    (s.setInited).hist = s.hist := rfl

@[simp] theorem setInited_fault (s : State) :
    (s.setInited).fault = s.fault := rfl

@[simp] theorem setInited_hostPending (s : State) :
    (s.setInited).hostPending = s.hostPending := rfl

@[simp] theorem setInited_context (s : State) :
    (s.setInited).context = s.context := rfl

@[simp] theorem setInited_cmdIn (s : State) :
    (s.setInited).cmdIn = s.cmdIn := rfl

@[simp] theorem setInited_dataIn (s : State) :
    (s.setInited).dataIn = s.dataIn := rfl

@[simp] theorem setInited_turns (s : State) :
    (s.setInited).turns = s.turns := rfl

@[simp] theorem setInited_draws (s : State) :
    (s.setInited).draws = s.draws := rfl

@[simp] theorem setInited_nTurns (s : State) :
    (s.setInited).nTurns = s.nTurns := rfl

@[simp] theorem setInited_nDraws (s : State) :
    (s.setInited).nDraws = s.nDraws := rfl

/-! ### enterMainline -/

@[simp] theorem enterMainline_params (s : State) :
    (s.enterMainline).params = s.params := rfl

@[simp] theorem enterMainline_inited (s : State) :
    (s.enterMainline).inited = s.inited := rfl

@[simp] theorem enterMainline_seq (s : State) :
    (s.enterMainline).seq = s.seq := rfl

@[simp] theorem enterMainline_ch (s : State) :
    (s.enterMainline).ch = s.ch := rfl

@[simp] theorem enterMainline_phy (s : State) :
    (s.enterMainline).phy = s.phy := rfl

@[simp] theorem enterMainline_hist (s : State) :
    (s.enterMainline).hist = s.hist := rfl

@[simp] theorem enterMainline_fault (s : State) :
    (s.enterMainline).fault = s.fault := rfl

@[simp] theorem enterMainline_hostPending (s : State) :
    (s.enterMainline).hostPending = s.hostPending := rfl

@[simp] theorem enterMainline_context (s : State) :
    (s.enterMainline).context = .mainline := rfl

@[simp] theorem enterMainline_cmdIn (s : State) :
    (s.enterMainline).cmdIn = s.cmdIn := rfl

@[simp] theorem enterMainline_dataIn (s : State) :
    (s.enterMainline).dataIn = s.dataIn := rfl

@[simp] theorem enterMainline_turns (s : State) :
    (s.enterMainline).turns = s.turns := rfl

@[simp] theorem enterMainline_draws (s : State) :
    (s.enterMainline).draws = s.draws := rfl

@[simp] theorem enterMainline_nTurns (s : State) :
    (s.enterMainline).nTurns = s.nTurns := rfl

@[simp] theorem enterMainline_nDraws (s : State) :
    (s.enterMainline).nDraws = s.nDraws := rfl

/-! ### enterInterrupt -/

@[simp] theorem enterInterrupt_params (s : State) :
    (enterInterrupt s).params = s.params := rfl

@[simp] theorem enterInterrupt_inited (s : State) :
    (enterInterrupt s).inited = s.inited := rfl

@[simp] theorem enterInterrupt_seq (s : State) :
    (enterInterrupt s).seq = s.seq := rfl

@[simp] theorem enterInterrupt_ch (s : State) :
    (enterInterrupt s).ch = s.ch := rfl

@[simp] theorem enterInterrupt_phy (s : State) :
    (enterInterrupt s).phy = s.phy := rfl

@[simp] theorem enterInterrupt_hist (s : State) :
    (enterInterrupt s).hist = s.hist := rfl

@[simp] theorem enterInterrupt_fault (s : State) :
    (enterInterrupt s).fault = s.fault := rfl

@[simp] theorem enterInterrupt_hostPending (s : State) :
    (enterInterrupt s).hostPending = s.hostPending := rfl

@[simp] theorem enterInterrupt_context (s : State) :
    (enterInterrupt s).context = .interrupt := rfl

@[simp] theorem enterInterrupt_cmdIn (s : State) :
    (enterInterrupt s).cmdIn = s.cmdIn := rfl

@[simp] theorem enterInterrupt_dataIn (s : State) :
    (enterInterrupt s).dataIn = s.dataIn := rfl

@[simp] theorem enterInterrupt_turns (s : State) :
    (enterInterrupt s).turns = s.turns := rfl

@[simp] theorem enterInterrupt_draws (s : State) :
    (enterInterrupt s).draws = s.draws := rfl

@[simp] theorem enterInterrupt_nTurns (s : State) :
    (enterInterrupt s).nTurns = s.nTurns := rfl

@[simp] theorem enterInterrupt_nDraws (s : State) :
    (enterInterrupt s).nDraws = s.nDraws := rfl

/-! ### raise -/

@[simp] theorem raise_params (f : Fault) (s : State) :
    (s.raise f).params = s.params := rfl

@[simp] theorem raise_inited (f : Fault) (s : State) :
    (s.raise f).inited = s.inited := rfl

@[simp] theorem raise_seq (f : Fault) (s : State) :
    (s.raise f).seq = s.seq := rfl

@[simp] theorem raise_ch (f : Fault) (s : State) :
    (s.raise f).ch = s.ch := rfl

@[simp] theorem raise_phy (f : Fault) (s : State) :
    (s.raise f).phy = s.phy := rfl

@[simp] theorem raise_hist (f : Fault) (s : State) :
    (s.raise f).hist = s.hist := rfl

@[simp] theorem raise_fault (f : Fault) (s : State) :
    (s.raise f).fault = some f := rfl

@[simp] theorem raise_hostPending (f : Fault) (s : State) :
    (s.raise f).hostPending = s.hostPending := rfl

@[simp] theorem raise_context (f : Fault) (s : State) :
    (s.raise f).context = s.context := rfl

@[simp] theorem raise_cmdIn (f : Fault) (s : State) :
    (s.raise f).cmdIn = s.cmdIn := rfl

@[simp] theorem raise_dataIn (f : Fault) (s : State) :
    (s.raise f).dataIn = s.dataIn := rfl

@[simp] theorem raise_turns (f : Fault) (s : State) :
    (s.raise f).turns = s.turns := rfl

@[simp] theorem raise_draws (f : Fault) (s : State) :
    (s.raise f).draws = s.draws := rfl

@[simp] theorem raise_nTurns (f : Fault) (s : State) :
    (s.raise f).nTurns = s.nTurns := rfl

@[simp] theorem raise_nDraws (f : Fault) (s : State) :
    (s.raise f).nDraws = s.nDraws := rfl

/-! ### popDraw -/

@[simp] theorem popDraw_params (s : State) :
    (s.popDraw).params = s.params := by
  unfold State.popDraw; split <;> rfl

@[simp] theorem popDraw_inited (s : State) :
    (s.popDraw).inited = s.inited := by
  unfold State.popDraw; split <;> rfl

@[simp] theorem popDraw_seq (s : State) :
    (s.popDraw).seq = s.seq := by
  unfold State.popDraw; split <;> rfl

@[simp] theorem popDraw_ch (s : State) :
    (s.popDraw).ch = s.ch := by
  unfold State.popDraw; split <;> rfl

@[simp] theorem popDraw_phy (s : State) :
    (s.popDraw).phy = s.phy := by
  unfold State.popDraw; split <;> rfl

@[simp] theorem popDraw_hist (s : State) :
    (s.popDraw).hist = s.hist := by
  unfold State.popDraw; split <;> rfl

@[simp] theorem popDraw_fault (s : State) :
    (s.popDraw).fault = s.fault := by
  unfold State.popDraw; split <;> rfl

@[simp] theorem popDraw_hostPending (s : State) :
    (s.popDraw).hostPending = s.hostPending := by
  unfold State.popDraw; split <;> rfl

@[simp] theorem popDraw_context (s : State) :
    (s.popDraw).context = s.context := by
  unfold State.popDraw; split <;> rfl

@[simp] theorem popDraw_cmdIn (s : State) :
    (s.popDraw).cmdIn = s.cmdIn := by
  unfold State.popDraw; split <;> rfl

@[simp] theorem popDraw_dataIn (s : State) :
    (s.popDraw).dataIn = s.dataIn := by
  unfold State.popDraw; split <;> rfl

@[simp] theorem popDraw_turns (s : State) :
    (s.popDraw).turns = s.turns := by
  unfold State.popDraw; split <;> rfl

@[simp] theorem popDraw_nTurns (s : State) :
    (s.popDraw).nTurns = s.nTurns := by
  unfold State.popDraw; split <;> rfl

@[simp] theorem popDraw_draws (s : State) : s.popDraw.draws = s.draws.tail := by
  unfold State.popDraw; split <;> simp [*]

@[simp] theorem popDraw_nDraws (s : State) :
    s.popDraw.nDraws = if s.draws = [] then s.nDraws + 1 else s.nDraws := by
  unfold State.popDraw; split <;> simp [*]

/-! ### popTurn -/

@[simp] theorem popTurn_params (s : State) :
    (s.popTurn).params = s.params := by
  unfold State.popTurn; split <;> rfl

@[simp] theorem popTurn_inited (s : State) :
    (s.popTurn).inited = s.inited := by
  unfold State.popTurn; split <;> rfl

@[simp] theorem popTurn_seq (s : State) :
    (s.popTurn).seq = s.seq := by
  unfold State.popTurn; split <;> rfl

@[simp] theorem popTurn_ch (s : State) :
    (s.popTurn).ch = s.ch := by
  unfold State.popTurn; split <;> rfl

@[simp] theorem popTurn_phy (s : State) :
    (s.popTurn).phy = s.phy := by
  unfold State.popTurn; split <;> rfl

@[simp] theorem popTurn_hist (s : State) :
    (s.popTurn).hist = s.hist := by
  unfold State.popTurn; split <;> rfl

@[simp] theorem popTurn_fault (s : State) :
    (s.popTurn).fault = s.fault := by
  unfold State.popTurn; split <;> rfl

@[simp] theorem popTurn_hostPending (s : State) :
    (s.popTurn).hostPending = s.hostPending := by
  unfold State.popTurn; split <;> rfl

@[simp] theorem popTurn_context (s : State) :
    (s.popTurn).context = s.context := by
  unfold State.popTurn; split <;> rfl

@[simp] theorem popTurn_cmdIn (s : State) :
    (s.popTurn).cmdIn = s.cmdIn := by
  unfold State.popTurn; split <;> rfl

@[simp] theorem popTurn_dataIn (s : State) :
    (s.popTurn).dataIn = s.dataIn := by
  unfold State.popTurn; split <;> rfl

@[simp] theorem popTurn_draws (s : State) :
    (s.popTurn).draws = s.draws := by
  unfold State.popTurn; split <;> rfl

@[simp] theorem popTurn_nDraws (s : State) :
    (s.popTurn).nDraws = s.nDraws := by
  unfold State.popTurn; split <;> rfl

@[simp] theorem popTurn_turns (s : State) : s.popTurn.turns = s.turns.tail := by
  unfold State.popTurn; split <;> simp [*]

@[simp] theorem popTurn_nTurns (s : State) :
    s.popTurn.nTurns = if s.turns = [] then s.nTurns + 1 else s.nTurns := by
  unfold State.popTurn; split <;> simp [*]

/-! ### phyWrite -/

@[simp] theorem phyWrite_params (u : Chan) (f : Field) (v : Word) (s : State) :
    (phyWrite u f v s).params = s.params := rfl

@[simp] theorem phyWrite_inited (u : Chan) (f : Field) (v : Word) (s : State) :
    (phyWrite u f v s).inited = s.inited := rfl

@[simp] theorem phyWrite_seq (u : Chan) (f : Field) (v : Word) (s : State) :
    (phyWrite u f v s).seq = s.seq := rfl

@[simp] theorem phyWrite_ch (u : Chan) (f : Field) (v : Word) (s : State) :
    (phyWrite u f v s).ch = s.ch := rfl

@[simp] theorem phyWrite_phy (u : Chan) (f : Field) (v : Word) (s : State) :
    (phyWrite u f v s).phy = s.phy.set u (shadowWrite f v s.phy[u]) := rfl

@[simp] theorem phyWrite_hist (u : Chan) (f : Field) (v : Word) (s : State) :
    (phyWrite u f v s).hist = s.hist ++ [.write u f v] := rfl

@[simp] theorem phyWrite_fault (u : Chan) (f : Field) (v : Word) (s : State) :
    (phyWrite u f v s).fault = s.fault := rfl

@[simp] theorem phyWrite_hostPending (u : Chan) (f : Field) (v : Word) (s : State) :
    (phyWrite u f v s).hostPending = s.hostPending := rfl

@[simp] theorem phyWrite_context (u : Chan) (f : Field) (v : Word) (s : State) :
    (phyWrite u f v s).context = s.context := rfl

@[simp] theorem phyWrite_cmdIn (u : Chan) (f : Field) (v : Word) (s : State) :
    (phyWrite u f v s).cmdIn = s.cmdIn := rfl

@[simp] theorem phyWrite_dataIn (u : Chan) (f : Field) (v : Word) (s : State) :
    (phyWrite u f v s).dataIn = s.dataIn := rfl

@[simp] theorem phyWrite_turns (u : Chan) (f : Field) (v : Word) (s : State) :
    (phyWrite u f v s).turns = s.turns := rfl

@[simp] theorem phyWrite_draws (u : Chan) (f : Field) (v : Word) (s : State) :
    (phyWrite u f v s).draws = s.draws := rfl

@[simp] theorem phyWrite_nTurns (u : Chan) (f : Field) (v : Word) (s : State) :
    (phyWrite u f v s).nTurns = s.nTurns := rfl

@[simp] theorem phyWrite_nDraws (u : Chan) (f : Field) (v : Word) (s : State) :
    (phyWrite u f v s).nDraws = s.nDraws := rfl

/-! ### phyRead -/

@[simp] theorem phyRead_params (u : Chan) (f : Field) (s : State) :
    (phyRead u f s).params = s.params := by simp [phyRead]

@[simp] theorem phyRead_inited (u : Chan) (f : Field) (s : State) :
    (phyRead u f s).inited = s.inited := by simp [phyRead]

@[simp] theorem phyRead_seq (u : Chan) (f : Field) (s : State) :
    (phyRead u f s).seq = s.seq := by simp [phyRead]

@[simp] theorem phyRead_ch (u : Chan) (f : Field) (s : State) :
    (phyRead u f s).ch = s.ch := by simp [phyRead]

@[simp] theorem phyRead_phy (u : Chan) (f : Field) (s : State) :
    (phyRead u f s).phy = s.phy := by simp [phyRead]

@[simp] theorem phyRead_hist (u : Chan) (f : Field) (s : State) :
    (phyRead u f s).hist = s.hist ++ [.read u f (phyReadValue u f s)] := by simp [phyRead]

@[simp] theorem phyRead_fault (u : Chan) (f : Field) (s : State) :
    (phyRead u f s).fault = s.fault := by simp [phyRead]

@[simp] theorem phyRead_hostPending (u : Chan) (f : Field) (s : State) :
    (phyRead u f s).hostPending = s.hostPending := by simp [phyRead]

@[simp] theorem phyRead_context (u : Chan) (f : Field) (s : State) :
    (phyRead u f s).context = s.context := by simp [phyRead]

@[simp] theorem phyRead_cmdIn (u : Chan) (f : Field) (s : State) :
    (phyRead u f s).cmdIn = s.cmdIn := by simp [phyRead]

@[simp] theorem phyRead_dataIn (u : Chan) (f : Field) (s : State) :
    (phyRead u f s).dataIn = s.dataIn := by simp [phyRead]

@[simp] theorem phyRead_turns (u : Chan) (f : Field) (s : State) :
    (phyRead u f s).turns = s.turns := by simp [phyRead]

@[simp] theorem phyRead_draws (u : Chan) (f : Field) (s : State) :
    (phyRead u f s).draws = s.draws.tail := by simp [phyRead]

@[simp] theorem phyRead_nTurns (u : Chan) (f : Field) (s : State) :
    (phyRead u f s).nTurns = s.nTurns := by simp [phyRead]

@[simp] theorem phyRead_nDraws (u : Chan) (f : Field) (s : State) :
    (phyRead u f s).nDraws = if s.draws = [] then s.nDraws + 1 else s.nDraws := by simp [phyRead]

/-! ### setStatus -/

@[simp] theorem setStatus_params (c : Chan) (st : Status) (s : State) :
    (setStatus c st s).params = s.params := rfl

@[simp] theorem setStatus_inited (c : Chan) (st : Status) (s : State) :
    (setStatus c st s).inited = s.inited := rfl

@[simp] theorem setStatus_seq (c : Chan) (st : Status) (s : State) :
    (setStatus c st s).seq = s.seq := rfl

@[simp] theorem setStatus_ch (c : Chan) (st : Status) (s : State) :
    (setStatus c st s).ch = s.ch.set c { s.ch[c] with status := st } := rfl

@[simp] theorem setStatus_phy (c : Chan) (st : Status) (s : State) :
    (setStatus c st s).phy = s.phy := rfl

@[simp] theorem setStatus_hist (c : Chan) (st : Status) (s : State) :
    (setStatus c st s).hist = s.hist := rfl

@[simp] theorem setStatus_fault (c : Chan) (st : Status) (s : State) :
    (setStatus c st s).fault = s.fault := rfl

@[simp] theorem setStatus_hostPending (c : Chan) (st : Status) (s : State) :
    (setStatus c st s).hostPending = s.hostPending := rfl

@[simp] theorem setStatus_context (c : Chan) (st : Status) (s : State) :
    (setStatus c st s).context = s.context := rfl

@[simp] theorem setStatus_cmdIn (c : Chan) (st : Status) (s : State) :
    (setStatus c st s).cmdIn = s.cmdIn := rfl

@[simp] theorem setStatus_dataIn (c : Chan) (st : Status) (s : State) :
    (setStatus c st s).dataIn = s.dataIn := rfl

@[simp] theorem setStatus_turns (c : Chan) (st : Status) (s : State) :
    (setStatus c st s).turns = s.turns := rfl

@[simp] theorem setStatus_draws (c : Chan) (st : Status) (s : State) :
    (setStatus c st s).draws = s.draws := rfl

@[simp] theorem setStatus_nTurns (c : Chan) (st : Status) (s : State) :
    (setStatus c st s).nTurns = s.nTurns := rfl

@[simp] theorem setStatus_nDraws (c : Chan) (st : Status) (s : State) :
    (setStatus c st s).nDraws = s.nDraws := rfl

/-! ### setTxIdx -/

@[simp] theorem setTxIdx_params (c : Chan) (i : Nat) (s : State) :
    (setTxIdx c i s).params = s.params := rfl

@[simp] theorem setTxIdx_inited (c : Chan) (i : Nat) (s : State) :
    (setTxIdx c i s).inited = s.inited := rfl

@[simp] theorem setTxIdx_seq (c : Chan) (i : Nat) (s : State) :
    (setTxIdx c i s).seq = s.seq := rfl

@[simp] theorem setTxIdx_ch (c : Chan) (i : Nat) (s : State) :
    (setTxIdx c i s).ch = s.ch.set c { s.ch[c] with txIdx := i } := rfl

@[simp] theorem setTxIdx_phy (c : Chan) (i : Nat) (s : State) :
    (setTxIdx c i s).phy = s.phy := rfl

@[simp] theorem setTxIdx_hist (c : Chan) (i : Nat) (s : State) :
    (setTxIdx c i s).hist = s.hist := rfl

@[simp] theorem setTxIdx_fault (c : Chan) (i : Nat) (s : State) :
    (setTxIdx c i s).fault = s.fault := rfl

@[simp] theorem setTxIdx_hostPending (c : Chan) (i : Nat) (s : State) :
    (setTxIdx c i s).hostPending = s.hostPending := rfl

@[simp] theorem setTxIdx_context (c : Chan) (i : Nat) (s : State) :
    (setTxIdx c i s).context = s.context := rfl

@[simp] theorem setTxIdx_cmdIn (c : Chan) (i : Nat) (s : State) :
    (setTxIdx c i s).cmdIn = s.cmdIn := rfl

@[simp] theorem setTxIdx_dataIn (c : Chan) (i : Nat) (s : State) :
    (setTxIdx c i s).dataIn = s.dataIn := rfl

@[simp] theorem setTxIdx_turns (c : Chan) (i : Nat) (s : State) :
    (setTxIdx c i s).turns = s.turns := rfl

@[simp] theorem setTxIdx_draws (c : Chan) (i : Nat) (s : State) :
    (setTxIdx c i s).draws = s.draws := rfl

@[simp] theorem setTxIdx_nTurns (c : Chan) (i : Nat) (s : State) :
    (setTxIdx c i s).nTurns = s.nTurns := rfl

@[simp] theorem setTxIdx_nDraws (c : Chan) (i : Nat) (s : State) :
    (setTxIdx c i s).nDraws = s.nDraws := rfl

/-! ### setRxIdx -/

@[simp] theorem setRxIdx_params (c : Chan) (i : Nat) (s : State) :
    (setRxIdx c i s).params = s.params := rfl

@[simp] theorem setRxIdx_inited (c : Chan) (i : Nat) (s : State) :
    (setRxIdx c i s).inited = s.inited := rfl

@[simp] theorem setRxIdx_seq (c : Chan) (i : Nat) (s : State) :
    (setRxIdx c i s).seq = s.seq := rfl

@[simp] theorem setRxIdx_ch (c : Chan) (i : Nat) (s : State) :
    (setRxIdx c i s).ch = s.ch.set c { s.ch[c] with rxIdx := i } := rfl

@[simp] theorem setRxIdx_phy (c : Chan) (i : Nat) (s : State) :
    (setRxIdx c i s).phy = s.phy := rfl

@[simp] theorem setRxIdx_hist (c : Chan) (i : Nat) (s : State) :
    (setRxIdx c i s).hist = s.hist := rfl

@[simp] theorem setRxIdx_fault (c : Chan) (i : Nat) (s : State) :
    (setRxIdx c i s).fault = s.fault := rfl

@[simp] theorem setRxIdx_hostPending (c : Chan) (i : Nat) (s : State) :
    (setRxIdx c i s).hostPending = s.hostPending := rfl

@[simp] theorem setRxIdx_context (c : Chan) (i : Nat) (s : State) :
    (setRxIdx c i s).context = s.context := rfl

@[simp] theorem setRxIdx_cmdIn (c : Chan) (i : Nat) (s : State) :
    (setRxIdx c i s).cmdIn = s.cmdIn := rfl

@[simp] theorem setRxIdx_dataIn (c : Chan) (i : Nat) (s : State) :
    (setRxIdx c i s).dataIn = s.dataIn := rfl

@[simp] theorem setRxIdx_turns (c : Chan) (i : Nat) (s : State) :
    (setRxIdx c i s).turns = s.turns := rfl

@[simp] theorem setRxIdx_draws (c : Chan) (i : Nat) (s : State) :
    (setRxIdx c i s).draws = s.draws := rfl

@[simp] theorem setRxIdx_nTurns (c : Chan) (i : Nat) (s : State) :
    (setRxIdx c i s).nTurns = s.nTurns := rfl

@[simp] theorem setRxIdx_nDraws (c : Chan) (i : Nat) (s : State) :
    (setRxIdx c i s).nDraws = s.nDraws := rfl

/-! ### storeRx -/

@[simp] theorem storeRx_params (c : Chan) (w : Word) (s : State) :
    (storeRx c w s).params = s.params := rfl

@[simp] theorem storeRx_inited (c : Chan) (w : Word) (s : State) :
    (storeRx c w s).inited = s.inited := rfl

@[simp] theorem storeRx_seq (c : Chan) (w : Word) (s : State) :
    (storeRx c w s).seq = s.seq := rfl

@[simp] theorem storeRx_ch (c : Chan) (w : Word) (s : State) :
    (storeRx c w s).ch = s.ch.set c { s.ch[c] with
      rxBuf := s.ch[c].rxBuf.set s.ch[c].rxIdx (some w), rxIdx := s.ch[c].rxIdx + 1 } := rfl

@[simp] theorem storeRx_phy (c : Chan) (w : Word) (s : State) :
    (storeRx c w s).phy = s.phy := rfl

@[simp] theorem storeRx_hist (c : Chan) (w : Word) (s : State) :
    (storeRx c w s).hist = s.hist := rfl

@[simp] theorem storeRx_fault (c : Chan) (w : Word) (s : State) :
    (storeRx c w s).fault = s.fault := rfl

@[simp] theorem storeRx_hostPending (c : Chan) (w : Word) (s : State) :
    (storeRx c w s).hostPending = s.hostPending := rfl

@[simp] theorem storeRx_context (c : Chan) (w : Word) (s : State) :
    (storeRx c w s).context = s.context := rfl

@[simp] theorem storeRx_cmdIn (c : Chan) (w : Word) (s : State) :
    (storeRx c w s).cmdIn = s.cmdIn := rfl

@[simp] theorem storeRx_dataIn (c : Chan) (w : Word) (s : State) :
    (storeRx c w s).dataIn = s.dataIn := rfl

@[simp] theorem storeRx_turns (c : Chan) (w : Word) (s : State) :
    (storeRx c w s).turns = s.turns := rfl

@[simp] theorem storeRx_draws (c : Chan) (w : Word) (s : State) :
    (storeRx c w s).draws = s.draws := rfl

@[simp] theorem storeRx_nTurns (c : Chan) (w : Word) (s : State) :
    (storeRx c w s).nTurns = s.nTurns := rfl

@[simp] theorem storeRx_nDraws (c : Chan) (w : Word) (s : State) :
    (storeRx c w s).nDraws = s.nDraws := rfl

/-! ### respond -/

@[simp] theorem respond_params (op : Op) (r : PortWord) (data : List PortWord) (s : State) :
    (respond op r data s).params = s.params := by
  unfold respond; split <;> simp_all

@[simp] theorem respond_inited (op : Op) (r : PortWord) (data : List PortWord) (s : State) :
    (respond op r data s).inited = s.inited := by
  unfold respond; split <;> simp_all

@[simp] theorem respond_seq (op : Op) (r : PortWord) (data : List PortWord) (s : State) :
    (respond op r data s).seq = s.seq := by
  unfold respond; split <;> simp_all

@[simp] theorem respond_ch (op : Op) (r : PortWord) (data : List PortWord) (s : State) :
    (respond op r data s).ch = s.ch := by
  unfold respond; split <;> simp_all

@[simp] theorem respond_phy (op : Op) (r : PortWord) (data : List PortWord) (s : State) :
    (respond op r data s).phy = s.phy := by
  unfold respond; split <;> simp_all

@[simp] theorem respond_hist (op : Op) (r : PortWord) (data : List PortWord) (s : State) :
    (respond op r data s).hist = s.hist ++ [.rsp op r data] := by
  unfold respond; split <;> simp_all

@[simp] theorem respond_fault (op : Op) (r : PortWord) (data : List PortWord) (s : State) :
    (respond op r data s).fault = s.fault := by
  unfold respond; split <;> simp_all

@[simp] theorem respond_hostPending (op : Op) (r : PortWord) (data : List PortWord) (s : State) :
    (respond op r data s).hostPending = if s.context = .mainline then none else s.hostPending := by
  unfold respond; split <;> simp_all

@[simp] theorem respond_context (op : Op) (r : PortWord) (data : List PortWord) (s : State) :
    (respond op r data s).context = .mainline := by
  unfold respond; split <;> simp_all

@[simp] theorem respond_cmdIn (op : Op) (r : PortWord) (data : List PortWord) (s : State) :
    (respond op r data s).cmdIn = s.cmdIn := by
  unfold respond; split <;> simp_all

@[simp] theorem respond_dataIn (op : Op) (r : PortWord) (data : List PortWord) (s : State) :
    (respond op r data s).dataIn = s.dataIn := by
  unfold respond; split <;> simp_all

@[simp] theorem respond_turns (op : Op) (r : PortWord) (data : List PortWord) (s : State) :
    (respond op r data s).turns = s.turns := by
  unfold respond; split <;> simp_all

@[simp] theorem respond_draws (op : Op) (r : PortWord) (data : List PortWord) (s : State) :
    (respond op r data s).draws = s.draws := by
  unfold respond; split <;> simp_all

@[simp] theorem respond_nTurns (op : Op) (r : PortWord) (data : List PortWord) (s : State) :
    (respond op r data s).nTurns = s.nTurns := by
  unfold respond; split <;> simp_all

@[simp] theorem respond_nDraws (op : Op) (r : PortWord) (data : List PortWord) (s : State) :
    (respond op r data s).nDraws = s.nDraws := by
  unfold respond; split <;> simp_all

end Sys2Proof.Machine
end

