-- ==== Sys2Proof/Laws/Ops.lean ====
section
/-! SUPPORT. What each shared operation can do, said once: the frame a command runs in, the accesses of the register
interface, and the sending of a word. -/

namespace Sys2Proof.Machine

/-! ### Four of a thing -/

theorem get_set_ne {α : Type} (v : Vector α 4) {c d : Chan} (x : α) (h : d ≠ c) : (v.set c x)[d] = v[d] := by
  have h' : c.val ≠ d.val := fun e => h (Fin.ext e.symm)
  simp [h']

theorem set_get {α : Type} (v : Vector α 4) (c : Chan) : v.set c v[c] = v := by
  ext i hi
  by_cases h : c.val = i
  · subst h; simp
  · simp

theorem set_set {α : Type} (v : Vector α 4) (c : Chan) (x y : α) : (v.set c x).set c y = v.set c y := by
  ext i hi
  simp only [Vector.getElem_set]
  split <;> rfl

theorem set_comm {α : Type} (v : Vector α 4) {c d : Chan} (x y : α) (h : d ≠ c) :
    (v.set c x).set d y = (v.set d y).set c x := by
  ext i hi
  simp only [Vector.getElem_set]
  split <;> split <;> first | rfl | skip
  exact absurd (Fin.ext (by omega)) h

/-! ### Response words -/

@[simp] theorem respOk_eq : respOk = 0x00000000 := by decide

@[simp] theorem respFail_eq : respFail = 0x00000001 := by decide

@[simp] theorem respIllegal_eq : respIllegal = 0x00000009 := by decide

theorem respStatus_eq (st : Status) : respStatus st = if st = .busy then 0x00000002 else 0x00000000 := by
  cases st <;> decide

theorem respLegal_eq (b : Bool) : respLegal b = if b = true then 0x00000004 else 0x00000000 := by
  cases b <;> decide

theorem respCount_eq (n : Nat) (h : n ≤ 255) : respCount n = BitVec.ofNat 32 (n * 256) := by
  have key : ∀ b : BitVec 8, formatR b 0 0 0 0 = BitVec.ofNat 32 (b.toNat * 256) := by decide +kernel
  have h2 := key (BitVec.ofNat 8 n)
  rw [BitVec.toNat_ofNat, Nat.mod_eq_of_lt (by omega)] at h2
  exact h2

/-! ### The environment's scripts -/

theorem nextDraw_cons {s : State} {w : Word} {ds : List Word} (h : s.draws = w :: ds) : s.nextDraw = w := by
  simp [State.nextDraw, h]

theorem popDraw_cons {s : State} {w : Word} {ds : List Word} (h : s.draws = w :: ds) :
    s.popDraw = { s with draws := ds } := by
  simp [State.popDraw, h]

theorem nextTurn_cons {s : State} {t : Turn} {ts : List Turn} (h : s.turns = t :: ts) : s.nextTurn = t := by
  simp [State.nextTurn, h]

theorem popTurn_cons {s : State} {t : Turn} {ts : List Turn} (h : s.turns = t :: ts) :
    s.popTurn = { s with turns := ts } := by
  simp [State.popTurn, h]

/-! ### The frame of a command -/

theorem runCommand_eq_next {s t : State} {r : Except Fault State} :
    runCommand s r = .next t ↔ s.fault = none ∧ settle s r = t := by
  unfold runCommand
  split <;> simp_all

theorem runCommand_of_fault {s : State} {f : Fault} (h : s.fault = some f) (r : Except Fault State) :
    runCommand s r = .fault f := by
  simp [runCommand, h]

theorem runCommand_of_none {s : State} (h : s.fault = none) (r : Except Fault State) :
    runCommand s r = .next (settle s r) := by
  simp [runCommand, h]

@[simp] theorem settle_ok (s t : State) : settle s (.ok t) = t := rfl

@[simp] theorem settle_error (s : State) (f : Fault) : settle s (.error f) = s.raise f := rfl

/-- Past the first checks a command is its own body. -/
theorem withChannel_of_active {s : State} {c : Chan} {e : CfgEntry} (i : Instr) (body : CfgEntry → Except Fault State)
    (hi : s.inited = true) (he : s.params.cfg[c] = some e) : withChannel i c s body = body e := by
  simp only [Fin.getElem_fin] at he
  simp [withChannel, hi, he]

/-- What the first checks let through. -/
theorem withChannel_ok {s t : State} {c : Chan} {i : Instr} {body : CfgEntry → Except Fault State}
    (h : withChannel i c s body = .ok t) : s.inited = true ∧ ∃ e, s.params.cfg[c] = some e ∧ body e = .ok t := by
  unfold withChannel at h
  split at h
  · split at h
    · exact ⟨‹_›, _, ‹_›, h⟩
    · exact absurd h (by simp)
  · exact absurd h (by simp)

/-! ### Draws and reads -/

@[simp] theorem popTurn_nextDraw (s : State) : s.popTurn.nextDraw = s.nextDraw := by simp [State.nextDraw]

@[simp] theorem enterMainline_nextDraw (s : State) : s.enterMainline.nextDraw = s.nextDraw := by
  simp [State.nextDraw]

theorem phyReadValue_eq (u : Chan) (f : Field) (s : State) :
    phyReadValue u f s = legalDraw s.phy[u] f s.nextDraw := rfl

theorem phyRead_eq (u : Chan) (f : Field) (s : State) :
    phyRead u f s = { s.popDraw with hist := s.hist ++ [.read u f (legalDraw s.phy[u] f s.nextDraw)] } := by
  unfold phyRead State.record phyReadValue
  simp

/-- The value of a one-bit field is 0 or 1. -/
theorem legalDraw_bit (p : Shadow) (f : Field) (raw : Word) (hf : fieldWidth f = 1) (hm : f ≠ .mis) :
    legalDraw p f raw = if raw.getLsbD 0 then 1 else 0 := by
  have : legalDraw p f raw = (raw.setWidth 1).setWidth 16 := by cases f <;> simp_all [legalDraw, fieldWidth]
  have h1 : raw.setWidth 1 = BitVec.ofBool (raw.getLsbD 0) := by
    apply BitVec.eq_of_getLsbD_eq
    intro i hi
    obtain rfl : i = 0 := by omega
    simp
  rw [this, h1]
  cases raw.getLsbD 0 <;> rfl

theorem legalDraw_dr (p : Shadow) (raw : Word) : legalDraw p .dr raw = raw := by
  simp [legalDraw, fieldWidth]

theorem legalDraw_fits (p : Shadow) (f : Field) (raw : Word) : fitsField f (legalDraw p f raw) = true := by
  simp only [fitsField, decide_eq_true_eq]
  by_cases hm : f = .mis
  · subst hm
    simp only [legalDraw, fieldWidth, BitVec.toNat_setWidth]
    have := (raw.setWidth 4 &&& misVisible p).isLt
    omega
  · have : legalDraw p f raw = (raw.setWidth (fieldWidth f)).setWidth 16 := by cases f <;> simp_all [legalDraw]
    rw [this, BitVec.toNat_setWidth]
    exact lt_of_le_of_lt (Nat.mod_le _ _) (raw.setWidth (fieldWidth f)).isLt

/-! ### Writes in a row -/

@[simp] theorem phyWrites_nil (u : Chan) (s : State) : phyWrites u [] s = s := rfl

@[simp] theorem phyWrites_cons (u : Chan) (fv : Field × Word) (ws : List (Field × Word)) (s : State) :
    phyWrites u (fv :: ws) s = phyWrites u ws (phyWrite u fv.1 fv.2 s) := rfl

/-- Writes in a row make one state: their events, and the shadows they leave. -/
theorem phyWrites_eq (u : Chan) (ws : List (Field × Word)) (s : State) :
    phyWrites u ws s = { s with
      phy := s.phy.set u (ws.foldl (fun p fv => shadowWrite fv.1 fv.2 p) s.phy[u])
      hist := s.hist ++ ws.map (fun fv => .write u fv.1 fv.2) } := by
  induction ws generalizing s with
  | nil =>
    have := set_get s.phy u
    simp only [Fin.getElem_fin] at this
    simp [this]
  | cons fv ws ih =>
    rw [phyWrites_cons, ih]
    simp [phyWrite, State.setPhy, State.record]

/-- DisableAll: the four mask bits are set, by four writes in order. -/
theorem disableAll_eq (c : Chan) (s : State) : disableAll c s = { s with
    phy := s.phy.set c { s.phy[c] with imRor := 1, imRt := 1, imRx := 1, imTx := 1 }
    hist := s.hist ++ [.write c .imRor 1, .write c .imRt 1, .write c .imRx 1, .write c .imTx 1] } := by
  rw [disableAll, phyWrites_eq]
  simp [disableWrites, shadowWrite]

/-! ### Sending one word -/

/-- The two outcomes of sending a word. -/
theorem sendWord_of_written {c : Chan} {i : Nat} {s : State} {w : Word} (h : slotAt s.ch[c].txBuf i = some w) :
    sendWord c i s = .ok (setTxIdx c (i + 1) (phyWrite c .dr w s)) := by
  simp only [Fin.getElem_fin] at h
  simp [sendWord, h]

theorem sendWord_ok {c : Chan} {i : Nat} {s t : State} (h : sendWord c i s = .ok t) :
    ∃ w, slotAt s.ch[c].txBuf i = some w ∧ t = setTxIdx c (i + 1) (phyWrite c .dr w s) := by
  unfold sendWord at h
  split at h
  · exact absurd h (by simp)
  · exact ⟨_, ‹_›, by simpa using h.symm⟩

/-- A word sent is one write of DR and the cursor; the shadows do not change, as DR has none. -/
theorem sent_eq (c : Chan) (i : Nat) (w : Word) (s : State) : setTxIdx c i (phyWrite c .dr w s) = { s with
    ch := s.ch.set c { s.ch[c] with txIdx := i }
    hist := s.hist ++ [.write c .dr w] } := by
  have := set_get s.phy c
  simp only [Fin.getElem_fin] at this
  simp [setTxIdx, State.setCh, phyWrite, State.setPhy, State.record, shadowWrite, this]

end Sys2Proof.Machine
end

