-- ==== Sys2Proof/Laws/Step.lean ====
section
/-! SUPPORT. What a command and a step can do, said once: the cases of `exec` and of `step` when they answer a next state.
An invariant is proved from these cases, with no unfolding of the step. -/

namespace Sys2Proof.Machine

/-! ### A command -/

/-- What a command that responds has done before its response, from `s` to `m`. -/
def Effect : Instr → State → State → Prop
  | .init, s, m => initCheck s.params = none ∧ m = (allChans.foldl initChannel s).setInited
  | .enableIrq c, s, m => ∃ e, s.params.cfg[c] = some e ∧ m = phyWrites c (enableWrites e) s
  | .disableIrq c, s, m => m = disableAll c s
  | .getStatus _, s, m => m = s
  | .writeIb c words, s, m => m = s ∨ (words.length ≤ s.params.txCap ∧ m = s.setCh c (loadTx words s.ch[c]))
  | .readIb c, s, m => m = s ∨ m = setRxIdx c 0 s
  | .asyncTx c, s, m => m = s ∨ (s.ch[c].txIdx < s.ch[c].txLen ∧ sendWord c s.ch[c].txIdx s = .ok m)
  | .syncTx _, s, m => m = s
  | .txDrain c, s, m => drain c s = .ok m
  | .irqEntry u, s, m =>
    m = phyRead u .mis s ∨ irqBranches u (phyReadValue u .mis s) (phyRead u .mis s) = .ok m
  | .bitrateCalc _, s, m => m = s

/-- The state a SYNC_TX on an Idle channel leaves at its issue (43_transfer R150). -/
def issued (c : Chan) (s : State) : State := (setTxIdx c 0 (setStatus c .busy s)).setSeq (.syncTx c 0 .write 0)

/-- The three ends of a command: a fault raised, a response after the command's effect, or a SYNC_TX under way. -/
def Ran (i : Instr) (s t : State) : Prop :=
  (∃ f, t = s.raise f) ∨ (∃ m r data, Effect i s m ∧ t = respond (opOf i) r data m) ∨
    ∃ c, i = .syncTx c ∧ s.ch[c].status = .idle ∧ t = issued c s

theorem ran_of_settle {i : Instr} {s t : State} {r : Except Fault State} (h : settle s r = t)
    (k : ∀ m, r = .ok m → Ran i s m) : Ran i s t := by
  cases r with
  | ok m => exact h ▸ k m rfl
  | error f => exact .inl ⟨f, h.symm⟩

/-- What the first checks and the command's body leave to consider. -/
theorem ran_of_channel {i : Instr} {c : Chan} {s t : State} {body : CfgEntry → Except Fault State}
    (h : runCommand s (withChannel i c s body) = .next t)
    (k : ∀ e m, s.params.cfg[c] = some e → body e = .ok m → Ran i s m) :
    s.fault = none ∧ ((∃ f, t = s.raise f) ∨ (s.inited = true ∧ s.params.cfg[c].isSome = true ∧ Ran i s t)) := by
  obtain ⟨h1, h2⟩ := runCommand_eq_next.1 h
  refine ⟨h1, ?_⟩
  generalize hr : withChannel i c s body = r at h2
  cases r with
  | error f => exact .inl ⟨f, h2.symm⟩
  | ok m =>
    obtain ⟨hi, e, he, hb⟩ := withChannel_ok hr
    exact .inr ⟨hi, by simp [he], h2 ▸ k e m he hb⟩

theorem execInit_next {s t : State} (h : execInit s = .next t) : s.fault = none ∧ Ran .init s t := by
  obtain ⟨h1, h2⟩ := runCommand_eq_next.1 h
  refine ⟨h1, ran_of_settle h2 fun m hm => ?_⟩
  unfold initBody at hm
  split at hm
  · exact absurd hm (by simp)
  · exact .inr (.inl ⟨_, _, _, ⟨‹_›, rfl⟩, (Except.ok.inj hm).symm⟩)

theorem execBitrateCalc_next {rate : PortWord} {s t : State} (h : execBitrateCalc rate s = .next t) :
    s.fault = none ∧ Ran (.bitrateCalc rate) s t := by
  obtain ⟨h1, h2⟩ := runCommand_eq_next.1 h
  refine ⟨h1, ran_of_settle h2 fun m hm => ?_⟩
  unfold bitrateBody at hm
  split at hm
  · exact absurd hm (by simp)
  · exact .inr (.inl ⟨_, _, _, rfl, (Except.ok.inj hm).symm⟩)

theorem enableIrq_ran {c : Chan} {s m : State} {e : CfgEntry} (he : s.params.cfg[c] = some e)
    (h : (Except.ok (respond .enableIrq respOk [] (phyWrites c (enableWrites e) s)) : Except Fault State) = .ok m) :
    Ran (.enableIrq c) s m :=
  .inr (.inl ⟨_, _, _, ⟨e, he, rfl⟩, (Except.ok.inj h).symm⟩)

theorem writeIb_ran (c : Chan) (words : List Word) (s : State) : Ran (.writeIb c words) s (writeIbBody c words s) := by
  unfold writeIbBody
  split
  · exact .inr (.inl ⟨_, _, _, .inl rfl, rfl⟩)
  · split
    · exact .inr (.inl ⟨_, _, _, .inl rfl, rfl⟩)
    · exact .inr (.inl ⟨_, _, _, .inr ⟨by omega, rfl⟩, rfl⟩)

theorem readIb_ran {c : Chan} {s m : State} (h : readIbBody c s = .ok m) : Ran (.readIb c) s m := by
  unfold readIbBody at h
  split at h
  · exact .inr (.inl ⟨_, _, _, .inl rfl, (Except.ok.inj h).symm⟩)
  · split at h
    · exact absurd h (by simp)
    · split at h
      · exact absurd h (by simp)
      · exact .inr (.inl ⟨_, _, _, .inr rfl, (Except.ok.inj h).symm⟩)

theorem asyncTx_ran {c : Chan} {s m : State} (h : asyncBody c s = .ok m) : Ran (.asyncTx c) s m := by
  unfold asyncBody at h
  split at h
  · exact .inr (.inl ⟨_, _, _, .inl rfl, (Except.ok.inj h).symm⟩)
  · split at h
    · exact absurd h (by simp)
    · split at h
      · exact absurd h (by simp)
      · exact .inr (.inl ⟨_, _, _, .inr ⟨by omega, ‹_›⟩, (Except.ok.inj h).symm⟩)

theorem syncTx_ran (c : Chan) (s : State) : Ran (.syncTx c) s (syncIssue c s) := by
  unfold syncIssue
  split
  · exact .inr (.inr ⟨c, rfl, ‹_›, rfl⟩)
  · exact .inr (.inl ⟨_, _, _, rfl, rfl⟩)

theorem txDrain_ran {c : Chan} {s m : State} (h : txDrainBody c s = .ok m) : Ran (.txDrain c) s m := by
  unfold txDrainBody at h
  split at h
  · exact absurd h (by simp)
  · exact .inr (.inl ⟨_, _, _, ‹_›, (Except.ok.inj h).symm⟩)

theorem irqEntry_ran {u : Chan} {s m : State} (h : irqBody u s = .ok m) : Ran (.irqEntry u) s m := by
  unfold irqBody at h
  simp only at h
  split at h
  · exact .inr (.inl ⟨_, _, _, .inl rfl, (Except.ok.inj h).symm⟩)
  · split at h
    · exact absurd h (by simp)
    · exact .inr (.inl ⟨_, _, _, .inr ‹_›, (Except.ok.inj h).symm⟩)

/-- The cases of a command that answers a next state. A command that names a channel ends without a fault only when the
machine is initialized and the channel is active. -/
theorem exec_next {i : Instr} {s t : State} (h : exec i s = .next t) :
    s.fault = none ∧ ((∃ f, t = s.raise f) ∨
      ((∀ c, i.chan? = some c → s.inited = true ∧ s.params.cfg[c].isSome = true) ∧ Ran i s t)) := by
  have named : ∀ {c : Chan} {body : CfgEntry → Except Fault State}, i.chan? = some c →
      runCommand s (withChannel i c s body) = .next t →
      (∀ e m, s.params.cfg[c] = some e → body e = .ok m → Ran i s m) →
      s.fault = none ∧ ((∃ f, t = s.raise f) ∨
        ((∀ c, i.chan? = some c → s.inited = true ∧ s.params.cfg[c].isSome = true) ∧ Ran i s t)) := by
    intro c body hc h k
    obtain ⟨h1, h2 | ⟨h2, h3, h4⟩⟩ := ran_of_channel h k
    · exact ⟨h1, .inl h2⟩
    · exact ⟨h1, .inr ⟨fun d hd => by rw [hc, Option.some.injEq] at hd; subst hd; exact ⟨h2, h3⟩, h4⟩⟩
  cases i with
  | init => exact ⟨(execInit_next h).1, .inr ⟨fun c hc => absurd hc (by simp [Instr.chan?]), (execInit_next h).2⟩⟩
  | enableIrq c => exact named rfl h fun e m he hm => enableIrq_ran he hm
  | disableIrq c => exact named rfl h fun e m he hm => .inr (.inl ⟨_, _, _, rfl, (Except.ok.inj hm).symm⟩)
  | getStatus c => exact named rfl h fun e m he hm => .inr (.inl ⟨_, _, _, rfl, (Except.ok.inj hm).symm⟩)
  | writeIb c words => exact named rfl h fun e m he hm => Except.ok.inj hm ▸ writeIb_ran c words s
  | readIb c => exact named rfl h fun e m he hm => readIb_ran hm
  | asyncTx c => exact named rfl h fun e m he hm => asyncTx_ran hm
  | syncTx c => exact named rfl h fun e m he hm => Except.ok.inj hm ▸ syncTx_ran c s
  | txDrain c => exact named rfl h fun e m he hm => txDrain_ran hm
  | irqEntry u => exact named rfl h fun e m he hm => irqEntry_ran hm
  | bitrateCalc rate =>
    exact ⟨(execBitrateCalc_next h).1, .inr ⟨fun c hc => absurd hc (by simp [Instr.chan?]), (execBitrateCalc_next h).2⟩⟩

/-! ### A step -/

/-- The cases of a step that answers a next state: a hold; an illegal word answered; a host command; a dispatcher's entry; a
SYNC_TX's completion, word, or BSY read. -/
inductive Stepped (s t : State) : Prop where
  | hold (h : t = s.popTurn)
  | illegal (w : PortWord) (words : List PortWord) (hs : s.seq = .ready) (hp : s.hostPending = none)
      (hc : s.cmdIn = w :: words) (h : t = answerIllegal w (takeWord words s.dataIn s.popTurn))
  | host (i : Instr) (w : PortWord) (words rest : List PortWord) (hs : s.seq = .ready) (hp : s.hostPending = none)
      (hc : s.cmdIn = w :: words) (hd : decode w s.dataIn = .command i rest)
      (h : exec i (issue i (takeWord words rest s.popTurn)) = .next t)
  | dispatcher (u : Chan) (hi : s.inited = true) (hc : s.params.cfg[u].isSome = true)
      (h : exec (.irqEntry u) (enterInterrupt s.popTurn) = .next t)
  | completed (c : Chan) (i polls : Nat) (hs : s.seq = .syncTx c i .write polls) (hi : s.ch[c].txLen ≤ i)
      (h : t = syncEnd c respOk s.popTurn.enterMainline)
  | unwritten (c : Chan) (i polls : Nat) (hs : s.seq = .syncTx c i .write polls) (hi : i < s.ch[c].txLen)
      (hn : slotAt s.ch[c].txBuf i = none) (h : t = s.popTurn.raise (.unwrittenRead c .tx i))
  | wrote (c : Chan) (i polls : Nat) (m : State) (hs : s.seq = .syncTx c i .write polls) (hi : i < s.ch[c].txLen)
      (hm : sendWord c i s.popTurn.enterMainline = .ok m) (h : t = m.setSeq (.syncTx c i .wait 0))
  | waited (c : Chan) (i polls : Nat) (hs : s.seq = .syncTx c i .wait polls)
      (h : t = syncWait c i polls s.popTurn.enterMainline)

theorem microStep_stepped (s : State) : Stepped s (microStep s.popTurn) := by
  unfold microStep
  rw [popTurn_seq]
  split
  · exact .hold rfl
  · rename_i c i polls hs
    unfold syncWrite
    split
    · rename_i hi
      exact .completed c i polls hs (by simpa using hi) rfl
    · rename_i hi
      generalize hr : sendWord c i s.popTurn.enterMainline = r
      cases r with
      | ok m => exact .wrote c i polls m hs (by simpa using hi) hr rfl
      | error f =>
        unfold sendWord at hr
        split at hr
        · rename_i hn
          refine .unwritten c i polls hs (by simpa using hi) (by simpa using hn) ?_
          rw [← Except.error.inj hr]
          rfl
        · exact absurd hr (by simp)
  · exact .waited _ _ _ ‹_› rfl

theorem hostTurn_cases (s : State) :
    hostTurn s = .moved s ∨
    (∃ w words, s.seq = .ready ∧ s.hostPending = none ∧ s.cmdIn = w :: words ∧
      hostTurn s = .moved (answerIllegal w (takeWord words s.dataIn s))) ∨
    ∃ i w words rest, s.seq = .ready ∧ s.hostPending = none ∧ s.cmdIn = w :: words ∧
      decode w s.dataIn = .command i rest ∧ hostTurn s = .command i (issue i (takeWord words rest s)) := by
  unfold hostTurn
  split
  · rename_i hm
    simp only [hostMayIssue, Bool.and_eq_true, decide_eq_true_eq, Option.isNone_iff_eq_none] at hm
    split
    · exact .inl rfl
    · rename_i w words hc
      split
      · exact .inr (.inr ⟨_, w, words, _, hm.1, hm.2, hc, ‹_›, rfl⟩)
      · exact .inr (.inl ⟨w, words, hm.1, hm.2, hc, rfl⟩)
      · exact .inl rfl
  · exact .inl rfl

/-- The cases of a step. -/
theorem step_next {s t : State} (h : step s = .next t) : s.fault = none ∧ Stepped s t := by
  unfold step fetch at h
  cases hf : s.fault with
  | some f => rw [hf] at h; exact absurd h (by simp)
  | none =>
    rw [hf] at h
    refine ⟨rfl, ?_⟩
    cases ht : s.nextTurn with
    | host =>
      rw [ht] at h
      obtain hm | ⟨w, words, hs, hp, hc, hm⟩ | ⟨i, w, words, rest, hs, hp, hc, hd, hm⟩ := hostTurn_cases s.popTurn
      · rw [hm] at h
        exact .hold (Host.Outcome.next.inj h).symm
      · rw [hm] at h
        exact .illegal w words (by simpa using hs) (by simpa using hp) (by simpa using hc)
          (by simpa using (Host.Outcome.next.inj h).symm)
      · rw [hm] at h
        exact .host i w words rest (by simpa using hs) (by simpa using hp) (by simpa using hc) (by simpa using hd) h
    | dispatcher u =>
      rw [ht] at h
      simp only [dispatcherTurn] at h
      by_cases hm : dispatcherMayIssue u s.popTurn = true
      · rw [if_pos hm] at h
        simp only [dispatcherMayIssue, popTurn_inited, popTurn_params, Bool.and_eq_true] at hm
        exact .dispatcher u hm.1 hm.2 h
      · rw [if_neg hm] at h
        exact .hold (Host.Outcome.next.inj h).symm
    | sequencer =>
      rw [ht] at h
      exact Host.Outcome.next.inj h ▸ microStep_stepped s

/-! ### What the boundary brings -/

/-- A step that answers a next state runs the command the boundary brings, with the history untouched so far, or is a move that
runs none. -/
theorem step_fetch {s t : State} (h : step s = .next t) :
    (∃ i s', fetch s = .command i s' ∧ s'.hist = s.hist ∧ exec i s' = .next t) ∨ fetch s = .moved t := by
  unfold step at h
  cases hf : fetch s with
  | stopped f => rw [hf] at h; exact absurd h (by simp)
  | moved m =>
    rw [hf] at h
    exact .inr (by rw [Host.Outcome.next.inj h])
  | command i s' =>
    rw [hf] at h
    refine .inl ⟨i, s', rfl, ?_, h⟩
    unfold fetch at hf
    split at hf
    · exact absurd hf (by simp)
    · split at hf
      · obtain hm | ⟨w, words, -, -, -, hm⟩ | ⟨j, w, words, rest, -, -, -, -, hm⟩ := hostTurn_cases s.popTurn
        · rw [hm] at hf; exact absurd hf (by simp)
        · rw [hm] at hf; exact absurd hf (by simp)
        · rw [hm] at hf
          rw [← (Fetched.command.inj hf).2]
          simp [issue, takeWord]
      · unfold dispatcherTurn at hf
        split at hf
        · rw [← (Fetched.command.inj hf).2]
          simp
        · exact absurd hf (by simp)
      · exact absurd hf (by simp)

/-- The moves that run no command: a hold, the answer to an illegal word, and the sequencer's micro-step. -/
theorem fetch_moved {s t : State} (h : fetch s = .moved t) :
    t = s.popTurn ∨ (∃ w words, t = answerIllegal w (takeWord words s.dataIn s.popTurn)) ∨ t = microStep s.popTurn := by
  unfold fetch at h
  split at h
  · exact absurd h (by simp)
  · split at h
    · obtain hm | ⟨w, words, -, -, -, hm⟩ | ⟨i, w, words, rest, -, -, -, -, hm⟩ := hostTurn_cases s.popTurn
      · rw [hm] at h; exact .inl (Fetched.moved.inj h).symm
      · rw [hm] at h; exact .inr (.inl ⟨w, words, by simpa using (Fetched.moved.inj h).symm⟩)
      · rw [hm] at h; exact absurd h (by simp)
    · unfold dispatcherTurn at h
      split at h
      · exact absurd h (by simp)
      · exact .inl (Fetched.moved.inj h).symm
    · exact .inr (.inr (Fetched.moved.inj h).symm)

end Sys2Proof.Machine
end

