-- ==== Sys2Proof/Laws/Acts.lean ====
section
/-! SUPPORT. The relation `Acts c s t`: from `s` to `t` the block worked on channel `c` alone, by accesses of its unit and
updates of its record. Every procedure of a transfer is such work; what all of them share is proved here once, by one
induction. -/

namespace Sys2Proof.Machine

/-- A field the transfers write: DR, a mask bit or a clear, and no field of the configuration. -/
def transferField : Field → Bool
  | .dr | .imTx | .imRx | .imRt | .imRor | .icrRt | .icrRor => true
  | .sse | .ms | .lbm | .eot | .cs | .cpsdvsr | .scr | .sph | .spo | .frf | .dss | .bsy | .tnf | .rne | .mis => false

/-- The word stands in a transmit slot below `tx_len`. -/
def Loaded (c : Chan) (s : State) (w : Word) : Prop :=
  ∃ i, i < s.ch[c].txLen ∧ slotAt s.ch[c].txBuf i = some w

/-- From `s` the block worked on channel `c` alone: reads and writes of its unit, no configuration field written, every DR word
a loaded one, and updates of its record that keep what was loaded. -/
inductive Acts (c : Chan) (s : State) : State → Prop where
  | refl : Acts c s s
  | read {t : State} (h : Acts c s t) (f : Field) (hf : fieldReadable f = true) : Acts c s (phyRead c f t)
  | write {t : State} (h : Acts c s t) (f : Field) (v : Word) (hf : transferField f = true) (hv : fitsField f v = true)
      (hw : f = .dr → Loaded c s v) : Acts c s (phyWrite c f v t)
  | setCh {t : State} (h : Acts c s t) (x : Channel) (hb : x.txBuf = t.ch[c].txBuf) (hl : x.txLen = t.ch[c].txLen) :
      Acts c s (t.setCh c x)

/-- What such work leaves alone, and what it may append to the history. -/
structure Framed (c : Chan) (s t : State) : Prop where
  params : t.params = s.params
  inited : t.inited = s.inited
  seq : t.seq = s.seq
  fault : t.fault = s.fault
  hostPending : t.hostPending = s.hostPending
  context : t.context = s.context
  cmdIn : t.cmdIn = s.cmdIn
  dataIn : t.dataIn = s.dataIn
  turns : t.turns = s.turns
  nTurns : t.nTurns = s.nTurns
  ch : ∀ d, d ≠ c → t.ch[d] = s.ch[d]
  phy : ∀ d, d ≠ c → t.phy[d] = s.phy[d]
  config : t.phy[c] = { s.phy[c] with
    imTx := t.phy[c].imTx, imRx := t.phy[c].imRx, imRt := t.phy[c].imRt, imRor := t.phy[c].imRor }
  txBuf : t.ch[c].txBuf = s.ch[c].txBuf
  txLen : t.ch[c].txLen = s.ch[c].txLen
  hist : ∃ es, t.hist = s.hist ++ es ∧ ∀ e ∈ es, e.unit? = some c ∧ e.isAccess = true ∧ e.legal = true ∧
    ∀ f v, e = .write c f v → transferField f = true ∧ (f = .dr → Loaded c s v)

theorem transferField_writable {f : Field} (h : transferField f = true) : fieldWritable f = true := by
  cases f <;> simp_all [transferField, fieldWritable]

theorem shadowWrite_transfer {f : Field} (h : transferField f = true) (v : Word) (p : Shadow) :
    shadowWrite f v p = { p with
      imTx := (shadowWrite f v p).imTx, imRx := (shadowWrite f v p).imRx, imRt := (shadowWrite f v p).imRt,
      imRor := (shadowWrite f v p).imRor } := by
  cases f <;> simp_all [transferField, shadowWrite]

theorem Acts.framed {c : Chan} {s t : State} (h : Acts c s t) : Framed c s t := by
  induction h with
  | refl => exact ⟨rfl, rfl, rfl, rfl, rfl, rfl, rfl, rfl, rfl, rfl, fun _ _ => rfl, fun _ _ => rfl, rfl, rfl, rfl, [],
      by simp⟩
  | read _ f hf ih =>
    obtain ⟨es, h1, h2⟩ := ih.hist
    refine ⟨by simpa using ih.params, by simpa using ih.inited, by simpa using ih.seq, by simpa using ih.fault,
      by simpa using ih.hostPending, by simpa using ih.context, by simpa using ih.cmdIn, by simpa using ih.dataIn,
      by simpa using ih.turns, by simpa using ih.nTurns, by simpa using ih.ch, by simpa using ih.phy,
      by simpa using ih.config, by simpa using ih.txBuf, by simpa using ih.txLen, es ++ [_],
      by rw [phyRead_hist, h1, List.append_assoc], fun e he => ?_⟩
    rcases List.mem_append.1 he with he | he
    · exact h2 e he
    · rw [List.mem_singleton.1 he]
      exact ⟨rfl, rfl, by simp [Event.legal, hf, phyReadValue, legalDraw_fits], by simp⟩
  | write _ f v hf hv hw ih =>
    obtain ⟨es, h1, h2⟩ := ih.hist
    refine ⟨by simpa using ih.params, by simpa using ih.inited, by simpa using ih.seq, by simpa using ih.fault,
      by simpa using ih.hostPending, by simpa using ih.context, by simpa using ih.cmdIn, by simpa using ih.dataIn,
      by simpa using ih.turns, by simpa using ih.nTurns, by simpa using ih.ch,
      fun d hd => by rw [phyWrite_phy, get_set_ne _ _ hd, ih.phy d hd], ?_, by simpa using ih.txBuf, by simpa using ih.txLen,
      es ++ [_], by rw [phyWrite_hist, h1, List.append_assoc], fun e he => ?_⟩
    · have hc := ih.config
      simp only [phyWrite_phy, Fin.getElem_fin, Vector.getElem_set_self] at hc ⊢
      rw [shadowWrite_transfer hf, hc]
    · rcases List.mem_append.1 he with he | he
      · exact h2 e he
      · rw [List.mem_singleton.1 he]
        refine ⟨rfl, rfl, by simp [Event.legal, transferField_writable hf, hv], fun f' v' hh => ?_⟩
        obtain ⟨-, rfl, rfl⟩ := Event.write.inj hh
        exact ⟨hf, hw⟩
  | setCh _ x hb hl ih =>
    exact ⟨ih.params, ih.inited, ih.seq, ih.fault, ih.hostPending, ih.context, ih.cmdIn, ih.dataIn, ih.turns, ih.nTurns,
      fun d hd => by rw [setCh_ch, get_set_ne _ _ hd, ih.ch d hd], ih.phy, ih.config,
      by simpa [hb] using ih.txBuf, by simpa [hl] using ih.txLen, ih.hist⟩

theorem Acts.loaded {c : Chan} {s t : State} (h : Acts c s t) {w : Word} (k : Loaded c t w) : Loaded c s w := by
  obtain ⟨i, h1, h2⟩ := k
  exact ⟨i, h.framed.txLen ▸ h1, h.framed.txBuf ▸ h2⟩

theorem Acts.trans {c : Chan} {s t u : State} (h : Acts c s t) (k : Acts c t u) : Acts c s u := by
  induction k with
  | refl => exact h
  | read _ f hf ih => exact ih.read f hf
  | write _ f v hf hv hw ih => exact ih.write f v hf hv fun e => h.loaded (hw e)
  | setCh _ x hb hl ih => exact ih.setCh x hb hl

/-! ### The procedures -/

theorem setStatus_acts (c : Chan) (st : Status) (s : State) : Acts c s (setStatus c st s) := Acts.refl.setCh _ rfl rfl

theorem setTxIdx_acts (c : Chan) (i : Nat) (s : State) : Acts c s (setTxIdx c i s) := Acts.refl.setCh _ rfl rfl

theorem setRxIdx_acts (c : Chan) (i : Nat) (s : State) : Acts c s (setRxIdx c i s) := Acts.refl.setCh _ rfl rfl

theorem storeRx_acts (c : Chan) (w : Word) (s : State) : Acts c s (storeRx c w s) := Acts.refl.setCh _ rfl rfl

theorem phyWrites_acts (c : Chan) (ws : List (Field × Word)) (s : State)
    (h : ∀ fv ∈ ws, transferField fv.1 = true ∧ fv.1 ≠ .dr ∧ fitsField fv.1 fv.2 = true) : Acts c s (phyWrites c ws s) := by
  induction ws generalizing s with
  | nil => exact .refl
  | cons fv ws ih =>
    obtain ⟨h1, h2, h3⟩ := h fv (List.mem_cons_self ..)
    exact (Acts.refl.write fv.1 fv.2 h1 h3 fun e => absurd e h2).trans (ih _ fun x hx => h x (List.mem_cons_of_mem _ hx))

theorem disableAll_acts (c : Chan) (s : State) : Acts c s (disableAll c s) := phyWrites_acts c _ s (by decide)

theorem enableIrq_acts (c : Chan) (e : CfgEntry) (s : State) : Acts c s (phyWrites c (enableWrites e) s) := by
  have legal : ∀ fv ∈ [((.imRor, 0) : Field × Word), (.imRt, 0), (.imRx, 0), (.imTx, 0)],
      transferField fv.1 = true ∧ fv.1 ≠ .dr ∧ fitsField fv.1 fv.2 = true := by decide
  refine phyWrites_acts c _ s fun fv h => legal fv ?_
  unfold enableWrites at h
  simp only [List.mem_append] at h
  rcases h with ((h | h) | h) | h <;> split at h <;> simp_all

theorem sendWord_acts {c : Chan} {i : Nat} {s t : State} (hi : i < s.ch[c].txLen) (h : sendWord c i s = .ok t) :
    Acts c s t := by
  obtain ⟨w, hw, rfl⟩ := sendWord_ok h
  exact (Acts.refl.write .dr w rfl (decide_eq_true w.isLt) fun _ => ⟨i, hi, hw⟩).trans (setTxIdx_acts c _ _)

theorem drainComplete_acts (c : Chan) (s : State) : Acts c s (drainComplete c s) :=
  (disableAll_acts c s).trans ((setTxIdx_acts c 0 _).trans (setStatus_acts c .idle _))

theorem drainLoop_acts {c : Chan} {n : Nat} {s t : State} (hn : n ≤ s.ch[c].txLen - s.ch[c].txIdx)
    (h : drainLoop c n s = .ok t) : Acts c s t := by
  induction n generalizing s with
  | zero =>
    simp only [drainLoop, Except.ok.injEq] at h
    exact h ▸ drainComplete_acts c s
  | succ n ih =>
    simp only [drainLoop] at h
    split at h
    · exact Except.ok.inj h ▸ Acts.refl.read .tnf rfl
    · split at h
      · exact absurd h (by simp)
      · rename_i m hm
        have hr : Acts c s (phyRead c .tnf s) := Acts.refl.read .tnf rfl
        refine hr.trans ((sendWord_acts (by simp only [phyRead_ch]; omega) hm).trans (ih ?_ h))
        obtain ⟨w, -, rfl⟩ := sendWord_ok hm
        simp only [setTxIdx_ch, phyWrite_ch, phyRead_ch, Fin.getElem_fin, Vector.getElem_set_self] at hn ⊢
        omega

theorem drain_acts {c : Chan} {s t : State} (h : drain c s = .ok t) : Acts c s t := by
  refine (setStatus_acts c .busy s).trans (drainLoop_acts ?_ h)
  simp

theorem rxDrainLoop_acts (c : Chan) (n : Nat) (s : State) : Acts c s (rxDrainLoop c n s) := by
  induction n generalizing s with
  | zero => exact .refl
  | succ n ih =>
    simp only [rxDrainLoop]
    have hr : Acts c s (phyRead c .rne s) := Acts.refl.read .rne rfl
    split
    · exact hr
    · exact (hr.read .dr rfl).trans ((storeRx_acts c _ _).trans (ih _))

theorem rxDrain_acts (c : Chan) (s : State) : Acts c s (rxDrain c s) := rxDrainLoop_acts c _ s

theorem irqBranches_acts {u : Chan} {m : Word} {s t : State} (h : irqBranches u m s = .ok t) : Acts u s t := by
  unfold irqBranches at h
  split at h
  · exact absurd h (by simp)
  · rename_i x hx
    have h1 : Acts u s x := by
      unfold txBranch at hx
      split at hx
      · exact drain_acts hx
      · exact Except.ok.inj hx ▸ .refl
    have h2 : ∀ y, Acts u y (rxBranch u m y) := fun y => by
      unfold rxBranch
      split
      · exact rxDrain_acts u y
      · exact .refl
    have h3 : ∀ y, Acts u y (rtBranch u m y) := fun y => by
      unfold rtBranch
      split
      · exact (rxDrain_acts u y).write .icrRt 1 rfl rfl (by simp)
      · exact .refl
    have h4 : ∀ y, Acts u y (rorBranch u m y) := fun y => by
      unfold rorBranch
      split
      · exact Acts.refl.write .icrRor 1 rfl rfl (by simp)
      · exact .refl
    exact Except.ok.inj h ▸ h1.trans ((h2 x).trans ((h3 _).trans (h4 _)))

/-- The effect of a command on a channel is work on that channel, or the load of WRITE_IB. -/
theorem effect_acts {i : Instr} {c : Chan} {s m : State} (hc : i.chan? = some c) (h : Effect i s m) :
    Acts c s m ∨ ∃ words, i = .writeIb c words ∧ words.length ≤ s.params.txCap ∧ m = s.setCh c (loadTx words s.ch[c]) := by
  cases i <;> simp only [Instr.chan?, reduceCtorEq, Option.some.injEq] at hc
  all_goals subst hc
  case enableIrq =>
    obtain ⟨e, -, rfl⟩ := h
    exact .inl (enableIrq_acts _ e s)
  case disableIrq => exact .inl (h ▸ disableAll_acts _ s)
  case getStatus => exact .inl (h ▸ .refl)
  case writeIb =>
    obtain rfl | ⟨h1, rfl⟩ := h
    · exact .inl .refl
    · exact .inr ⟨_, rfl, h1, rfl⟩
  case readIb =>
    obtain rfl | rfl := h
    · exact .inl .refl
    · exact .inl (setRxIdx_acts _ 0 s)
  case asyncTx =>
    obtain rfl | ⟨h1, h2⟩ := h
    · exact .inl .refl
    · exact .inl (sendWord_acts h1 h2)
  case syncTx => exact .inl (h ▸ .refl)
  case txDrain => exact .inl (drain_acts h)
  case irqEntry =>
    have hr : ∀ u, Acts u s (phyRead u .mis s) := fun u => Acts.refl.read .mis rfl
    obtain rfl | h := h
    · exact .inl (hr _)
    · exact .inl ((hr _).trans (irqBranches_acts h))

end Sys2Proof.Machine
end

