-- ==== Sys2Proof/Laws/Drain.lean ====
section
/-! SUPPORT. What the two drains leave when they answer (43_transfer R165, R170), and the buffer slots under the updates of
WRITE_IB and of the receive drain. -/

namespace Sys2Proof.Machine

/-! ### Slots -/

theorem slotAt_set (buf : List (Option Word)) (i : Nat) (x : Option Word) (j : Nat) :
    slotAt (buf.set i x) j = if i = j ∧ i < buf.length then x else slotAt buf j := by
  unfold slotAt
  simp only [List.getD_eq_getElem?_getD, List.getElem?_set]
  by_cases h : i = j
  · subst h
    by_cases hl : i < buf.length
    · simp [hl]
    · simp [hl]
  · simp [h]

theorem slotAt_loadSlots (buf : List (Option Word)) (words : List Word) (j : Nat) :
    slotAt (loadSlots buf words) j = if j < words.length then words[j]? else slotAt buf j := by
  unfold slotAt loadSlots
  by_cases h : j < words.length
  · simp [h, List.getElem?_append]
  · simp [h, List.getElem?_append, Nat.not_lt.1 h]

theorem loadSlots_length (buf : List (Option Word)) (words : List Word) (h : words.length ≤ buf.length) :
    (loadSlots buf words).length = buf.length := by
  simp [loadSlots]
  omega

/-! ### The last read of a field -/

theorem lastRead_read (u : Chan) (f : Field) (v : Word) (h : List Event) :
    lastRead u f (h ++ [.read u f v]) = some v := by
  simp [lastRead, List.foldl_append]

theorem lastRead_read_ne {u d : Chan} {f g : Field} (v : Word) (h : List Event) (hne : d ≠ u ∨ g ≠ f) :
    lastRead u f (h ++ [.read d g v]) = lastRead u f h := by
  simp only [lastRead, List.foldl_append, List.foldl_cons, List.foldl_nil]
  rw [if_neg]
  rintro ⟨h1, h2⟩
  rcases hne with k | k
  · exact k h1
  · exact k h2

theorem lastRead_append {u : Chan} {f : Field} (h es : List Event)
    (hes : ∀ e ∈ es, ∀ v, e ≠ .read u f v) : lastRead u f (h ++ es) = lastRead u f h := by
  induction es generalizing h with
  | nil => simp
  | cons e es ih =>
    rw [← List.singleton_append, ← List.append_assoc, ih _ fun x hx => hes x (List.mem_cons_of_mem _ hx)]
    have he := hes e (List.mem_cons_self ..)
    cases e with
    | read d g v =>
      refine lastRead_read_ne v h ?_
      by_contra hc
      simp only [ne_eq, not_or, Decidable.not_not] at hc
      exact he v (by rw [hc.1, hc.2])
    | write d g v => simp [lastRead, List.foldl_append]
    | rsp o r d => simp [lastRead, List.foldl_append]

/-! ### The transmit drain -/

/-- The masks all set. -/
def masked (p : Shadow) : Shadow := { p with imRor := 1, imRt := 1, imRx := 1, imTx := 1 }

theorem disableAll_phy (c : Chan) (s : State) : (disableAll c s).phy = s.phy.set c (masked s.phy[c]) := by
  rw [disableAll_eq]
  rfl

theorem disableAll_ch (c : Chan) (s : State) : (disableAll c s).ch = s.ch := by rw [disableAll_eq]

/-- What the loop leaves: a partial drain or a complete one. -/
theorem drainLoop_ok {c : Chan} {n : Nat} {s t : State} (hn : n = s.ch[c].txLen - s.ch[c].txIdx)
    (h : drainLoop c n s = .ok t) :
    (∃ k, t.ch = s.ch.set c { s.ch[c] with txIdx := k } ∧ s.ch[c].txIdx ≤ k ∧ k < s.ch[c].txLen ∧ t.phy = s.phy ∧
      lastRead c .tnf t.hist = some 0) ∨
    (t.ch = s.ch.set c { s.ch[c] with status := .idle, txIdx := 0 } ∧ t.phy = s.phy.set c (masked s.phy[c])) := by
  induction n generalizing s with
  | zero =>
    simp only [drainLoop, Except.ok.injEq] at h
    subst h
    refine .inr ⟨?_, ?_⟩
    · simp only [drainComplete, setStatus_ch, setTxIdx_ch, disableAll_ch, Fin.getElem_fin, Vector.getElem_set_self]
      exact set_set s.ch c _ _
    · simp only [drainComplete, setStatus_phy, setTxIdx_phy, disableAll_phy]
  | succ n ih =>
    simp only [drainLoop] at h
    split at h
    · rename_i h0
      obtain rfl := Except.ok.inj h
      refine .inl ⟨s.ch[c].txIdx, ?_, le_rfl, by omega, by simp, ?_⟩
      · rw [phyRead_ch]
        exact (set_get s.ch c).symm
      · rw [phyRead_hist, lastRead_read, h0]
    · split at h
      · exact absurd h (by simp)
      · rename_i m hm
        obtain ⟨w, -, rfl⟩ := sendWord_ok hm
        rw [sent_eq] at h
        have hph : (phyRead c .tnf s).phy = s.phy := phyRead_phy ..
        obtain ⟨k, h1, h2, h3, h4, h5⟩ | ⟨h1, h2⟩ := ih (by simp only [Fin.getElem_fin, phyRead_ch, Vector.getElem_set_self] at hn ⊢; omega) h
        · refine .inl ⟨k, ?_, ?_, ?_, by rw [h4, hph], h5⟩
          · simpa using h1
          · have : s.ch[c].txIdx + 1 ≤ k := by simpa using h2
            omega
          · simpa using h3
        · refine .inr ⟨?_, by simpa using h2⟩
          simpa using h1

/-- What a drain leaves: Busy with words left and the masks alone, or Idle with the cursor at 0 and every source masked. -/
theorem drain_ok {c : Chan} {s t : State} (h : drain c s = .ok t) :
    (∃ k, t.ch = s.ch.set c { s.ch[c] with status := .busy, txIdx := k } ∧ s.ch[c].txIdx ≤ k ∧ k < s.ch[c].txLen ∧
      t.phy = s.phy ∧ lastRead c .tnf t.hist = some 0) ∨
    (t.ch = s.ch.set c { s.ch[c] with status := .idle, txIdx := 0 } ∧ t.phy = s.phy.set c (masked s.phy[c])) := by
  obtain ⟨k, h1, h2, h3, h4, h5⟩ | ⟨h1, h2⟩ := drainLoop_ok (by simp) h
  · exact .inl ⟨k, by simpa using h1, by simpa using h2, by simpa using h3, h4, h5⟩
  · exact .inr ⟨by simpa using h1, h2⟩

/-! ### The receive drain -/

/-- What the receive drain makes of a record: slots from the cursor up to a new cursor, all below capacity, are written. -/
structure Received (cap : Nat) (x y : Channel) : Prop where
  status : y.status = x.status
  txBuf : y.txBuf = x.txBuf
  txLen : y.txLen = x.txLen
  txIdx : y.txIdx = x.txIdx
  length : y.rxBuf.length = x.rxBuf.length
  le : x.rxIdx ≤ y.rxIdx
  le_cap : x.rxIdx ≤ cap → y.rxIdx ≤ cap
  kept : ∀ j, j < x.rxIdx → slotAt y.rxBuf j = slotAt x.rxBuf j
  written : x.rxBuf.length = cap → ∀ j, x.rxIdx ≤ j → j < y.rxIdx → (slotAt y.rxBuf j).isSome = true

theorem Received.refl (cap : Nat) (x : Channel) : Received cap x x :=
  ⟨rfl, rfl, rfl, rfl, rfl, le_rfl, id, fun _ _ => rfl, fun _ j h1 h2 => absurd h1 (by omega)⟩

theorem Received.trans {cap : Nat} {x y z : Channel} (h : Received cap x y) (k : Received cap y z) : Received cap x z where
  status := k.status.trans h.status
  txBuf := k.txBuf.trans h.txBuf
  txLen := k.txLen.trans h.txLen
  txIdx := k.txIdx.trans h.txIdx
  length := k.length.trans h.length
  le := h.le.trans k.le
  le_cap := k.le_cap ∘ h.le_cap
  kept := fun j hj => (k.kept j (lt_of_lt_of_le hj h.le)).trans (h.kept j hj)
  written := fun hl j h1 h2 => by
    by_cases hj : j < y.rxIdx
    · rw [k.kept j hj]
      exact h.written hl j h1 hj
    · exact k.written (h.length.trans hl) j (Nat.le_of_not_lt hj) h2

/-- One word stored below capacity. -/
theorem received_store {cap : Nat} {x : Channel} (w : Word) (h : x.rxIdx < cap) :
    Received cap x { x with rxBuf := x.rxBuf.set x.rxIdx (some w), rxIdx := x.rxIdx + 1 } where
  status := rfl
  txBuf := rfl
  txLen := rfl
  txIdx := rfl
  length := by simp
  le := Nat.le_succ _
  le_cap := fun _ => h
  kept := fun j hj => by
    rw [slotAt_set, if_neg]
    omega
  written := fun hl j h1 h2 => by
    obtain rfl : j = x.rxIdx := by
      have : j < x.rxIdx + 1 := h2
      omega
    rw [slotAt_set, if_pos ⟨rfl, by omega⟩]
    rfl

theorem rxDrainLoop_ok (c : Chan) (n : Nat) (s : State) (hn : n ≤ s.params.rxCap - s.ch[c].rxIdx) :
    (∃ y, (rxDrainLoop c n s).ch = s.ch.set c y ∧ Received s.params.rxCap s.ch[c] y) ∧
      (rxDrainLoop c n s).phy = s.phy := by
  have same : ∃ y, s.ch = s.ch.set c y ∧ Received s.params.rxCap s.ch[c] y :=
    ⟨s.ch[c], (set_get s.ch c).symm, .refl _ _⟩
  induction n generalizing s with
  | zero => exact ⟨same, rfl⟩
  | succ n ih =>
    simp only [rxDrainLoop]
    split
    · exact ⟨by rw [phyRead_ch]; exact same, phyRead_phy ..⟩
    · generalize hw : phyReadValue c .dr (phyRead c .rne s) = w
      obtain ⟨⟨y, h1, h2⟩, h3⟩ := ih (storeRx c w (phyRead c .dr (phyRead c .rne s)))
        (by simp at hn ⊢; omega) ⟨_, (set_get _ c).symm, .refl _ _⟩
      refine ⟨⟨y, ?_, ?_⟩, by simpa using h3⟩
      · rw [h1]
        simp
      · have hs : Received s.params.rxCap s.ch[c] _ := received_store w (by omega)
        refine hs.trans ?_
        simpa using h2

theorem rxDrain_ok (c : Chan) (s : State) :
    (∃ y, (rxDrain c s).ch = s.ch.set c y ∧ Received s.params.rxCap s.ch[c] y) ∧ (rxDrain c s).phy = s.phy :=
  rxDrainLoop_ok c _ s le_rfl

/-! ### The branches of an entry -/

theorem txBranch_ok {u : Chan} {m : Word} {s t : State} (h : txBranch u m s = .ok t) : t = s ∨ drain u s = .ok t := by
  unfold txBranch at h
  split at h
  · exact .inr h
  · exact .inl (Except.ok.inj h).symm

/-- The receive branches make of the record what receive drains make of it, and write no mask. -/
theorem rxBranches_ok (u : Chan) (m : Word) (s : State) :
    (∃ y, (rorBranch u m (rtBranch u m (rxBranch u m s))).ch = s.ch.set u y ∧ Received s.params.rxCap s.ch[u] y) ∧
      (rorBranch u m (rtBranch u m (rxBranch u m s))).phy = s.phy := by
  have nothing : ∀ t : State, ∃ y, t.ch = t.ch.set u y ∧ Received t.params.rxCap t.ch[u] y :=
    fun t => ⟨t.ch[u], (set_get t.ch u).symm, .refl _ _⟩
  have silent : ∀ (f : Field) (t : State), f = .icrRt ∨ f = .icrRor → (phyWrite u f 1 t).phy = t.phy := fun f t hf => by
    rw [phyWrite_phy]
    rcases hf with rfl | rfl <;> exact set_get t.phy u
  have rx : ∀ t, ((∃ y, (rxBranch u m t).ch = t.ch.set u y ∧ Received t.params.rxCap t.ch[u] y) ∧
      (rxBranch u m t).phy = t.phy) ∧ (rxBranch u m t).params = t.params := fun t => by
    unfold rxBranch
    split
    · exact ⟨rxDrain_ok u t, (rxDrain_acts u t).framed.params⟩
    · exact ⟨⟨nothing t, rfl⟩, rfl⟩
  have rt : ∀ t, (∃ y, (rtBranch u m t).ch = t.ch.set u y ∧ Received t.params.rxCap t.ch[u] y) ∧
      (rtBranch u m t).phy = t.phy := fun t => by
    unfold rtBranch
    split
    · rw [phyWrite_ch, silent _ _ (.inl rfl)]
      exact rxDrain_ok u t
    · exact ⟨nothing t, rfl⟩
  have ror : ∀ t, (rorBranch u m t).ch = t.ch ∧ (rorBranch u m t).phy = t.phy := fun t => by
    unfold rorBranch
    split
    · exact ⟨phyWrite_ch .., silent _ _ (.inr rfl)⟩
    · exact ⟨rfl, rfl⟩
  obtain ⟨⟨⟨y, h1, h2⟩, h3⟩, h4⟩ := rx s
  obtain ⟨⟨z, k1, k2⟩, k3⟩ := rt (rxBranch u m s)
  rw [(ror _).1, (ror _).2, k3, h3]
  refine ⟨⟨z, ?_, ?_⟩, rfl⟩
  · rw [k1, h1]
    exact set_set s.ch u y z
  · rw [h4] at k2
    refine h2.trans ?_
    simpa only [h1, Fin.getElem_fin, Vector.getElem_set_self] using k2

theorem irqBranches_ok {u : Chan} {m : Word} {s t : State} (h : irqBranches u m s = .ok t) :
    ∃ x, (x = s ∨ drain u s = .ok x) ∧ (∃ y, t.ch = x.ch.set u y ∧ Received x.params.rxCap x.ch[u] y) ∧ t.phy = x.phy := by
  unfold irqBranches at h
  split at h
  · exact absurd h (by simp)
  · rename_i x hx
    exact ⟨x, txBranch_ok hx, Except.ok.inj h ▸ rxBranches_ok u m x⟩

end Sys2Proof.Machine
end

