-- ==== Sys2Proof/Laws/Init.lean ====
section
/-! SUPPORT. What INIT's loop over the channels does (40_init_bitrate R100). -/

namespace Sys2Proof.Machine

/-- The shadows of a unit INIT has programmed from entry `e`. -/
def programmed (p : Params) (e : CfgEntry) (x : Shadow) : Shadow :=
  (initWrites p e).foldl (fun q fv => shadowWrite fv.1 fv.2 q) x

/-- INIT's events on channel `c`. -/
def initEvents (p : Params) (c : Chan) : List Event :=
  match p.cfg[c] with
  | none => []
  | some e => (initWrites p e).map fun fv => .write c fv.1 fv.2

theorem programmed_eq (p : Params) (e : CfgEntry) (x : Shadow) : programmed p e x = { x with
    sse := some 1
    ms := some e.mode
    lbm := some e.loopback
    eot := some p.txintMode
    cs := some e.clkSrc
    cpsdvsr := some (BitVec.ofNat 8 (bitrate p.sysclk e.bitrate.toNat).1)
    scr := some (BitVec.ofNat 8 (bitrate p.sysclk e.bitrate.toNat).2)
    sph := some e.phase
    spo := some e.polarity
    frf := some e.frame
    dss := some e.dsize } := by
  have h : ∀ n : Nat, (BitVec.ofNat 16 n).setWidth 8 = BitVec.ofNat 8 n := by
    intro n
    apply BitVec.eq_of_toNat_eq
    simp only [BitVec.toNat_setWidth, BitVec.toNat_ofNat]
    omega
  simp [programmed, initWrites, shadowWrite, h]

theorem initChannel_of_inactive {s : State} {c : Chan} (h : s.params.cfg[c] = none) : initChannel s c = s := by
  simp only [Fin.getElem_fin] at h
  simp [initChannel, h]

theorem initChannel_of_active {s : State} {c : Chan} {e : CfgEntry} (h : s.params.cfg[c] = some e) :
    initChannel s c = { s with
      ch := s.ch.set c { s.ch[c] with status := .idle }
      phy := s.phy.set c (programmed s.params e s.phy[c])
      hist := s.hist ++ initEvents s.params c } := by
  simp only [Fin.getElem_fin] at h
  simp only [initChannel, Fin.getElem_fin, h, initEvents]
  rw [phyWrites_eq]
  rfl

/-- The loop over distinct channels: each active one is programmed once, and nothing else changes. -/
theorem initChannels_spec (l : List Chan) (hl : l.Nodup) (s : State) :
    l.foldl initChannel s = { s with
      ch := (l.foldl initChannel s).ch
      phy := (l.foldl initChannel s).phy
      hist := s.hist ++ l.flatMap (initEvents s.params) } ∧
    ∀ c : Chan,
      (c ∉ l ∨ s.params.cfg[c] = none →
        (l.foldl initChannel s).ch[c] = s.ch[c] ∧ (l.foldl initChannel s).phy[c] = s.phy[c]) ∧
      (∀ e, c ∈ l → s.params.cfg[c] = some e →
        (l.foldl initChannel s).ch[c] = { s.ch[c] with status := .idle } ∧
        (l.foldl initChannel s).phy[c] = programmed s.params e s.phy[c]) := by
  induction l generalizing s with
  | nil => simp
  | cons d l ih =>
    obtain ⟨hd, hl⟩ := List.nodup_cons.1 hl
    rw [List.foldl_cons]
    cases he : s.params.cfg[d] with
    | none =>
      rw [initChannel_of_inactive he]
      obtain ⟨h1, h2⟩ := ih hl s
      refine ⟨?_, fun c => ⟨fun h => (h2 c).1 ?_, fun e hc hce => (h2 c).2 e ?_ hce⟩⟩
      · rw [List.flatMap_cons, show initEvents s.params d = [] by simp only [initEvents, he], List.nil_append]
        exact h1
      · rcases h with h | h
        · exact .inl fun k => h (List.mem_cons_of_mem _ k)
        · exact .inr h
      · rcases List.mem_cons.1 hc with rfl | hc
        · rw [he] at hce; exact absurd hce (by simp)
        · exact hc
    | some e' =>
      have hp := initChannel_of_active he
      obtain ⟨h1, h2⟩ := ih hl (initChannel s d)
      have hpar : (initChannel s d).params = s.params := by rw [hp]
      refine ⟨?_, fun c => ⟨fun h => ?_, fun e hc hce => ?_⟩⟩
      · rw [hpar] at h1
        rw [h1]
        simp only [hp, List.flatMap_cons, List.append_assoc]
      · have hne : c ≠ d := by
          rintro rfl
          rcases h with h | h
          · exact h (List.mem_cons_self ..)
          · rw [he] at h; exact absurd h (by simp)
        have hcl : c ∉ l ∨ (initChannel s d).params.cfg[c] = none := by
          rw [hpar]; exact h.imp (fun h k => h (List.mem_cons_of_mem _ k)) id
        obtain ⟨k1, k2⟩ := (h2 c).1 hcl
        rw [k1, k2, hp]
        exact ⟨get_set_ne _ _ hne, get_set_ne _ _ hne⟩
      · rcases List.mem_cons.1 hc with rfl | hcl
        · obtain rfl : e' = e := by rw [he] at hce; exact Option.some.inj hce
          obtain ⟨k1, k2⟩ := (h2 c).1 (.inl hd)
          rw [k1, k2, hp]
          simp
        · have hne : c ≠ d := fun k => hd (k ▸ hcl)
          obtain ⟨k1, k2⟩ := (h2 c).2 e hcl (by rw [hpar]; exact hce)
          rw [k1, k2, hpar, hp]
          simp only
          rw [get_set_ne _ _ hne, get_set_ne _ _ hne]
          exact ⟨rfl, rfl⟩

theorem allChans_nodup : allChans.Nodup := by decide

theorem mem_allChans (c : Chan) : c ∈ allChans := by revert c; decide

/-- The defects INIT looks for are those of 40_init_bitrate R102. -/
theorem configDefect_iff (p : Params) (e : CfgEntry) : configDefect p e = true ↔ EntryDefective p e := by
  simp [configDefect, EntryDefective, or_assoc]

/-- INIT's check passes exactly when no active entry has a defect. -/
theorem initCheck_none {p : Params} :
    initCheck p = none ↔ ∀ (c : Chan) (e : CfgEntry), p.cfg[c] = some e → ¬ EntryDefective p e := by
  simp only [initCheck, List.find?_eq_none]
  constructor
  · intro h c e hc hd
    have := h c (mem_allChans c)
    simp only [channelDefect, hc] at this
    exact this ((configDefect_iff p e).2 hd)
  · intro h c _ hd
    simp only [channelDefect] at hd
    split at hd
    · exact h c _ ‹_› ((configDefect_iff p _).1 hd)
    · exact absurd hd (by simp)

end Sys2Proof.Machine
end

