-- ==== Sys2Proof/Laws/Effects.lean ====
section
/-! SUPPORT. What every command's effect leaves alone, INIT included. -/

namespace Sys2Proof.Machine

/-- The fields no command's effect writes, and the accesses it appends. -/
structure Kept (s m : State) : Prop where
  params : m.params = s.params
  seq : m.seq = s.seq
  fault : m.fault = s.fault
  hostPending : m.hostPending = s.hostPending
  context : m.context = s.context
  cmdIn : m.cmdIn = s.cmdIn
  dataIn : m.dataIn = s.dataIn
  turns : m.turns = s.turns
  nTurns : m.nTurns = s.nTurns
  hist : ∃ es, m.hist = s.hist ++ es ∧ ∀ e ∈ es, e.isAccess = true ∧ e.legal = true

theorem Framed.kept {c : Chan} {s m : State} (h : Framed c s m) : Kept s m := by
  obtain ⟨es, h1, h2⟩ := h.hist
  exact ⟨h.params, h.seq, h.fault, h.hostPending, h.context, h.cmdIn, h.dataIn, h.turns, h.nTurns, es, h1,
    fun e he => ⟨(h2 e he).2.1, (h2 e he).2.2.1⟩⟩

/-- A legal pair fits the fields INIT writes it to (20_memory R54, 40_init_bitrate R105). -/
theorem initWrites_fit {p : Params} {e : CfgEntry} (h : ¬ EntryDefective p e) :
    ∀ fv ∈ initWrites p e, fieldWritable fv.1 = true ∧ fitsField fv.1 fv.2 = true := by
  simp only [EntryDefective, not_or] at h
  have hl : legalPair (bitrate p.sysclk e.bitrate.toNat) = true := by simpa using h.2.1
  simp only [legalPair, Bool.and_eq_true, decide_eq_true_eq] at hl
  have narrow : ∀ (k : Nat) (b : BitVec k), k ≤ 16 → decide ((b.setWidth 16).toNat < 2 ^ k) = true := fun k b hk => by
    rw [decide_eq_true_eq, BitVec.toNat_setWidth]
    exact lt_of_le_of_lt (Nat.mod_le _ _) b.isLt
  simp only [initWrites, List.forall_mem_cons, List.not_mem_nil, false_implies, implies_true, and_true, fieldWritable,
    fitsField, fieldWidth, true_and]
  refine ⟨by decide, narrow 1 _ (by decide), narrow 1 _ (by decide), narrow 1 _ (by decide), narrow 4 _ (by decide),
    decide_eq_true ?_, decide_eq_true ?_, narrow 1 _ (by decide), narrow 1 _ (by decide), narrow 2 _ (by decide),
    narrow 4 _ (by decide), by decide⟩ <;>
  · rw [BitVec.toNat_ofNat]
    omega

theorem initEvents_legal {p : Params} (h : initCheck p = none) (c : Chan) :
    ∀ e ∈ initEvents p c, e.unit? = some c ∧ e.isAccess = true ∧ e.legal = true := by
  intro e he
  unfold initEvents at he
  split at he
  · exact absurd he (by simp)
  · rename_i x hx
    obtain ⟨fv, hfv, rfl⟩ := List.mem_map.1 he
    obtain ⟨h1, h2⟩ := initWrites_fit (initCheck_none.1 h c x hx) fv hfv
    exact ⟨rfl, rfl, by simp [Event.legal, h1, h2]⟩

theorem init_kept {s m : State} (h : Effect .init s m) : Kept s m := by
  obtain ⟨h1, rfl⟩ := h
  obtain ⟨h2, -⟩ := initChannels_spec allChans allChans_nodup s
  rw [h2]
  refine ⟨rfl, rfl, rfl, rfl, rfl, rfl, rfl, rfl, rfl, _, rfl, fun e he => ?_⟩
  obtain ⟨c, -, hc⟩ := List.mem_flatMap.1 he
  exact (initEvents_legal h1 c e hc).2

theorem setCh_kept (c : Chan) (x : Channel) (s : State) : Kept s (s.setCh c x) :=
  ⟨rfl, rfl, rfl, rfl, rfl, rfl, rfl, rfl, rfl, [], by simp⟩

/-- Every command's effect. -/
theorem effect_kept {i : Instr} {s m : State} (h : Effect i s m) : Kept s m := by
  have named : ∀ c, i.chan? = some c → Kept s m := fun c hc => by
    obtain k | ⟨words, -, -, rfl⟩ := effect_acts hc h
    · exact k.framed.kept
    · exact setCh_kept c _ s
  cases i with
  | init => exact init_kept h
  | bitrateCalc rate => exact h ▸ (Acts.refl (c := 0)).framed.kept
  | enableIrq c => exact named c rfl
  | disableIrq c => exact named c rfl
  | getStatus c => exact named c rfl
  | writeIb c words => exact named c rfl
  | readIb c => exact named c rfl
  | asyncTx c => exact named c rfl
  | syncTx c => exact named c rfl
  | txDrain c => exact named c rfl
  | irqEntry u => exact named u rfl

end Sys2Proof.Machine
end

