-- ==== Sys2Proof/Laws/Encoding.lean ====
section
/-! SUPPORT. The small lemmas of the encoding: the fields of format C and the word made of them, the channel field, and the
payload words. -/

namespace Sys2Proof

/-- Each field of a format-C word is the one it was made of, and the reserved bits are 0. -/
theorem fields_formatC (op : BitVec 4) (ch : BitVec 2) (n : BitVec 8) :
    opField (formatC op ch n) = op ∧ chField (formatC op ch n) = ch ∧ countField (formatC op ch n) = n ∧
      reservedLow (formatC op ch n) = 0 ∧ reservedHigh (formatC op ch n) = 0 := by
  unfold opField chField countField reservedLow reservedHigh formatC
  refine ⟨?_, ?_, ?_, ?_, ?_⟩ <;> (apply BitVec.eq_of_getLsbD_eq; intro i hi; interval_cases i <;> simp)

/-- A word whose reserved bits are 0 is made of its fields. -/
theorem formatC_fields (w : PortWord) (h1 : reservedLow w = 0) (h2 : reservedHigh w = 0) :
    formatC (opField w) (chField w) (countField w) = w := by
  unfold opField chField countField reservedLow reservedHigh formatC at *
  have a := fun j => congrArg (fun x => x.getLsbD j) h1
  have b := fun j => congrArg (fun x => x.getLsbD j) h2
  simp only [BitVec.getLsbD_extractLsb'] at a b
  apply BitVec.eq_of_getLsbD_eq
  intro i hi
  have a0 := a 0
  have a1 := a 1
  have bb := b (i - 16)
  interval_cases i <;> simp at a0 a1 bb ⊢ <;> simp_all

/-- The fields of a command's word. -/
theorem fields_encodeWord (i : Instr) :
    opField (encodeWord i) = i.opcode ∧
      chField (encodeWord i) = (match i.chan? with | some c => bitsOfChan c | none => 0) ∧
      countField (encodeWord i) = BitVec.ofNat 8 i.count ∧
      reservedLow (encodeWord i) = 0 ∧ reservedHigh (encodeWord i) = 0 :=
  fields_formatC _ _ _

@[simp] theorem chanOfBits_bits (c : Chan) : chanOfBits (bitsOfChan c) = c := by revert c; decide

@[simp] theorem bits_chanOfBits (b : BitVec 2) : bitsOfChan (chanOfBits b) = b := by revert b; decide

/-- A word survives the way through a data-in word. -/
@[simp] theorem dinWord_set (w : Word) : dinWord (w.setWidth 32) = w := by
  apply BitVec.eq_of_getLsbD_eq
  intro i hi
  simp only [dinWord]
  interval_cases i <;> simp

/-- The opcodes that are not reserved. -/
theorem opField_bound (w : PortWord) (h : ¬ (opField w = 0 ∨ 0xC#4 ≤ opField w)) :
    opField w = 1 ∨ opField w = 2 ∨ opField w = 3 ∨ opField w = 4 ∨ opField w = 5 ∨ opField w = 6 ∨ opField w = 7 ∨
      opField w = 8 ∨ opField w = 9 ∨ opField w = 10 ∨ opField w = 11 := by
  revert h; generalize opField w = x; revert x; decide

/-- The word of a command is legal. -/
theorem illegalWord_encodeWord (i : Instr) : illegalWord (encodeWord i) = none := by
  obtain ⟨f1, f2, f3, f4, f5⟩ := fields_encodeWord i
  unfold illegalWord; rw [f1, f2, f3, f4, f5]
  cases i <;> simp [Instr.opcode, Instr.chan?, Instr.count]

end Sys2Proof
end

