-- ==== Sys2Proof/Laws/Invariant.lean ====
section
/-! SUPPORT. The induction over a step, packaged once: what every access and every response keeps, and the other fields do not
enter, every step keeps. -/

namespace Sys2Proof.Machine

/-- A Wait micro-step is one BSY read, and then a new `seq` or the abort. -/
theorem syncWait_cases (c : Chan) (i polls : Nat) (s : State) :
    (∃ q, syncWait c i polls s = (phyRead c .bsy s).setSeq q) ∨
      syncWait c i polls s = syncEnd c respFail (phyRead c .bsy s) := by
  unfold syncWait
  simp only
  split
  · exact .inl ⟨_, rfl⟩
  · split
    · exact .inr rfl
    · exact .inl ⟨_, rfl⟩

/-- A property of the shadows and the history that every access and every response keeps. -/
structure Stable (P : State → Prop) : Prop where
  write : ∀ u f v s, P s → P (phyWrite u f v s)
  read : ∀ u f s, P s → P (phyRead u f s)
  respond : ∀ op r data s, P s → P (respond op r data s)
  same : ∀ s t : State, t.phy = s.phy → t.hist = s.hist → P s → P t

theorem Stable.acts {P : State → Prop} (hP : Stable P) {c : Chan} {s t : State} (h : Acts c s t) (hs : P s) : P t := by
  induction h with
  | refl => exact hs
  | read _ f _ ih => exact hP.read _ _ _ ih
  | write _ f v _ _ _ ih => exact hP.write _ _ _ _ ih
  | setCh _ x _ _ ih => exact hP.same _ _ (by rfl) (by rfl) ih

theorem Stable.phyWrites {P : State → Prop} (hP : Stable P) (u : Chan) (ws : List (Field × Word)) (s : State) (hs : P s) :
    P (phyWrites u ws s) := by
  induction ws generalizing s with
  | nil => exact hs
  | cons fv ws ih => exact ih _ (hP.write _ _ _ _ hs)

theorem Stable.initChannels {P : State → Prop} (hP : Stable P) (l : List Chan) (s : State) (hs : P s) :
    P (l.foldl initChannel s) := by
  induction l generalizing s with
  | nil => exact hs
  | cons c l ih =>
    refine ih _ ?_
    unfold initChannel
    split
    · exact hs
    · exact hP.same _ _ (setStatus_phy ..) (setStatus_hist ..) (hP.phyWrites c _ s hs)

theorem Stable.effect {P : State → Prop} (hP : Stable P) {i : Instr} {s m : State} (h : Effect i s m) (hs : P s) : P m := by
  cases hc : i.chan? with
  | some c =>
    obtain h | ⟨_, _, _, rfl⟩ := effect_acts hc h
    · exact hP.acts h hs
    · exact hP.same _ _ (by rfl) (by rfl) hs
  | none =>
    cases i <;> simp only [Instr.chan?, reduceCtorEq] at hc
    · obtain ⟨_, rfl⟩ := h
      exact hP.same _ _ (by rfl) (by rfl) (hP.initChannels allChans s hs)
    · exact h ▸ hs

/-- A command keeps it. -/
theorem Stable.exec {P : State → Prop} (hP : Stable P) {i : Instr} {s t : State} (hs : P s) (h : exec i s = .next t) : P t := by
  obtain ⟨-, ⟨f, rfl⟩ | ⟨-, ⟨f, rfl⟩ | ⟨m, r, data, he, rfl⟩ | ⟨c, rfl, -, rfl⟩⟩⟩ := exec_next h
  · exact hP.same _ _ (by rfl) (by rfl) hs
  · exact hP.same _ _ (by rfl) (by rfl) hs
  · exact hP.respond _ _ _ _ (hP.effect he hs)
  · exact hP.same _ _ (by rfl) (by rfl) hs

/-- A step of any agent keeps it. -/
theorem Stable.step {P : State → Prop} (hP : Stable P) {s t : State} (hs : P s) (h : step s = .next t) : P t := by
  have hm : P s.popTurn.enterMainline := hP.same s _ (by simp) (by simp) hs
  obtain ⟨-, k⟩ := step_next h
  cases k with
  | hold h => exact hP.same s _ (by simp [h]) (by simp [h]) hs
  | illegal w words _ _ _ h => exact h ▸ hP.respond _ _ _ _ (hP.same s _ (by simp [takeWord]) (by simp [takeWord]) hs)
  | host i w words rest _ _ _ _ h =>
    exact hP.exec (hP.same s _ (by simp [takeWord, issue]) (by simp [takeWord, issue]) hs) h
  | dispatcher u _ _ h => exact hP.exec (hP.same s _ (by simp) (by simp) hs) h
  | completed c i polls _ _ h => exact h ▸ hP.respond _ _ _ _ (hP.same s _ (by simp) (by simp) hs)
  | unwritten c i polls _ _ _ h => exact hP.same s _ (by simp [h]) (by simp [h]) hs
  | wrote c i polls m _ hi hw h =>
    exact hP.same m _ (by simp [h]) (by simp [h]) (hP.acts (sendWord_acts (by simpa using hi) hw) hm)
  | waited c i polls _ h =>
    have hr := hP.read c .bsy _ hm
    obtain ⟨q, hq⟩ | hq := syncWait_cases c i polls s.popTurn.enterMainline
    · exact hP.same _ _ (by rw [h, hq]; rfl) (by rw [h, hq]; rfl) hr
    · rw [h, hq]
      exact hP.respond _ _ _ _ (hP.same _ _ (by rfl) (by rfl) hr)

end Sys2Proof.Machine
end

