-- ==== Sys2Proof/Laws/PerInstr.lean ====
section
/-! SUPPORT. The statement made for every constructor of Instr: the word of a well-formed command is legal, and asks for
exactly its payload (30_encoding R72, R74, R76). -/

namespace Sys2Proof.Laws.LegalWord

/-- The command word passes the legality check, and the number of data-in words it asks for is the payload's. -/
def Statement (i : Instr) : Prop :=
  i.wf = true → illegalWord (encodeWord i) = none ∧ payloadCount (encodeWord i) = (encodePayload i).length

theorem payloadCount_encodeWord (i : Instr) :
    payloadCount (encodeWord i) =
      if i.opcode = 0x5 then (BitVec.ofNat 8 i.count).toNat else if i.opcode = 0xB then 1 else 0 := by
  obtain ⟨f1, -, f3, -, -⟩ := fields_encodeWord i
  unfold payloadCount; rw [illegalWord_encodeWord, f1, f3]

theorem init : Statement .init :=
  fun _ => ⟨illegalWord_encodeWord _, payloadCount_encodeWord _⟩

theorem enableIrq (c : Chan) : Statement (.enableIrq c) :=
  fun _ => ⟨illegalWord_encodeWord _, payloadCount_encodeWord _⟩

theorem disableIrq (c : Chan) : Statement (.disableIrq c) :=
  fun _ => ⟨illegalWord_encodeWord _, payloadCount_encodeWord _⟩

theorem getStatus (c : Chan) : Statement (.getStatus c) :=
  fun _ => ⟨illegalWord_encodeWord _, payloadCount_encodeWord _⟩

theorem writeIb (c : Chan) (words : List Word) : Statement (.writeIb c words) := by
  intro hw
  refine ⟨illegalWord_encodeWord _, ?_⟩
  rw [payloadCount_encodeWord]
  simp only [Instr.wf, decide_eq_true_eq] at hw
  simp [Instr.opcode, Instr.count, encodePayload]; omega

theorem readIb (c : Chan) : Statement (.readIb c) :=
  fun _ => ⟨illegalWord_encodeWord _, payloadCount_encodeWord _⟩

theorem asyncTx (c : Chan) : Statement (.asyncTx c) :=
  fun _ => ⟨illegalWord_encodeWord _, payloadCount_encodeWord _⟩

theorem syncTx (c : Chan) : Statement (.syncTx c) :=
  fun _ => ⟨illegalWord_encodeWord _, payloadCount_encodeWord _⟩

theorem txDrain (c : Chan) : Statement (.txDrain c) :=
  fun _ => ⟨illegalWord_encodeWord _, payloadCount_encodeWord _⟩

theorem irqEntry (u : Chan) : Statement (.irqEntry u) :=
  fun _ => ⟨illegalWord_encodeWord _, payloadCount_encodeWord _⟩

theorem bitrateCalc (rate : PortWord) : Statement (.bitrateCalc rate) :=
  fun _ => ⟨illegalWord_encodeWord _, payloadCount_encodeWord _⟩

end Sys2Proof.Laws.LegalWord
end

