-- ==== Sys2Proof/Laws/Run.lean ====
section
/-! SUPPORT. Runs of several steps, one step at a time. -/

namespace Sys2Proof.Machine

/-- A run whose first step answers a next state goes on from there. -/
theorem core_run_succ {M : Host.Core} {s t : M.State} (h : M.step s = .next t) (k : Nat) : M.run (k + 1) s = M.run k t := by
  rw [Host.Core.run, h]

/-- A run in two parts. -/
theorem core_run_add {M : Host.Core} {s t : M.State} {j : Nat} (h : M.run j s = .next t) (k : Nat) :
    M.run (j + k) s = M.run k t := by
  induction j generalizing s with
  | zero =>
    rw [Host.Core.run] at h
    rw [Nat.zero_add, Host.Outcome.next.inj h]
  | succ j ih =>
    rw [Host.Core.run] at h
    rw [Nat.add_right_comm, Host.Core.run]
    cases hs : M.step s <;> rw [hs] at h
    · exact ih h
    · exact absurd h (by simp)
    · exact absurd h (by simp)

/-- A run of the machine behind `Sys2Proof.core`, with the state's own type. -/
def run (k : Nat) (s : State) : Host.Outcome State Fault Refusal := Sys2Proof.core.run k s

theorem core_run_eq (k : Nat) (s : State) : Sys2Proof.core.run k s = run k s := rfl

@[simp] theorem run_zero (s : State) : run 0 s = .next s := rfl

theorem run_succ {s t : State} (h : step s = .next t) (k : Nat) : run (k + 1) s = run k t :=
  core_run_succ (M := Sys2Proof.core) h k

theorem run_add {s t : State} {j : Nat} (h : run j s = .next t) (k : Nat) : run (j + k) s = run k t :=
  core_run_add (M := Sys2Proof.core) h k

end Sys2Proof.Machine
end

