-- ==== Sys2Proof/Laws/Slots.lean ====
section
/-! SUPPORT. What the two readers of the receive buffer give: the words of its first slots, and the place of the first
sentinel. -/

namespace Sys2Proof.Machine

/-- Where the first `n` slots hold words, those words are what is read. -/
theorem readRxSlots_of (c : Chan) (buf : List (Option Word)) (out : List Word) (n : Nat) (hn : n ≤ out.length)
    (h : ∀ j, j < n → slotAt buf j = out[j]?) : readRxSlots c buf n = .ok (out.take n) := by
  induction n with
  | zero => rfl
  | succ n ih =>
    have hl : n < out.length := by omega
    have hs : slotAt buf n = some out[n] := by rw [h n (by omega)]; simp [List.getElem?_eq_getElem hl]
    rw [readRxSlots, ih (by omega) (fun j hj => h j (by omega)), hs]
    exact congrArg _ (List.take_succ_eq_append_getElem hl).symm

/-- The words of slots that are all written. -/
theorem exists_words (buf : List (Option Word)) (n : Nat) (h : ∀ i, i < n → (slotAt buf i).isSome = true) :
    ∃ out : List Word, out.length = n ∧ ∀ j, j < n → slotAt buf j = out[j]? := by
  refine ⟨(List.range n).map fun j => (slotAt buf j).getD 0, by simp, fun j hj => ?_⟩
  obtain ⟨w, hw⟩ := Option.isSome_iff_exists.1 (h j hj)
  simp [hj, hw]

/-- The scan passes over words that are not the sentinel. -/
theorem scanSentinel_skip (c : Chan) (sent : Word) (buf : List (Option Word)) (out : List Word) (n i : Nat)
    (h : ∀ j, j < out.length → slotAt buf (i + j) = out[j]?) (hs : sent ∉ out) (hn : out.length ≤ n) :
    scanSentinel c sent buf n i = scanSentinel c sent buf (n - out.length) (i + out.length) := by
  induction out generalizing n i with
  | nil => simp
  | cons w out ih =>
    obtain ⟨n, rfl⟩ : ∃ m, n = m + 1 := ⟨n - 1, by simp at hn; omega⟩
    have h0 := h 0 (by simp)
    simp only [Nat.add_zero, List.getElem?_cons_zero] at h0
    simp only [List.mem_cons, not_or] at hs
    rw [scanSentinel, h0]
    simp only
    rw [if_neg (fun e => hs.1 e.symm), ih n (i + 1) (fun j hj => ?_) hs.2 (by simpa using hn)]
    · congr 1
      · simp
      · simp; omega
    · have hj' := h (j + 1) (by simp; omega)
      rw [show i + (j + 1) = i + 1 + j by omega] at hj'
      simpa using hj'

end Sys2Proof.Machine
end

