-- ==== Sys2Proof/Tests/Slice0.lean ====
section
/-! SUPPORT. The model's own tests: what WellFormed refuses, words written out from the encoding, one-step vectors of
spec/95_test_vectors.md, and for every obligation with hypotheses a witness that meets them. -/

namespace Sys2Proof.Tests

open Sys2Proof Sys2Proof.Machine

/-! ### The start states of spec/95_test_vectors.md -/

/-- The Conventions' parameters, with a configuration table. -/
def params (cfg : Vector (Option CfgEntry) 4) : Params where
  txCap := 16
  rxCap := 16
  sysclk := 16000000
  readMode := .counted
  sent := 0xFFFF
  syncTimeout := none
  isrMode := .filled
  txintMode := 0
  writeWhileBusy := .accept
  cfg := cfg

def k0 : CfgEntry := cfgOfPacked 0x000F424000001C00
def k1b : CfgEntry := cfgOfPacked 0x001E848000081C00
def k2 : CfgEntry := cfgOfPacked 0x003D090000073C02
def k3 : CfgEntry := cfgOfPacked 0x007A120000001C00
def k4 : CfgEntry := cfgOfPacked 0x000F4240000C1C00
def k6 : CfgEntry := cfgOfPacked 0x000F424000081C00

/-- Reset. -/
def fresh (p : Params) : State := State.resetWith p

/-- Reset and then a successful INIT, but for INIT's events and shadows. -/
def ready (p : Params) : State := { State.resetWith p with inited := true }

/-- `CFG` with channel 0 alone. -/
def only0 (e : CfgEntry) : Vector (Option CfgEntry) 4 := #v[some e, none, none, none]

/-- Words loaded for transmission on channel `c`, the cursor and the status. -/
def loaded (c : Chan) (words : List Word) (idx : Nat) (st : Status) (s : State) : State :=
  s.setCh c { s.ch[c] with
    txBuf := loadSlots s.ch[c].txBuf words, txLen := words.length, txIdx := idx, status := st }

/-- Words in the receive slots of channel `c`, and the number received since the last read. -/
def received (c : Chan) (words : List Word) (idx : Nat) (s : State) : State :=
  s.setCh c { s.ch[c] with rxBuf := loadSlots s.ch[c].rxBuf words, rxIdx := idx }

/-- The transmit source of unit `c` enabled. -/
def txEnabled (c : Chan) (s : State) : State := s.setPhy c { s.phy[c] with imTx := 0 }

/-- The draws of the next reads. -/
def drawing (ds : List Word) (s : State) : State := { s with draws := ds }

/-- The agents of the next steps. -/
def turning (ts : List Turn) (s : State) : State := { s with turns := ts }

/-- A command waiting on the ports, and the host's turn. -/
def issuing (words din : List PortWord) (s : State) : State :=
  { s with cmdIn := words, dataIn := din, turns := [.host] }

/-- A SYNC_TX of channel `c` in progress. -/
def syncing (c : Chan) (i : Nat) (ph : Phase) (polls : Nat) (s : State) : State :=
  { s with seq := .syncTx c i ph polls, hostPending := some (.syncTx c) }

/-- The next state of an outcome. -/
def nextOf (o : Host.Outcome State Fault Refusal) : Option State :=
  match o with
  | .next t => some t
  | .fault _ => none
  | .refused _ => none

/-- What a test looks at in the next state. -/
def after {α : Type} (o : Host.Outcome State Fault Refusal) (f : State → α) : Option α := (nextOf o).map f

/-! ### WellFormed -/

/-- COUNT has 8 bits (30_encoding R71): 255 words can be encoded, 256 cannot. -/
theorem test_wf_writeIb :
    (Instr.writeIb 0 (List.replicate 255 1)).wf = true ∧ (Instr.writeIb 0 (List.replicate 256 1)).wf = false := by
  decide +kernel

/-! ### Words written out from format C (30_encoding R71, R72): reserved, COUNT, reserved, CH, OP -/

theorem test_decode_init :
    decode (0b0000000000000000#16 ++ 0b00000000#8 ++ 0b00#2 ++ 0b00#2 ++ 0b0001#4) [] = .command .init [] := by decide

theorem test_decode_enableIrq :
    decode (0b0000000000000000#16 ++ 0b00000000#8 ++ 0b00#2 ++ 0b01#2 ++ 0b0010#4) [] = .command (.enableIrq 1) [] := by
  decide

theorem test_decode_disableIrq :
    decode (0b0000000000000000#16 ++ 0b00000000#8 ++ 0b00#2 ++ 0b11#2 ++ 0b0011#4) [] = .command (.disableIrq 3) [] := by
  decide

theorem test_decode_getStatus :
    decode (0b0000000000000000#16 ++ 0b00000000#8 ++ 0b00#2 ++ 0b10#2 ++ 0b0100#4) [] = .command (.getStatus 2) [] := by
  decide

/-- B5.6: bits [31:16] of a data-in word are ignored; the payload is COUNT words and no more. -/
theorem test_decode_writeIb :
    decode (0b0000000000000000#16 ++ 0b00000010#8 ++ 0b00#2 ++ 0b01#2 ++ 0b0101#4) [0x00012345, 7, 8] =
      .command (.writeIb 1 [0x2345, 7]) [8] := by decide

theorem test_decode_readIb :
    decode (0b0000000000000000#16 ++ 0b00000000#8 ++ 0b00#2 ++ 0b01#2 ++ 0b0110#4) [5] = .command (.readIb 1) [5] := by
  decide

theorem test_decode_asyncTx :
    decode (0b0000000000000000#16 ++ 0b00000000#8 ++ 0b00#2 ++ 0b10#2 ++ 0b0111#4) [] = .command (.asyncTx 2) [] := by
  decide

theorem test_decode_syncTx :
    decode (0b0000000000000000#16 ++ 0b00000000#8 ++ 0b00#2 ++ 0b11#2 ++ 0b1000#4) [] = .command (.syncTx 3) [] := by
  decide

theorem test_decode_txDrain :
    decode (0b0000000000000000#16 ++ 0b00000000#8 ++ 0b00#2 ++ 0b01#2 ++ 0b1001#4) [] = .command (.txDrain 1) [] := by
  decide

theorem test_decode_irqEntry :
    decode (0b0000000000000000#16 ++ 0b00000000#8 ++ 0b00#2 ++ 0b11#2 ++ 0b1010#4) [] = .command (.irqEntry 3) [] := by
  decide

theorem test_decode_bitrateCalc :
    decode (0b0000000000000000#16 ++ 0b00000000#8 ++ 0b00#2 ++ 0b00#2 ++ 0b1011#4) [0x00124F80, 1] =
      .command (.bitrateCalc 1200000) [1] := by decide

/-- The illegal words of B1, and its boundary: COUNT 255 on WRITE_IB is legal. -/
theorem test_decode_illegal :
    illegalWord 0x00000000 = some .reservedOpcode ∧ illegalWord 0x0000000F = some .reservedOpcode ∧
    illegalWord 0x00000011 = some .channelNotZero ∧ illegalWord 0x0000001B = some .channelNotZero ∧
    illegalWord 0x00000109 = some .countNotZero ∧ illegalWord 0x00000084 = some .reservedBits ∧
    illegalWord 0x0001000A = some .reservedBits ∧ illegalWord 0x80000005 = some .reservedBits ∧
    illegalWord 0x0000FF05 = none ∧ payloadCount 0x0000FF35 = 255 := by decide

/-- The packed entries K2 and K4 (Conventions). -/
theorem test_cfg_packed :
    k2.dsize = 15 ∧ k2.loopback = 1 ∧ k2.ieRor = 1 ∧ k2.ieRt = 1 ∧ k2.ieRx = 1 ∧ k2.ieTx = 0 ∧
      k2.bitrate = 4000000 ∧ k4.ieRx = 1 ∧ k4.ieTx = 1 ∧ k4.dsize = 7 := by decide

/-- R80's text of a command. -/
theorem test_asmText : asmText (.readIb 3) = "READ_IB 3" := by decide

/-! ### One step of each command -/

/-- B3.1. -/
theorem test_init_writes :
    after (exec .init (fresh (params (only0 k0)))) (fun t => (t.hist, t.inited, t.phy[0].imTx)) =
      some ([ .write 0 .sse 0, .write 0 .ms 0, .write 0 .lbm 0, .write 0 .eot 0, .write 0 .cs 0,
        .write 0 .cpsdvsr 16, .write 0 .scr 0, .write 0 .sph 0, .write 0 .spo 0, .write 0 .frf 0,
        .write 0 .dss 7, .write 0 .sse 1, .rsp .init 0 [] ], true, 1) := by decide +kernel

/-- B3.11: the check of channel 2 comes before the writes of channel 0. -/
theorem test_init_rejects :
    after (exec .init (fresh (params #v[some k0, none, some { k0 with bitrate := 62256 }, none])))
      (fun t => (t.hist, t.inited, t.fault)) = some ([], false, some (.configRange (some 2))) := by decide +kernel

/-- B4.1. -/
theorem test_enableIrq :
    after (exec (.enableIrq 0) (ready (params (only0 k4)))) (fun t => (t.hist, t.phy[0].imTx, t.phy[0].imRt)) =
      some ([.write 0 .imRx 0, .write 0 .imTx 0, .rsp .enableIrq 0 []], 0, 1) := by decide +kernel

/-- B4.8. -/
theorem test_enableIrq_inactive :
    after (exec (.enableIrq 1) (ready (params (only0 k0)))) (·.fault) = some (some (.unconfiguredChannel 1)) := by
  decide +kernel

/-- B4.7: the transfer is stalled, not ended. -/
theorem test_disableIrq :
    after (exec (.disableIrq 0) (loaded 0 [1, 2] 1 .busy (txEnabled 0 (ready (params (only0 k6))))))
      (fun t => (t.hist, t.phy[0].imTx, t.ch[0].status, t.ch[0].txIdx)) =
      some ([.write 0 .imRor 1, .write 0 .imRt 1, .write 0 .imRx 1, .write 0 .imTx 1, .rsp .disableIrq 0 []],
        1, .busy, 1) := by decide +kernel

/-- B7.2. -/
theorem test_getStatus :
    after (exec (.getStatus 3) (loaded 3 [1] 0 .busy (ready (params #v[none, none, none, some k3])))) (·.hist) =
      some [.rsp .getStatus 0x00000002 []] := by decide +kernel

/-- B7.4. -/
theorem test_getStatus_before_init :
    after (exec (.getStatus 0) (fresh (params (only0 k0)))) (fun t => (t.hist, t.fault)) =
      some ([], some (.notInitialized 0x00000004)) := by decide +kernel

/-- B5.7 on the start of B5.8: the slots above are kept, the cursor goes back, and the channel stays Busy. -/
theorem test_writeIb :
    after (exec (.writeIb 0 [9]) (loaded 0 [1, 2, 3] 2 .busy (ready (params (only0 k0)))))
      (fun t => (t.ch[0].txBuf.take 4, t.ch[0].txLen, t.ch[0].txIdx, t.ch[0].status)) =
      some ([some 9, some 2, some 3, none], 1, 0, .busy) := by decide +kernel

/-- B5.4: no partial copy. -/
theorem test_writeIb_too_long :
    after (exec (.writeIb 0 (List.replicate 17 8)) (loaded 0 [1, 2, 3] 0 .idle (ready (params (only0 k0)))))
      (fun t => (t.hist, t.ch[0].txBuf.take 3, t.ch[0].txLen)) =
      some ([.rsp .writeIb 1 []], [some 1, some 2, some 3], 3) := by decide +kernel

/-- B6.2. -/
theorem test_readIb :
    after (exec (.readIb 0) (received 0 [0xA1, 0xB2, 0xC3] 3 (ready (params (only0 k0)))))
      (fun t => (t.hist, t.ch[0].rxIdx, t.ch[0].rxBuf.take 1)) =
      some ([.rsp .readIb 0x00000300 [0xA1, 0xB2, 0xC3]], 0, [some 0xA1]) := by decide +kernel

/-- B6.11: in Sentinel mode a stale word is returned. -/
theorem test_readIb_sentinel :
    after (exec (.readIb 0) (received 0 [6, 2, 0xFFFF, 3, 4] 1
      (ready { params (only0 k0) with readMode := .sentinel }))) (·.hist) =
      some [.rsp .readIb 0x00000200 [6, 2]] := by decide +kernel

/-- B9.1. -/
theorem test_asyncTx :
    after (exec (.asyncTx 1) (loaded 1 [10, 11, 12] 0 .idle (ready (params #v[none, some k1b, none, none]))))
      (fun t => (t.hist, t.ch[1].txIdx, t.ch[1].status)) =
      some ([.write 1 .dr 10, .rsp .asyncTx 0 []], 1, .idle) := by decide +kernel

/-- B9.4. -/
theorem test_asyncTx_overrun :
    after (exec (.asyncTx 1) (loaded 1 [4] 1 .idle (ready (params #v[none, some k1b, none, none]))))
      (fun t => (t.hist, t.fault)) = some ([], some (.cursorOverrun 1 1 1)) := by decide +kernel

/-- R150's example. -/
theorem test_syncTx :
    after (exec (.syncTx 0) (loaded 0 [1, 2, 3] 2 .idle (ready (params (only0 k0)))))
      (fun t => (t.hist, t.ch[0].status, t.ch[0].txIdx, t.seq)) =
      some ([], .busy, 0, .syncTx 0 0 .write 0) := by decide +kernel

/-- The last step of B8.4: the second BSY read of 1 for one word aborts. -/
theorem test_syncTx_timeout :
    after (step (turning [.sequencer] (drawing [1] (syncing 0 1 .wait 1
      (loaded 0 [1, 2] 2 .busy (ready { params (only0 k0) with syncTimeout := some 2 }))))))
      (fun t => (t.hist, t.ch[0].status, t.ch[0].txIdx, t.seq, t.hostPending)) =
      some ([.read 0 .bsy 1, .rsp .syncTx 1 []], .idle, 0, .ready, none) := by decide +kernel

/-- A9. -/
theorem test_txDrain_partial :
    after (exec (.txDrain 0) (drawing [1, 1, 1, 0] (loaded 0 [0x10, 0x11, 0x12, 0x13, 0x14] 0 .idle
      (txEnabled 0 (ready (params (only0 k6)))))))
      (fun t => (t.hist, t.ch[0].txIdx, t.ch[0].status, t.phy[0].imTx)) =
      some ([.read 0 .tnf 1, .write 0 .dr 0x10, .read 0 .tnf 1, .write 0 .dr 0x11, .read 0 .tnf 1,
        .write 0 .dr 0x12, .read 0 .tnf 0, .rsp .txDrain 0 []], 3, .busy, 0) := by decide +kernel

/-- B10.5: the drain goes on from the cursor, and TNF is not read after the last word. -/
theorem test_txDrain_complete :
    after (exec (.txDrain 0) (drawing [1, 1] (loaded 0 [7, 8, 9] 1 .idle (txEnabled 0 (ready (params (only0 k6)))))))
      (fun t => (t.hist, t.ch[0].txIdx, t.ch[0].status, t.phy[0].imTx)) =
      some ([.read 0 .tnf 1, .write 0 .dr 8, .read 0 .tnf 1, .write 0 .dr 9, .write 0 .imRor 1, .write 0 .imRt 1,
        .write 0 .imRx 1, .write 0 .imTx 1, .rsp .txDrain 0 []], 0, .idle, 1) := by decide +kernel

/-- B11.8: RxDrain runs twice, and the timeout is cleared last. -/
theorem test_irqEntry_receive :
    after (exec (.irqEntry 2) (drawing [6, 1, 0x11, 0, 0] ((ready (params #v[none, none, some k2, none])).setPhy 2
      { Shadow.reset with imRx := 0, imRt := 0, imRor := 0 })))
      (fun t => (t.hist, t.ch[2].rxIdx, t.ch[2].rxBuf.take 2)) =
      some ([.read 2 .mis 6, .read 2 .rne 1, .read 2 .dr 0x11, .read 2 .rne 0, .read 2 .rne 0,
        .write 2 .icrRt 1, .rsp .irqEntry 0 []], 1, [some 0x11, none]) := by decide +kernel

/-- B11.9: the TX branch on an empty buffer disables every source, and the RX branch still runs. A draw with the masked
bits 0 and 1 set is not seen so (20_memory R56). -/
theorem test_irqEntry_transmit :
    after (exec (.irqEntry 0) (drawing [0xF, 0] ((ready (params (only0 k4))).setPhy 0
      { Shadow.reset with imRx := 0, imTx := 0 }))) (fun t => (t.hist, t.ch[0].status, t.phy[0].imRx)) =
      some ([.read 0 .mis 12, .write 0 .imRor 1, .write 0 .imRt 1, .write 0 .imRx 1, .write 0 .imTx 1,
        .read 0 .rne 0, .rsp .irqEntry 0 []], .idle, 1) := by decide +kernel

/-- A2, before INIT. -/
theorem test_bitrateCalc :
    after (exec (.bitrateCalc 1200000) (fresh (params (only0 k0)))) (fun t => (t.hist, t.inited)) =
      some ([.rsp .bitrateCalc 0x00000004 [2, 12]], false) := by decide +kernel

/-- B2 at its boundaries: ratios 0, 1, 254, 256 and 257. -/
theorem test_bitrate_boundaries :
    bitrate 16000000 16000001 = (0, 0) ∧ bitrate 16000000 16000000 = (2, 0) ∧
    bitrate 16000000 62992 = (254, 0) ∧ bitrate 16000000 62500 = (2, 255) ∧
    bitrate 16000000 62256 = (2, 256) ∧ legalPair (0, 0) = false ∧ legalPair (2, 255) = true ∧
    legalPair (2, 256) = false := by decide +kernel

/-- B12.4: an illegal word is answered before NotInitialized is looked at. -/
theorem test_step_illegal :
    after (step (issuing [0x0000000C] [5] (fresh (params (only0 k0))))) (fun t => (t.hist, t.fault, t.dataIn)) =
      some ([.rsp (.illegal 0x0000000C) 0x00000009 []], none, [5]) := by decide +kernel

/-- A table row's word, placed and run. -/
theorem test_step_placed :
    after (step ((fresh (params (only0 k0))).withFetchWord 32 0x00000004)) (·.fault) =
      some (some (.notInitialized 0x00000004)) := by decide +kernel

/-! ### Witnesses: states and operands that meet the hypotheses of each obligation -/

/-- Channel 0 with K0, after INIT. -/
def s0 : State := ready (params (only0 k0))

/-- Channel 0 in the middle of a SYNC_TX of three words, the second just written, with a script for what comes. -/
def sMid : State :=
  turning [.sequencer] (drawing [0] (syncing 0 1 .wait 0 (loaded 0 [1, 2, 3] 2 .busy
    (s0.setPhy 0 { Shadow.reset with sse := some 1 }))))

theorem witness_DecodeOfEncode :
    (Instr.writeIb 3 (List.replicate 255 7)).wf = true ∧ (Instr.writeIb 0 []).wf = true ∧
      (Instr.bitrateCalc 1).wf = true ∧ (Instr.irqEntry 3).wf = true := by decide +kernel

theorem witness_EncodeOfDecode :
    decode 0x00000215 [0x00012345, 7, 8] = .command (.writeIb 1 [0x2345, 7]) [8] ∧
      decode 0x0000000B [1200000] = .command (.bitrateCalc 1200000) [] := by decide

theorem witness_LegalWordsAreTheTablesRows :
    illegalWord 0x0000FF35 = none ∧ inRow 0x0000FF35 (0x00000005, 0xFFFF00CF) = true := by decide

/-- One word for each item of R76, at its boundaries, and the port of a machine at reset. -/
theorem witness_IllegalWordIsAnswered :
    let s := issuing [0x0000000C] [] (fresh (params (only0 k0)))
    s.fault = none ∧ s.nextTurn = .host ∧ s.seq = .ready ∧ s.hostPending = none ∧ s.cmdIn = [0x0000000C] ∧
    (0x00000000 : PortWord).extractLsb' 0 4 = 0x0#4 ∧ 0xC#4 ≤ (0x0000000C : PortWord).extractLsb' 0 4 ∧
    (0x00000084 : PortWord).extractLsb' 6 2 ≠ 0#2 ∧ (0x80000005 : PortWord).extractLsb' 16 16 ≠ 0#16 ∧
    (0x00000102 : PortWord).extractLsb' 8 8 ≠ 0#8 ∧ (0x00000102 : PortWord).extractLsb' 0 4 ≠ 0x5#4 ∧
    (0x00000011 : PortWord).extractLsb' 4 2 ≠ 0#2 ∧ (0x00000011 : PortWord).extractLsb' 0 4 = 0x1#4 ∧
    (0x0000001B : PortWord).extractLsb' 4 2 ≠ 0#2 ∧ (0x0000001B : PortWord).extractLsb' 0 4 = 0xB#4 := by
  decide +kernel

theorem witness_StepRunsTheDecodedCommand :
    (issuing [0x00000105, 0x8] [4] s0).fault = none ∧ (issuing [0x00000105, 0x8] [4] s0).nextTurn = .host ∧
      (issuing [0x00000105, 0x8] [4] s0).seq = .ready ∧ (issuing [0x00000105, 0x8] [4] s0).hostPending = none ∧
      decode 0x00000105 (issuing [0x00000105, 0x8] [4] s0).dataIn = .command (.writeIb 0 [4]) [] := by decide +kernel

theorem witness_StepRunsTheDispatchersEntry :
    (turning [.dispatcher 0] sMid).fault = none ∧ (turning [.dispatcher 0] sMid).nextTurn = .dispatcher 0 ∧
      sMid.inited = true ∧ sMid.params.cfg[(0 : Chan)].isSome = true ∧ sMid.params.cfg[(1 : Chan)] = none ∧
      (turning [.dispatcher 1] sMid).nextTurn = .dispatcher 1 ∧ (fresh (params (only0 k0))).inited = false := by
  decide +kernel

theorem witness_HoldsChangeNothing :
    (turning [.host] sMid).nextTurn = .host ∧ (turning [.host] sMid).seq ≠ .ready ∧
      (turning [.host] sMid).hostPending ≠ none ∧ (issuing [] [] s0).cmdIn = [] ∧
      decode 0x00000205 (issuing [0x00000205] [1] s0).dataIn = .incomplete ∧
      (turning [.sequencer] s0).nextTurn = .sequencer ∧ (turning [.sequencer] s0).seq = .ready := by decide +kernel

theorem witness_FaultedMachineStops :
    (s0.raise (.unconfiguredChannel 1)).fault = some (.unconfiguredChannel 1) := by decide +kernel

theorem witness_CommandsBeforeInitFault :
    (fresh (params (only0 k0))).fault = none ∧ (fresh (params (only0 k0))).inited = false ∧
      after (exec .init (fresh (params (only0 k0)))) (·.fault) = some none ∧
      (after (exec (.bitrateCalc 0) (fresh (params (only0 k0)))) (·.fault)).isSome = true := by decide +kernel

theorem witness_InactiveChannelsFault :
    (Instr.irqEntry 3).chan? = some 3 ∧ s0.fault = none ∧ s0.inited = true ∧ s0.params.cfg[(3 : Chan)] = none ∧
      (nextOf (step sMid)).isSome = true := by decide +kernel

/-- Two active channels with good entries; the other two inactive. -/
theorem witness_InitProgramsTheUnits :
    (fresh (params #v[some k0, none, none, some k3])).fault = none ∧
      ∀ (c : Chan) (e : CfgEntry), (fresh (params #v[some k0, none, none, some k3])).params.cfg[c] = some e →
        ¬ EntryDefective (fresh (params #v[some k0, none, none, some k3])).params e := by
  refine ⟨by decide +kernel, fun c e h => ?_⟩
  rw [← configDefect_iff]
  fin_cases c
  · obtain rfl : k0 = e := Option.some.inj h
    decide +kernel
  · exact absurd h (by simp [fresh, State.resetWith, params])
  · exact absurd h (by simp [fresh, State.resetWith, params])
  · obtain rfl : k3 = e := Option.some.inj h
    decide +kernel

/-- Every defect of R102, at the boundary ratios 0 and 257, each on channel 0. -/
theorem witness_InitRejectsADefectiveTable :
    ∀ e ∈ [{ k0 with bitrate := 0 }, { k0 with bitrate := 16000001 }, { k0 with bitrate := 62256 },
        { k0 with rsvLow := 1 }, { k0 with rsvHigh := 0x800 }],
      (fresh (params (only0 e))).fault = none ∧ (fresh (params (only0 e))).params.cfg[(0 : Chan)] = some e ∧
        EntryDefective (params (only0 e)) e := by decide +kernel

theorem witness_BitrateTakesThePath :
    (16000000 / 62992 % 2 = 0 ∧ 16000000 / 62992 ≤ 254) ∧ ¬ (16000000 / 62500 % 2 = 0 ∧ 16000000 / 62500 ≤ 254) := by
  decide

theorem witness_IllegalPairsAreTwoCases :
    16000000 / 16000001 = 0 ∧ 257 ≤ 16000000 / 62256 ∧ legalPair (bitrate 16000000 62256) = false ∧
      legalPair (bitrate 16000000 62500) = true := by decide +kernel

theorem witness_BitrateCalcAnswersThePair :
    (fresh (params (only0 k0))).fault = none ∧ (0xFFFFFFFF : PortWord) ≠ 0 := by decide +kernel

theorem witness_BitratePairFitsThePort : 2 ^ 32 - 1 < 2 ^ 32 ∧ (bitrate (2 ^ 32 - 1) 1).2 = 2 ^ 32 - 2 := by
  decide +kernel

theorem witness_AchievedRate :
    bitrate 16000000 62992 = (254, 0) ∧ legalPair (254, 0) = true ∧ 16000000 / 62992 = 254 ∧
      bitrate 16000000 62500 = (2, 255) ∧ legalPair (2, 255) = true ∧ 16000000 / 62500 = 256 := by decide +kernel

/-- The two faults of ChecksFirst, for the obligations that name it. -/
theorem witness_ChecksFirst :
    (fresh (params (only0 k0))).fault = none ∧ (fresh (params (only0 k0))).inited = false ∧ s0.fault = none ∧
      s0.inited = true ∧ s0.params.cfg[(3 : Chan)] = none := by decide +kernel

theorem witness_EnableIrqClearsConfiguredMasks :
    (ready (params (only0 k4))).fault = none ∧ (ready (params (only0 k4))).inited = true ∧
      (ready (params (only0 k4))).params.cfg[(0 : Chan)] = some k4 := by decide +kernel

theorem witness_DisableIrqSetsAllMasks : Accepts 0 s0 := by decide +kernel

/-- 17 words against 16; Busy under Reject; 16 words on a Busy channel under Accept, and on an Idle one under Reject. -/
theorem witness_WriteIbLoadsTheBuffer :
    Accepts 0 s0 ∧ s0.params.txCap < (List.replicate 17 (0 : Word)).length ∧
      (List.replicate 16 (0 : Word)).length ≤ s0.params.txCap ∧ s0.params.writeWhileBusy = .accept ∧
      Accepts 0 (ready { params (only0 k0) with writeWhileBusy := .reject }) ∧
      (loaded 0 [1] 0 .busy (ready { params (only0 k0) with writeWhileBusy := .reject })).ch[(0 : Chan)].status = .busy ∧
      (ready { params (only0 k0) with writeWhileBusy := .reject }).ch[(0 : Chan)].status = .idle := by decide +kernel

/-- A channel record of the parameters `params` with its first `n` and `m` slots written is sound. -/
theorem channelSound_of {cfg : Vector (Option CfgEntry) 4} {x : Channel} (h1 : x.txBuf.length = 16)
    (h2 : x.rxBuf.length = 16) (h3 : x.txIdx ≤ x.txLen) (h4 : x.txLen ≤ 16) (h5 : x.rxIdx ≤ 16)
    (h6 : ∀ i, i < x.txLen → (slotAt x.txBuf i).isSome = true)
    (h7 : ∀ i, i < x.rxIdx → (slotAt x.rxBuf i).isSome = true) : ChannelSound (params cfg) x :=
  ⟨h1, h2, h3, h4, h5, h6, h7⟩

theorem witness_ReadIbReturnsTheReceivedWords :
    Accepts 0 s0 ∧ s0.params.readMode = .counted ∧ s0.ch[(0 : Chan)].rxIdx = 0 ∧ s0.params.rxCap ≤ 255 ∧
      (received 0 (List.replicate 16 5) 16 s0).ch[(0 : Chan)].rxIdx ≠ 0 ∧
      Accepts 0 (received 0 (List.replicate 16 5) 16 s0) ∧
      ChannelSound (params (only0 k0)) (received 0 (List.replicate 16 5) 16 s0).ch[(0 : Chan)] :=
  ⟨by decide +kernel, by decide +kernel, by decide +kernel, by decide +kernel, by decide +kernel, by decide +kernel,
    channelSound_of (by decide +kernel) (by decide +kernel) (by decide +kernel) (by decide +kernel) (by decide +kernel)
      (by decide +kernel) (by decide +kernel)⟩

/-- The sentinel in slot 2, an unwritten slot 2, and 16 words with no sentinel (B6.6, B6.8, B6.9). -/
theorem witness_ReadIbScansToTheSentinel :
    Accepts 0 (ready { params (only0 k0) with readMode := .sentinel }) ∧
      (ready { params (only0 k0) with readMode := .sentinel }).ch[(0 : Chan)].rxIdx = 0 ∧
      (0xFFFF : Word) ∉ ([1, 2] : List Word) ∧ (0xFFFF : Word) ∉ List.replicate 16 (9 : Word) ∧
      (∀ j, j < 2 → slotAt (received 0 [1, 2, 0xFFFF, 4] 4 s0).ch[(0 : Chan)].rxBuf j = ([1, 2] : List Word)[j]?) ∧
      slotAt (received 0 [1, 2, 0xFFFF, 4] 4 s0).ch[(0 : Chan)].rxBuf 2 = some 0xFFFF ∧
      slotAt (received 0 [1, 2] 2 s0).ch[(0 : Chan)].rxBuf 2 = none ∧
      (∀ j, j < 16 → slotAt (received 0 (List.replicate 16 9) 16 s0).ch[(0 : Chan)].rxBuf j =
        (List.replicate 16 (9 : Word))[j]?) := by decide +kernel

theorem witness_GetStatusReportsTheStatus :
    Accepts 0 s0 ∧ s0.ch[(0 : Chan)].status = .idle ∧ Accepts 0 (loaded 0 [1] 0 .busy s0) ∧
      (loaded 0 [1] 0 .busy s0).ch[(0 : Chan)].status = .busy := by decide +kernel

theorem witness_SyncTxIssues :
    Accepts 0 (loaded 0 [1] 1 .busy s0) ∧ (loaded 0 [1] 1 .busy s0).ch[(0 : Chan)].status = .busy ∧
      Accepts 0 (loaded 0 [1] 1 .idle s0) ∧ (loaded 0 [1] 1 .idle s0).ch[(0 : Chan)].status = .idle := by decide +kernel

/-- The last word, and the index just past it. -/
theorem witness_SyncTxWritesOrCompletes :
    let s := turning [.sequencer] (syncing 0 2 .write 0 (loaded 0 [1, 2, 3] 2 .busy s0))
    let t := turning [.sequencer] (syncing 0 3 .write 0 (loaded 0 [1, 2, 3] 3 .busy s0))
    s.fault = none ∧ s.nextTurn = .sequencer ∧ s.seq = .syncTx 0 2 .write 0 ∧ 2 < s.ch[(0 : Chan)].txLen ∧
      slotAt s.ch[(0 : Chan)].txBuf 2 = some 3 ∧
      t.fault = none ∧ t.nextTurn = .sequencer ∧ t.seq = .syncTx 0 3 .write 0 ∧ t.ch[(0 : Chan)].txLen ≤ 3 := by
  decide +kernel

/-- Under the timeout 3: a BSY read of 0; of 1 with a poll to spare; and of 1 with the count reaching 3. -/
theorem witness_SyncTxWaitsForBusy :
    let s (polls : Nat) (bsy : Word) := turning [.sequencer] (drawing [bsy] (syncing 0 1 .wait polls
      (loaded 0 [1, 2, 3] 2 .busy (ready { params (only0 k0) with syncTimeout := some 3 }))))
    (s 0 0xFFFE).fault = none ∧ (s 0 0xFFFE).nextTurn = .sequencer ∧ (s 0 0xFFFE).seq = .syncTx 0 1 .wait 0 ∧
      (s 0 0xFFFE).nextDraw.getLsbD 0 = false ∧
      (s 1 1).seq = .syncTx 0 1 .wait 1 ∧ (s 1 1).nextDraw.getLsbD 0 = true ∧
      (∀ n, (s 1 1).params.syncTimeout = some n → 1 + 1 < n) ∧
      (s 2 1).seq = .syncTx 0 1 .wait 2 ∧ (s 2 1).nextDraw.getLsbD 0 = true ∧
      (s 2 1).params.syncTimeout = some 3 ∧ 3 ≤ 2 + 1 := by
  refine ⟨by decide +kernel, by decide +kernel, by decide +kernel, by decide +kernel, by decide +kernel,
    by decide +kernel, fun n h => ?_, by decide +kernel, by decide +kernel, by decide +kernel, by omega⟩
  obtain rfl : 3 = n := Option.some.inj h
  omega

/-- P1's send: BSY reads 1, 0 / 0 / 1, 1, 0. -/
theorem witness_SyncTxSendsTheBuffer :
    let s := turning (List.replicate 10 .sequencer) (drawing [1, 0, 0, 1, 1, 0]
      (syncing 0 0 .write 0 (loaded 0 [0x11, 0x22, 0x33] 0 .busy
        (ready { params (only0 k0) with syncTimeout := some 3 }))))
    s.fault = none ∧ s.seq = .syncTx 0 0 .write 0 ∧
      s.ch[(0 : Chan)].txLen = ([0x11, 0x22, 0x33] : List Word).length ∧
      (∀ j, j < 3 → slotAt s.ch[(0 : Chan)].txBuf j = ([0x11, 0x22, 0x33] : List Word)[j]?) ∧
      ([1, 0, 2] : List Nat).length = 3 ∧ s.params.syncTimeout = some 3 ∧ (∀ k ∈ ([1, 0, 2] : List Nat), k < 3) ∧
      s.turns = List.replicate (2 * 3 + ([1, 0, 2] : List Nat).sum + 1) .sequencer ++ [] ∧
      s.draws = ([1, 0, 2] : List Nat).flatMap (fun k => List.replicate k 1 ++ [0]) ++ [] := by decide +kernel

theorem witness_SyncTxHangsOnAStuckBusyFlag :
    let s := turning (List.replicate 5 .sequencer) (drawing (List.replicate 5 1) sMid)
    s.fault = none ∧ s.seq = .syncTx 0 1 .wait 0 ∧ s.params.syncTimeout = none ∧ s.context = .mainline ∧
      s.turns = List.replicate 5 .sequencer ++ [] ∧ s.draws = List.replicate 5 1 ++ [] := by decide +kernel

theorem witness_AsyncTxSendsOneWord :
    Accepts 0 (loaded 0 [4] 1 .busy s0) ∧ Accepts 0 (loaded 0 [4] 1 .idle s0) ∧
      (loaded 0 [4] 1 .idle s0).ch[(0 : Chan)].txLen ≤ (loaded 0 [4] 1 .idle s0).ch[(0 : Chan)].txIdx ∧
      Accepts 0 (loaded 0 [4] 0 .idle s0) ∧
      (loaded 0 [4] 0 .idle s0).ch[(0 : Chan)].txIdx < (loaded 0 [4] 0 .idle s0).ch[(0 : Chan)].txLen ∧
      slotAt (loaded 0 [4] 0 .idle s0).ch[(0 : Chan)].txBuf 0 = some 4 := by decide +kernel

/-- Words 8 and 9 of 7, 8, 9, 10 and then a full FIFO; and 8 and 9 of 7, 8, 9. -/
theorem witness_TxDrainSendsUntilFullOrDone :
    let s := drawing [1, 1, 0] (loaded 0 [7, 8, 9, 10] 1 .idle s0)
    let t := drawing [1, 1] (loaded 0 [7, 8, 9] 1 .busy s0)
    Accepts 0 s ∧ (∀ j, j < 2 → slotAt s.ch[(0 : Chan)].txBuf (s.ch[(0 : Chan)].txIdx + j) = ([8, 9] : List Word)[j]?) ∧
      s.ch[(0 : Chan)].txIdx + 2 < s.ch[(0 : Chan)].txLen ∧ s.draws = List.replicate 2 1 ++ 0 :: [] ∧
      Accepts 0 t ∧ (∀ j, j < 2 → slotAt t.ch[(0 : Chan)].txBuf (t.ch[(0 : Chan)].txIdx + j) = ([8, 9] : List Word)[j]?) ∧
      t.ch[(0 : Chan)].txIdx + 2 = t.ch[(0 : Chan)].txLen ∧ t.draws = List.replicate 2 1 ++ [] := by decide +kernel

/-- The channel of a state at most three transmit words deep, as the two outcomes of a drain need it. -/
theorem witness_DrainEndsPartialOrComplete :
    ChannelSound s0.params (loaded 0 [7, 8, 9] 1 .busy s0).ch[(0 : Chan)] ∧
      (match drain 0 (drawing [1, 0] (loaded 0 [7, 8, 9] 1 .busy s0)) with
        | .ok t => t.ch[(0 : Chan)].status = .busy
        | .error _ => False) ∧
      (match drain 0 (drawing [1, 1] (loaded 0 [7, 8, 9] 1 .busy s0)) with
        | .ok t => t.ch[(0 : Chan)].status = .idle
        | .error _ => False) :=
  ⟨channelSound_of (by decide +kernel) (by decide +kernel) (by decide +kernel) (by decide +kernel) (by decide +kernel)
    (by decide +kernel) (by decide +kernel), by rfl, by rfl⟩

/-- Room for two words and one received; and one place left and one word received. -/
theorem witness_RxDrainStoresUntilEmptyOrFull :
    let s := drawing [1, 0x77, 0] (received 0 (List.replicate 14 5) 14 s0)
    let t := drawing [1, 0x77] (received 0 (List.replicate 15 5) 15 s0)
    s.ch[(0 : Chan)].rxBuf.length = s.params.rxCap ∧ s.ch[(0 : Chan)].rxIdx + 1 < s.params.rxCap ∧
      s.draws = ([0x77] : List Word).flatMap (fun w => [1, w]) ++ 0 :: [] ∧
      t.ch[(0 : Chan)].rxBuf.length = t.params.rxCap ∧ t.ch[(0 : Chan)].rxIdx + 1 = t.params.rxCap ∧
      t.draws = ([0x77] : List Word).flatMap (fun w => [1, w]) ++ [] := by decide +kernel

/-- Every branch at once: all four sources enabled, and MIS drawn as 0b1111. -/
theorem witness_IrqEntryRunsThePendingBranches :
    let s := drawing [0xF, 1, 0, 0] ((loaded 0 [7, 8] 0 .idle s0).setPhy 0
      { Shadow.reset with imTx := 0, imRx := 0, imRt := 0, imRor := 0 })
    Accepts 0 s ∧ s.params.isrMode = .filled ∧ legalDraw s.phy[(0 : Chan)] .mis s.nextDraw = 0xF ∧
      ChannelSound s.params s.ch[(0 : Chan)] :=
  ⟨by decide +kernel, by decide +kernel, by decide +kernel,
    channelSound_of (by decide +kernel) (by decide +kernel) (by decide +kernel) (by decide +kernel) (by decide +kernel)
      (by decide +kernel) (by decide +kernel)⟩

/-- Masked sources whatever the draw; and the stub handler with a pending source. -/
theorem witness_IrqEntryIdleOrStubOnlyReadsMis :
    let s := drawing [0xFFFF] s0
    let t := drawing [8] (txEnabled 0 (ready { params (only0 k6) with isrMode := .stub }))
    Accepts 0 s ∧ legalDraw s.phy[(0 : Chan)] .mis s.nextDraw = 0 ∧
      Accepts 0 t ∧ legalDraw t.phy[(0 : Chan)] .mis t.nextDraw = 8 ∧ t.params.isrMode = .stub := by decide +kernel

theorem witness_IrqEntryLeavesTheInterruptedTransfer :
    let s := enterInterrupt (drawing [0] sMid)
    after (exec (.irqEntry 0) s) (fun t => (t.fault, t.seq)) = some (none, .syncTx 0 1 .wait 0) ∧
      s.context = .interrupt := by decide +kernel

theorem witness_ResponseEndsItsCommand :
    s0.context = .mainline ∧ (enterInterrupt s0).context = .interrupt := by decide +kernel

/-- The largest MIS value a unit with TX alone enabled may show, and the largest DR value. -/
theorem witness_ReadsDrawExactlyTheLegalValues :
    let p := { Shadow.reset with imTx := 0 }
    (0x8 : Word).toNat < 2 ^ fieldWidth .mis ∧ p.imRx = 1 ∧ (0x8 : Word).getLsbD 2 = false ∧ p.imRt = 1 ∧
      (0x8 : Word).getLsbD 1 = false ∧ p.imRor = 1 ∧ (0x8 : Word).getLsbD 0 = false ∧ p.imTx ≠ 1 ∧
      (0xFFFF : Word).toNat < 2 ^ fieldWidth .dr ∧ Shadow.reset.imTx = 1 := by decide

theorem witness_StepsAppendLegalAccesses :
    after (step sMid) (·.hist) = some [.read 0 .bsy 0] := by decide +kernel

theorem witness_StepsKeepTheShadows :
    ShadowsMatch { s0.setPhy 0 { Shadow.reset with sse := some 1, imTx := 0 } with
      hist := [.write 0 .sse 0, .write 0 .sse 1, .write 0 .imTx 0], turns := [.host] } ∧
    (nextOf (step { s0.setPhy 0 { Shadow.reset with sse := some 1, imTx := 0 } with
      hist := [.write 0 .sse 0, .write 0 .sse 1, .write 0 .imTx 0], turns := [.host] })).isSome = true :=
  ⟨by unfold ShadowsMatch; decide +kernel, by decide +kernel⟩

/-- A unit disabled and then configured; a command that is not INIT; and a micro-step of SYNC_TX. -/
theorem witness_ConfigWritesOnlyWhileDisabled :
    ConfigWritesSafe [.write 0 .sse 0, .write 0 .ms 1] ∧
    (nextOf (step { s0 with hist := [.write 0 .sse 0, .write 0 .ms 1], turns := [.host] })).isSome = true ∧
    (nextOf (exec (.disableIrq 0) s0)).isSome = true ∧
    (nextOf (step sMid)).isSome = true ∧ ∀ s' : State, fetch sMid ≠ .command .init s' := by
  refine ⟨?_, by decide +kernel, by decide +kernel, by decide +kernel, fun s' h => ?_⟩
  case refine_2 =>
    simp [fetch, sMid, turning, drawing, syncing, loaded, s0, ready, State.resetWith, State.setCh, State.setPhy,
      State.nextTurn] at h
  intro pre u f v post h hf
  match pre, h with
  | [], h => simp only [List.nil_append, List.cons.injEq, Event.write.injEq] at h; rw [← h.1.2.1] at hf; simp [fieldConfig] at hf
  | [a], h =>
    simp only [List.cons_append, List.nil_append, List.cons.injEq, Event.write.injEq] at h
    obtain ⟨rfl, ⟨rfl, rfl, rfl⟩, -⟩ := h
    decide
  | a :: b :: l, h =>
    have := congrArg List.length h
    simp at this

/-- A SYNC_TX in the middle of its transfer. -/
theorem sound_sMid : Sound sMid where
  channels c := by
    refine channelSound_of (cfg := only0 k0) ?_ ?_ ?_ ?_ ?_ ?_ ?_
    · revert c; decide +kernel
    · revert c; decide +kernel
    · revert c; decide +kernel
    · revert c; decide +kernel
    · revert c; decide +kernel
    · revert c; decide +kernel
    · revert c; decide +kernel
  seq := ⟨by decide +kernel, by decide +kernel, by decide +kernel, by decide +kernel⟩
  busy := by intro c; revert c; decide +kernel
  masks := by
    intro u
    refine ⟨fun h => ?_, fun h => ?_, fun h => ?_, fun h => ?_⟩ <;> (exfalso; revert h; revert u; decide +kernel)
  units := by intro u; revert u; decide +kernel
  mainline := by decide +kernel

theorem witness_StepsKeepTheMachineSound : Sound sMid ∧ (nextOf (step sMid)).isSome = true :=
  ⟨sound_sMid, by decide +kernel⟩

theorem witness_ParametersNeverChange :
    (nextOf (step sMid)).isSome = true ∧ (nextOf (exec .init s0)).isSome = true := by decide +kernel

theorem witness_CommandsWriteOnlyTheirFields :
    (nextOf (exec (.syncTx 0) s0)).isSome = true ∧
      (nextOf (exec (.irqEntry 0) (drawing [0] s0))).isSome = true := by decide +kernel

theorem witness_CommandsLeaveOtherChannels :
    (Instr.enableIrq 0).chan? = some 0 ∧ (3 : Chan) ≠ 0 ∧ (nextOf (exec (.enableIrq 0) s0)).isSome = true := by
  decide +kernel

theorem witness_CommandsDoNotSeeOtherChannels :
    (Instr.txDrain 0).chan? = some 0 ∧ (3 : Chan) ≠ 0 ∧
      (nextOf (exec (.txDrain 0) (drawing [1, 0] (loaded 0 [7, 8] 0 .idle s0)))).isSome = true := by decide +kernel

theorem witness_OnlyLoadedWordsAreSent :
    after (step (turning [.sequencer] (syncing 0 0 .write 0 (loaded 0 [7] 0 .busy s0))))
      (fun t => decide (Event.write 0 .dr 7 ∈ t.hist)) = some true := by decide +kernel

/-- A command that answers, and one that does not yet. -/
theorem witness_CommandsAnswerOnce :
    after (exec (.disableIrq 0) s0) (·.fault) = some none ∧
      after (exec (.syncTx 0) s0) (fun t => (t.fault, t.hist)) = some (none, []) := by decide +kernel

theorem witness_FaultsKeepTheStartState :
    after (exec (.asyncTx 0) s0) (·.fault) = some (some (.cursorOverrun 0 0 0)) := by decide +kernel

/-- The failures a command's first step may answer with, and a command that meets none. -/
theorem witness_FailuresOnlyAnswer :
    failureOf (.writeIb 0 (List.replicate 17 0)) s0 = some .capacityExceeded ∧
      failureOf (.writeIb 0 [1]) (loaded 0 [1] 0 .busy (ready { params (only0 k0) with writeWhileBusy := .reject })) =
        some .writeWhileBusy ∧
      failureOf (.readIb 0) s0 = some .noData ∧ failureOf (.asyncTx 0) (loaded 0 [1] 1 .busy s0) = some .notIdle ∧
      failureOf (.getStatus 0) s0 = none ∧ Accepts 0 s0 := by decide +kernel

theorem witness_EndedMaskedRunsAreStable :
    Ended (turning [.dispatcher 0] s0) ∧ AllMasked (turning [.dispatcher 0] s0) ∧
      (turning [.dispatcher 0] s0).context = .mainline ∧ (nextOf (step (turning [.dispatcher 0] s0))).isSome = true :=
  ⟨⟨by decide +kernel, by decide +kernel, by decide +kernel, by decide +kernel⟩,
    by unfold AllMasked; decide +kernel, by decide +kernel, by decide +kernel⟩

/-- SEND of two words, with a command and a data-in word behind it. -/
theorem witness_SendPseudoSendsTheWords :
    let s := { s0 with
      cmdIn := [0x00000205, 0x00000008, 0x00000004]
      dataIn := [0xA, 0xB, 9]
      turns := .host :: .host :: List.replicate 5 .sequencer
      draws := [0, 0] }
    Accepts 0 s ∧ s.seq = .ready ∧ s.hostPending = none ∧ s.ch[(0 : Chan)].status = .idle ∧
      2 ≤ s.params.txCap ∧ s.params.syncTimeout = none ∧
      s.cmdIn = (expandPseudo (.send 0 [0xA, 0xB])).map encodeWord ++ [0x00000004] ∧
      s.dataIn = (expandPseudo (.send 0 [0xA, 0xB])).flatMap encodePayload ++ [9] ∧
      s.turns = .host :: .host :: List.replicate (2 * 2 + 1) .sequencer ++ [] ∧
      s.draws = List.replicate 2 0 ++ [] := by decide +kernel

end Sys2Proof.Tests
end

section
/-! The parameters and the configuration table are constant (00_scope R10, 20_memory R64). -/

namespace Sys2Proof.Machine

@[simp] theorem syncEnd_params (c : Chan) (r : PortWord) (s : State) : (syncEnd c r s).params = s.params := by
  simp [syncEnd]

@[simp] theorem syncWait_params (c : Chan) (i polls : Nat) (s : State) : (syncWait c i polls s).params = s.params := by
  obtain ⟨q, h⟩ | h := syncWait_cases c i polls s <;> simp [h]

theorem ran_params {i : Instr} {s t : State} (h : Ran i s t) : t.params = s.params := by
  obtain ⟨f, rfl⟩ | ⟨m, r, data, he, rfl⟩ | ⟨c, -, -, rfl⟩ := h
  · exact raise_params f s
  · rw [respond_params, (effect_kept he).params]
  · simp [issued]

theorem exec_params {i : Instr} {s t : State} (h : exec i s = .next t) : t.params = s.params := by
  obtain ⟨-, ⟨f, rfl⟩ | ⟨-, hr⟩⟩ := exec_next h
  · exact raise_params f s
  · exact ran_params hr

theorem step_params {s t : State} (h : step s = .next t) : t.params = s.params := by
  obtain ⟨-, hstep⟩ := step_next h
  cases hstep with
  | hold h => simp [h]
  | illegal w words _ _ _ h => simp [h, answerIllegal, takeWord]
  | host i w words rest _ _ _ _ h => simpa [issue, takeWord] using exec_params h
  | dispatcher u _ _ h => simpa using exec_params h
  | completed c i polls _ _ h => simp [h]
  | unwritten c i polls _ _ _ h => simp [h]
  | wrote c i polls m _ hi hw h =>
    have hm := (sendWord_acts (by simpa using hi) hw).framed.params
    simpa [h] using hm
  | waited c i polls _ h => simp [h]

/-- Settles O47: each case of a step or of a command is a chain of the state's own operations, and none of them writes
`params`. -/
theorem parametersNeverChange : Obligations.ParametersNeverChange :=
  ⟨fun _ _ => step_params, fun _ _ _ => exec_params⟩

end Sys2Proof.Machine
end

section
/-! The shadows follow the history (10_state R32, R33, 20_memory R55). -/

namespace Sys2Proof.Machine

theorem lastWrite_write (u d : Chan) (f g : Field) (v : Word) (h : List Event) :
    lastWrite u f (h ++ [.write d g v]) = if d = u ∧ g = f then some v else lastWrite u f h := by
  simp [lastWrite, List.foldl_append]

@[simp] theorem lastWrite_read (u d : Chan) (f g : Field) (v : Word) (h : List Event) :
    lastWrite u f (h ++ [.read d g v]) = lastWrite u f h := by
  simp [lastWrite, List.foldl_append]

@[simp] theorem lastWrite_rsp (u : Chan) (f : Field) (op : Op) (r : PortWord) (data : List PortWord) (h : List Event) :
    lastWrite u f (h ++ [.rsp op r data]) = lastWrite u f h := by
  simp [lastWrite, List.foldl_append]

/-- The shadows of unit `u` that a history gives: the last value written to each field, and before any write the value of
reset. -/
def shadowOf (u : Chan) (h : List Event) : Shadow where
  sse := (lastWrite u .sse h).map (·.setWidth 1)
  ms := (lastWrite u .ms h).map (·.setWidth 1)
  lbm := (lastWrite u .lbm h).map (·.setWidth 1)
  eot := (lastWrite u .eot h).map (·.setWidth 1)
  cs := (lastWrite u .cs h).map (·.setWidth 4)
  cpsdvsr := (lastWrite u .cpsdvsr h).map (·.setWidth 8)
  scr := (lastWrite u .scr h).map (·.setWidth 8)
  sph := (lastWrite u .sph h).map (·.setWidth 1)
  spo := (lastWrite u .spo h).map (·.setWidth 1)
  frf := (lastWrite u .frf h).map (·.setWidth 2)
  dss := (lastWrite u .dss h).map (·.setWidth 4)
  imTx := ((lastWrite u .imTx h).map (·.setWidth 1)).getD 1
  imRx := ((lastWrite u .imRx h).map (·.setWidth 1)).getD 1
  imRt := ((lastWrite u .imRt h).map (·.setWidth 1)).getD 1
  imRor := ((lastWrite u .imRor h).map (·.setWidth 1)).getD 1

theorem shadowsMatch_iff (s : State) : ShadowsMatch s ↔ ∀ u : Chan, s.phy[u] = shadowOf u s.hist := by
  unfold ShadowsMatch
  refine forall_congr' fun u => ?_
  rw [shadowOf]
  generalize s.phy[u] = p
  cases p
  simp only [Shadow.mk.injEq]

/-- What a write adds to the history is what it makes of the shadow. -/
theorem shadowOf_write (u : Chan) (f : Field) (v : Word) (h : List Event) :
    shadowOf u (h ++ [.write u f v]) = shadowWrite f v (shadowOf u h) := by
  cases f <;> simp [shadowOf, shadowWrite, lastWrite_write]

theorem shadowOf_write_ne {u d : Chan} (hne : d ≠ u) (f : Field) (v : Word) (h : List Event) :
    shadowOf u (h ++ [.write d f v]) = shadowOf u h := by
  simp [shadowOf, lastWrite_write, hne]

@[simp] theorem shadowOf_read (u d : Chan) (f : Field) (v : Word) (h : List Event) :
    shadowOf u (h ++ [.read d f v]) = shadowOf u h := by
  simp [shadowOf]

@[simp] theorem shadowOf_rsp (u : Chan) (op : Op) (r : PortWord) (data : List PortWord) (h : List Event) :
    shadowOf u (h ++ [.rsp op r data]) = shadowOf u h := by
  simp [shadowOf]

theorem shadowsMatch_phyWrite (u : Chan) (f : Field) (v : Word) (s : State) (hs : ShadowsMatch s) :
    ShadowsMatch (phyWrite u f v s) := by
  rw [shadowsMatch_iff] at hs ⊢
  intro d
  rw [phyWrite_phy, phyWrite_hist]
  by_cases hd : d = u
  · subst hd
    rw [shadowOf_write, ← hs d]
    simp
  · rw [get_set_ne _ _ hd, shadowOf_write_ne (Ne.symm hd), hs d]

theorem shadowsMatch_stable : Stable ShadowsMatch where
  write := shadowsMatch_phyWrite
  read u f s hs := by
    rw [shadowsMatch_iff] at hs ⊢
    simpa using hs
  respond op r data s hs := by
    rw [shadowsMatch_iff] at hs ⊢
    simpa using hs
  same s t hp hh hs := by
    rw [shadowsMatch_iff] at hs ⊢
    rwa [hp, hh]

/-- Settles O41: a write puts its value in the history and in the shadow alike, no other event bears on either, and a step
is made of such operations. -/
theorem stepsKeepTheShadows : Obligations.StepsKeepTheShadows :=
  fun _ _ => shadowsMatch_stable.step

end Sys2Proof.Machine
end

section
/-! The parts of the machine's invariant, channel by channel. -/

namespace Sys2Proof.Machine

/-! ### Events that read no TNF -/

theorem lastRead_write (u d : Chan) (f g : Field) (v : Word) (h : List Event) :
    lastRead u f (h ++ [.write d g v]) = lastRead u f h :=
  lastRead_append h _ (by simp)

theorem lastRead_rsp (u : Chan) (f : Field) (op : Op) (r : PortWord) (data : List PortWord) (h : List Event) :
    lastRead u f (h ++ [.rsp op r data]) = lastRead u f h :=
  lastRead_append h _ (by simp)

theorem Framed.lastRead_ne {c d : Chan} {s t : State} (h : Framed c s t) (hd : d ≠ c) (f : Field) :
    lastRead d f t.hist = lastRead d f s.hist := by
  obtain ⟨es, hes, hacc⟩ := h.hist
  rw [hes]
  refine lastRead_append _ _ fun e he v hev => ?_
  have hunit := (hacc e he).1
  rw [hev] at hunit
  exact hd (Option.some.inj hunit)

theorem phyWrites_lastRead (u d : Chan) (f : Field) (ws : List (Field × Word)) (s : State) :
    lastRead u f (phyWrites d ws s).hist = lastRead u f s.hist := by
  induction ws generalizing s with
  | nil => rfl
  | cons fv ws ih => rw [phyWrites_cons, ih, phyWrite_hist, lastRead_write]

/-- A receive drain reads RNE and DR alone (43_transfer R170). -/
theorem rxDrainLoop_lastTnf (c : Chan) (n : Nat) (s : State) :
    lastRead c .tnf (rxDrainLoop c n s).hist = lastRead c .tnf s.hist := by
  induction n generalizing s with
  | zero => rfl
  | succ n ih =>
    have read : ∀ (f : Field) (x : State), f ≠ .tnf →
        lastRead c .tnf (phyRead c f x).hist = lastRead c .tnf x.hist := fun f x hf => by
      rw [phyRead_hist, lastRead_read_ne _ _ (.inr hf)]
    simp only [rxDrainLoop]
    split
    · exact read _ _ (by decide)
    · rw [ih, storeRx_hist, read _ _ (by decide), read _ _ (by decide)]

theorem rxBranches_lastTnf (u : Chan) (m : Word) (s : State) :
    lastRead u .tnf (rorBranch u m (rtBranch u m (rxBranch u m s))).hist = lastRead u .tnf s.hist := by
  have rx : ∀ x, lastRead u .tnf (rxBranch u m x).hist = lastRead u .tnf x.hist := fun x => by
    unfold rxBranch
    split
    · exact rxDrainLoop_lastTnf u _ x
    · rfl
  have rt : ∀ x, lastRead u .tnf (rtBranch u m x).hist = lastRead u .tnf x.hist := fun x => by
    unfold rtBranch
    split
    · rw [phyWrite_hist, lastRead_write]
      exact rxDrainLoop_lastTnf u _ x
    · rfl
  have ror : ∀ x, lastRead u .tnf (rorBranch u m x).hist = lastRead u .tnf x.hist := fun x => by
    unfold rorBranch
    split
    · rw [phyWrite_hist, lastRead_write]
    · rfl
  rw [ror, rt, rx]

/-- The branches of an entry that does not fault: the transmit drain or nothing, then the others. -/
theorem irqBranches_cases {u : Chan} {m : Word} {s t : State} (h : irqBranches u m s = .ok t) :
    ∃ x, (x = s ∨ drain u s = .ok x) ∧ t = rorBranch u m (rtBranch u m (rxBranch u m x)) := by
  unfold irqBranches at h
  split at h
  · exact absurd h (by simp)
  · exact ⟨_, txBranch_ok ‹_›, (Except.ok.inj h).symm⟩

/-! ### The invariant at one channel -/

/-- The enabled sources of a unit with shadow `x` are configured ones, and INIT has run: `MasksSound` at one unit. -/
def UnitMasks (s : State) (u : Chan) (x : Shadow) : Prop :=
  (x.imRor = 0 → s.inited = true ∧ ∃ e, s.params.cfg[u] = some e ∧ e.ieRor = 1) ∧
  (x.imRt = 0 → s.inited = true ∧ ∃ e, s.params.cfg[u] = some e ∧ e.ieRt = 1) ∧
  (x.imRx = 0 → s.inited = true ∧ ∃ e, s.params.cfg[u] = some e ∧ e.ieRx = 1) ∧
  (x.imTx = 0 → s.inited = true ∧ ∃ e, s.params.cfg[u] = some e ∧ e.ieTx = 1)

/-- The parts of `Sound` that speak of channel `c` and its unit, whoever's command is run. -/
structure SoundAt (c : Chan) (s : State) : Prop where
  channel : ChannelSound s.params s.ch[c]
  busy : s.ch[c].status = .busy → inSync c s = true ∨ lastRead c .tnf s.hist = some 0
  masks : UnitMasks s c s.phy[c]
  unit : s.phy[c].sse = if s.inited = true ∧ s.params.cfg[c].isSome = true then some 1 else none

theorem sound_iff (s : State) : Sound s ↔ (∀ c, SoundAt c s) ∧ SeqSound s ∧ s.context = .mainline := by
  constructor
  · rintro ⟨channels, seq, busy, masks, units, mainline⟩
    exact ⟨fun c => ⟨channels c, busy c, masks c, units c⟩, seq, mainline⟩
  · rintro ⟨hs, seq, mainline⟩
    exact ⟨fun c => (hs c).channel, seq, fun c => (hs c).busy, fun c => (hs c).masks, fun c => (hs c).unit, mainline⟩

/-- The invariant at a channel reads its record, its shadows, its last TNF and whether it is in a SYNC_TX. -/
theorem SoundAt.congr {c : Chan} {s t : State} (hs : SoundAt c s) (hparams : t.params = s.params)
    (hinited : t.inited = s.inited) (hch : t.ch[c] = s.ch[c]) (hphy : t.phy[c] = s.phy[c])
    (hread : lastRead c .tnf t.hist = lastRead c .tnf s.hist) (hsync : inSync c s = true → inSync c t = true) :
    SoundAt c t where
  channel := by rw [hparams, hch]; exact hs.channel
  busy := by
    rw [hch, hread]
    exact fun hb => (hs.busy hb).imp_left hsync
  masks := by
    unfold UnitMasks
    rw [hparams, hinited, hphy]
    exact hs.masks
  unit := by rw [hparams, hinited, hphy]; exact hs.unit

theorem inSync_congr {c : Chan} {s t : State} (h : t.seq = s.seq) : inSync c t = inSync c s := by
  unfold inSync
  rw [h]

/-- Work on one channel keeps the invariant at every other. -/
theorem Framed.soundAt_ne {c d : Chan} {s t : State} (h : Framed c s t) (hd : d ≠ c) (hs : SoundAt d s) : SoundAt d t :=
  hs.congr h.params h.inited (h.ch d hd) (h.phy d hd) (h.lastRead_ne hd _) fun k => (inSync_congr h.seq).trans k

/-- Work on channel `c` keeps the invariant there when it leaves the record sound, Busy only for cause, and the masks
sound. -/
theorem Framed.soundAt {c : Chan} {s t : State} (h : Framed c s t) (hs : SoundAt c s)
    (hchannel : ChannelSound s.params t.ch[c])
    (hbusy : t.ch[c].status = .busy → inSync c s = true ∨ lastRead c .tnf t.hist = some 0)
    (hmasks : UnitMasks s c t.phy[c]) : SoundAt c t where
  channel := by rw [h.params]; exact hchannel
  busy := by rw [inSync_congr h.seq]; exact hbusy
  masks := by
    unfold UnitMasks
    rw [h.params, h.inited]
    exact hmasks
  unit := by
    rw [h.config, h.params, h.inited]
    exact hs.unit

theorem unitMasks_masked (s : State) (u : Chan) (x : Shadow) : UnitMasks s u (masked x) := by
  simp [UnitMasks, masked]

/-! ### Records -/

theorem ChannelSound.setStatus {p : Params} {x : Channel} (h : ChannelSound p x) (st : Status) :
    ChannelSound p { x with status := st } := { h with }

theorem ChannelSound.setTxIdx {p : Params} {x : Channel} (h : ChannelSound p x) {k : Nat} (hk : k ≤ x.txLen) :
    ChannelSound p { x with txIdx := k } := { h with txIdx_le := hk }

theorem ChannelSound.clearRx {p : Params} {x : Channel} (h : ChannelSound p x) : ChannelSound p { x with rxIdx := 0 } :=
  { h with rxIdx_le := Nat.zero_le _, rx_written := fun _ hi => absurd hi (Nat.not_lt_zero _) }

theorem ChannelSound.load {p : Params} {x : Channel} (h : ChannelSound p x) {words : List Word}
    (hw : words.length ≤ p.txCap) : ChannelSound p (loadTx words x) :=
  { h with
    txBuf_length := (loadSlots_length _ _ (h.txBuf_length ▸ hw)).trans h.txBuf_length
    txIdx_le := Nat.zero_le _
    txLen_le := hw
    tx_written := fun i (hi : i < words.length) => by
      simp [loadTx, slotAt_loadSlots, hi] }

theorem ChannelSound.received {p : Params} {x y : Channel} (h : ChannelSound p x) (k : Received p.rxCap x y) :
    ChannelSound p y where
  txBuf_length := k.txBuf ▸ h.txBuf_length
  rxBuf_length := k.length.trans h.rxBuf_length
  txIdx_le := by rw [k.txIdx, k.txLen]; exact h.txIdx_le
  txLen_le := k.txLen ▸ h.txLen_le
  rxIdx_le := k.le_cap h.rxIdx_le
  tx_written := by rw [k.txBuf, k.txLen]; exact h.tx_written
  rx_written := fun i hi => by
    by_cases hx : i < x.rxIdx
    · rw [k.kept i hx]
      exact h.rx_written i hx
    · exact k.written h.rxBuf_length i (Nat.le_of_not_lt hx) hi

/-! ### What each command makes of its channel -/

/-- The shadows after ENABLE_IRQ's writes (41_irq_control R121). -/
def unmasked (e : CfgEntry) (x : Shadow) : Shadow :=
  { x with
    imRor := if e.ieRor = 1 then 0 else x.imRor
    imRt := if e.ieRt = 1 then 0 else x.imRt
    imRx := if e.ieRx = 1 then 0 else x.imRx
    imTx := if e.ieTx = 1 then 0 else x.imTx }

theorem enableWrites_phy (c : Chan) (e : CfgEntry) (s : State) :
    (phyWrites c (enableWrites e) s).phy = s.phy.set c (unmasked e s.phy[c]) := by
  rw [phyWrites_eq]
  simp only [enableWrites, List.foldl_append, unmasked]
  congr 1
  split <;> split <;> split <;> split <;> simp [shadowWrite]

theorem phyWrites_ch (c : Chan) (ws : List (Field × Word)) (s : State) : (phyWrites c ws s).ch = s.ch := by
  rw [phyWrites_eq]

theorem unitMasks_unmasked {s : State} {u : Chan} {e : CfgEntry} {x : Shadow} (hi : s.inited = true)
    (he : s.params.cfg[u] = some e) (hx : UnitMasks s u x) : UnitMasks s u (unmasked e x) := by
  have bit : ∀ {flag : CfgEntry → BitVec 1} {b : BitVec 1},
      (b = 0 → s.inited = true ∧ ∃ e, s.params.cfg[u] = some e ∧ flag e = 1) →
      (if flag e = 1 then 0 else b) = 0 → s.inited = true ∧ ∃ e, s.params.cfg[u] = some e ∧ flag e = 1 := by
    intro flag b hb h
    split at h
    · exact ⟨hi, e, he, ‹_›⟩
    · exact hb h
  obtain ⟨hror, hrt, hrx, htx⟩ := hx
  exact ⟨bit hror, bit hrt, bit hrx, bit htx⟩

theorem drain_soundAt {c : Chan} {s t : State} (hs : SoundAt c s) (h : drain c s = .ok t) : SoundAt c t := by
  have frame := (drain_acts h).framed
  obtain ⟨k, hch, -, hk, hphy, hread⟩ | ⟨hch, hphy⟩ := drain_ok h
  · refine frame.soundAt hs ?_ (fun _ => .inr hread) (by rw [hphy]; exact hs.masks)
    rw [hch, Fin.getElem_fin, Vector.getElem_set_self]
    exact (hs.channel.setStatus .busy).setTxIdx (Nat.le_of_lt hk)
  · refine frame.soundAt hs ?_ ?_ ?_
    · rw [hch, Fin.getElem_fin, Vector.getElem_set_self]
      exact (hs.channel.setStatus .idle).setTxIdx (Nat.zero_le _)
    · simp [hch]
    · rw [hphy, Fin.getElem_fin, Vector.getElem_set_self]
      exact unitMasks_masked s c _

theorem rxBranches_acts (u : Chan) (m : Word) (s : State) :
    Acts u s (rorBranch u m (rtBranch u m (rxBranch u m s))) := by
  have rx : ∀ x, Acts u x (rxBranch u m x) := fun x => by
    unfold rxBranch
    split
    · exact rxDrain_acts u x
    · exact .refl
  have rt : ∀ x, Acts u x (rtBranch u m x) := fun x => by
    unfold rtBranch
    split
    · exact (rxDrain_acts u x).write .icrRt 1 rfl rfl (by simp)
    · exact .refl
  have ror : ∀ x, Acts u x (rorBranch u m x) := fun x => by
    unfold rorBranch
    split
    · exact Acts.refl.write .icrRor 1 rfl rfl (by simp)
    · exact .refl
  exact (rx s).trans ((rt _).trans (ror _))

theorem rxBranches_soundAt {u : Chan} (m : Word) {s : State} (hs : SoundAt u s) :
    SoundAt u (rorBranch u m (rtBranch u m (rxBranch u m s))) := by
  obtain ⟨⟨y, hch, hy⟩, hphy⟩ := rxBranches_ok u m s
  have hrec : (rorBranch u m (rtBranch u m (rxBranch u m s))).ch[u] = y := by simp [hch]
  refine (rxBranches_acts u m s).framed.soundAt hs ?_ ?_ ?_
  · exact hrec ▸ hs.channel.received hy
  · rw [hrec, hy.status, rxBranches_lastTnf]
    exact hs.busy
  · rw [hphy]
    exact hs.masks

theorem sendWord_soundAt {c : Chan} {i : Nat} {s t : State} (hs : SoundAt c s) (hi : i < s.ch[c].txLen)
    (h : sendWord c i s = .ok t) : SoundAt c t := by
  have frame := (sendWord_acts hi h).framed
  obtain ⟨w, -, rfl⟩ := sendWord_ok h
  have hrec : (setTxIdx c (i + 1) (phyWrite c .dr w s)).ch[c] = { s.ch[c] with txIdx := i + 1 } := by simp
  refine frame.soundAt hs (hrec ▸ hs.channel.setTxIdx hi) ?_ ?_
  · rw [hrec, setTxIdx_hist, phyWrite_hist, lastRead_write]
    exact hs.busy
  · rw [sent_eq]
    exact hs.masks

theorem phyRead_soundAt {c : Chan} {f : Field} {s : State} (ht : f ≠ .tnf) (d : Chan)
    (hs : SoundAt d s) : SoundAt d (phyRead c f s) :=
  hs.congr (by simp) (by simp) (by simp) (by simp) (by rw [phyRead_hist, lastRead_read_ne _ _ (.inr ht)])
    fun k => (inSync_congr (by simp)).trans k

/-- The effect of a command that names channel `c` keeps the invariant there. -/
theorem effect_soundAt {i : Instr} {c : Chan} {s m : State} (hc : i.chan? = some c) (hi : s.inited = true)
    (hs : SoundAt c s) (h : Effect i s m) : SoundAt c m := by
  cases i <;> simp only [Instr.chan?, reduceCtorEq, Option.some.injEq] at hc
  all_goals subst hc
  case enableIrq c =>
    obtain ⟨e, he, rfl⟩ := h
    refine (enableIrq_acts c e s).framed.soundAt hs ?_ ?_ ?_
    · rw [phyWrites_ch]; exact hs.channel
    · rw [phyWrites_ch, phyWrites_lastRead]; exact hs.busy
    · rw [enableWrites_phy, Fin.getElem_fin, Vector.getElem_set_self]
      exact unitMasks_unmasked hi he hs.masks
  case disableIrq c =>
    obtain rfl : m = disableAll c s := h
    refine (disableAll_acts c s).framed.soundAt hs ?_ ?_ ?_
    · rw [disableAll_ch]; exact hs.channel
    · rw [disableAll_ch, disableAll, phyWrites_lastRead]; exact hs.busy
    · rw [disableAll_phy, Fin.getElem_fin, Vector.getElem_set_self]
      exact unitMasks_masked s c _
  case getStatus => exact h ▸ hs
  case writeIb c words =>
    obtain rfl | ⟨hw, rfl⟩ := h
    · exact hs
    · have hrec : (s.setCh c (loadTx words s.ch[c])).ch[c] = loadTx words s.ch[c] := by simp
      exact { channel := by rw [hrec]; exact hs.channel.load hw
              busy := by rw [hrec]; exact hs.busy
              masks := hs.masks
              unit := hs.unit }
  case readIb c =>
    obtain rfl | rfl := h
    · exact hs
    · have hrec : (setRxIdx c 0 s).ch[c] = { s.ch[c] with rxIdx := 0 } := by simp
      exact (setRxIdx_acts c 0 s).framed.soundAt hs (hrec ▸ hs.channel.clearRx) (hrec ▸ hs.busy) hs.masks
  case asyncTx c =>
    obtain rfl | ⟨hlt, hm⟩ := h
    · exact hs
    · exact sendWord_soundAt hs hlt hm
  case syncTx => exact h ▸ hs
  case txDrain => exact drain_soundAt hs h
  case irqEntry u =>
    have hread : SoundAt u (phyRead u .mis s) := phyRead_soundAt (by decide) u hs
    obtain rfl | h := h
    · exact hread
    · obtain ⟨x, rfl | hx, rfl⟩ := irqBranches_cases h
      · exact rxBranches_soundAt _ hread
      · exact rxBranches_soundAt _ (drain_soundAt hread hx)

end Sys2Proof.Machine
end

section
/-! Every command and every step keeps the invariant of the machine. -/

namespace Sys2Proof.Machine

/-! ### Commands -/

theorem setCh_soundAt_ne {c d : Chan} {s : State} (x : Channel) (hd : d ≠ c) (hs : SoundAt d s) :
    SoundAt d (s.setCh c x) :=
  hs.congr rfl rfl (get_set_ne _ _ hd) rfl rfl id

/-- INIT writes the configuration of the active units and sets their channels Idle (40_init_bitrate R100). -/
theorem init_soundAt {s m : State} (h : Effect .init s m) (hs : ∀ c, SoundAt c s) (c : Chan) : SoundAt c m := by
  obtain ⟨-, rfl⟩ := h
  obtain ⟨hall, heach⟩ := initChannels_spec allChans allChans_nodup s
  generalize allChans.foldl initChannel s = m at hall heach
  have hparams : m.params = s.params := by rw [hall]
  have hseq : m.seq = s.seq := by rw [hall]
  have hread : lastRead c .tnf m.hist = lastRead c .tnf s.hist := by
    rw [hall]
    refine lastRead_append _ _ fun e he v hev => ?_
    obtain ⟨d, -, hd⟩ := List.mem_flatMap.1 he
    unfold initEvents at hd
    split at hd
    · exact absurd hd (by simp)
    · obtain ⟨fv, -, hfv⟩ := List.mem_map.1 hd
      exact absurd (hfv.trans hev) (by simp)
  have masks : ∀ {x : Shadow}, UnitMasks s c x → UnitMasks m.setInited c x := by
    rintro x ⟨hror, hrt, hrx, htx⟩
    simp only [UnitMasks, setInited_inited, setInited_params, hparams]
    exact ⟨fun k => ⟨trivial, (hror k).2⟩, fun k => ⟨trivial, (hrt k).2⟩, fun k => ⟨trivial, (hrx k).2⟩,
      fun k => ⟨trivial, (htx k).2⟩⟩
  obtain ⟨inactive, active⟩ := heach c
  cases he : s.params.cfg[c] with
  | none =>
    obtain ⟨hch, hphy⟩ := inactive (.inr he)
    exact {
      channel := by rw [setInited_params, setInited_ch, hparams, hch]; exact (hs c).channel
      busy := by
        rw [setInited_ch, hch, setInited_hist, hread, inSync_congr (setInited_seq m), inSync_congr hseq]
        exact (hs c).busy
      masks := by rw [setInited_phy, hphy]; exact masks (hs c).masks
      unit := by
        rw [setInited_phy, hphy, (hs c).unit, setInited_params, hparams, he]
        simp }
  | some e =>
    obtain ⟨hch, hphy⟩ := active e (mem_allChans c) he
    exact {
      channel := by rw [setInited_params, setInited_ch, hparams, hch]; exact (hs c).channel.setStatus .idle
      busy := by simp [hch]
      masks := by rw [setInited_phy, hphy, programmed_eq]; exact masks (hs c).masks
      unit := by
        rw [setInited_phy, hphy, programmed_eq, setInited_params, hparams, he]
        simp }

/-- The effect of every command keeps the invariant at every channel. -/
theorem effect_sound {i : Instr} {s m : State} (hi : ∀ c, i.chan? = some c → s.inited = true) (h : Effect i s m)
    (hs : ∀ c, SoundAt c s) (d : Chan) : SoundAt d m := by
  cases hc : i.chan? with
  | some c =>
    by_cases hd : d = c
    · subst hd
      exact effect_soundAt hc (hi d hc) (hs d) h
    · obtain hacts | ⟨words, -, -, rfl⟩ := effect_acts hc h
      · exact hacts.framed.soundAt_ne hd (hs d)
      · exact setCh_soundAt_ne _ hd (hs d)
  | none =>
    cases i <;> simp only [Instr.chan?, reduceCtorEq] at hc
    case init => exact init_soundAt h hs d
    case bitrateCalc rate => exact h ▸ hs d

theorem respond_soundAt {c : Chan} {s : State} (op : Op) (r : PortWord) (data : List PortWord) (hs : SoundAt c s) :
    SoundAt c (respond op r data s) :=
  hs.congr (by simp) (by simp) (by simp) (by simp) (by rw [respond_hist, lastRead_rsp])
    fun k => (inSync_congr (by simp)).trans k

theorem issued_soundAt {c d : Chan} {s : State} (hq : s.seq = .ready) (hs : SoundAt d s) : SoundAt d (issued c s) := by
  by_cases hd : d = c
  · subst hd
    have hrec : (issued d s).ch[d] = { s.ch[d] with status := .busy, txIdx := 0 } := by simp [issued]
    exact {
      channel := by rw [hrec]; exact (hs.channel.setStatus .busy).setTxIdx (Nat.zero_le _)
      busy := fun _ => .inl (by simp [issued, inSync])
      masks := hs.masks
      unit := hs.unit }
  · refine hs.congr rfl rfl ?_ rfl rfl (by simp [inSync, hq])
    simp only [issued, setSeq_ch, setTxIdx_ch, setStatus_ch]
    rw [get_set_ne _ _ hd, get_set_ne _ _ hd]

/-- The host's outstanding command, run on a sound machine with no SYNC_TX in progress, leaves it sound. -/
theorem exec_sound {i : Instr} {s t : State} (hs : ∀ c, SoundAt c s) (hseq : s.seq = .ready)
    (hpend : s.hostPending = some i) (hctx : s.context = .mainline) (h : exec i s = .next t) : Sound t := by
  have raised : ∀ f, Sound (s.raise f) := fun f =>
    (sound_iff _).2 ⟨fun c => (hs c).congr rfl rfl rfl rfl rfl id, by simp [SeqSound, hseq], hctx⟩
  obtain ⟨-, ⟨f, rfl⟩ | ⟨active, ⟨f, rfl⟩ | ⟨m, r, data, hm, rfl⟩ | ⟨c, rfl, -, rfl⟩⟩⟩ := exec_next h
  · exact raised f
  · exact raised f
  · have kept := effect_kept hm
    refine (sound_iff _).2 ⟨fun d => ?_, ?_, respond_context ..⟩
    · exact respond_soundAt _ _ _ (effect_sound (fun c hc => (active c hc).1) hm hs d)
    · simp [SeqSound, kept.seq, hseq, kept.context, hctx]
  · obtain ⟨hi, hcfg⟩ := active c rfl
    exact (sound_iff _).2
      ⟨fun d => issued_soundAt hseq (hs d), ⟨hpend, hi, hcfg, Nat.zero_le _, rfl⟩, hctx⟩

/-! ### The dispatcher's entry -/

/-- A drain of a buffer with its slots written does not fault. -/
theorem drainLoop_answers {c : Chan} {n : Nat} {s : State}
    (hw : ∀ i, i < s.ch[c].txIdx + n → (slotAt s.ch[c].txBuf i).isSome = true) : ∃ t, drainLoop c n s = .ok t := by
  induction n generalizing s with
  | zero => exact ⟨_, rfl⟩
  | succ n ih =>
    simp only [drainLoop]
    split
    · exact ⟨_, rfl⟩
    · obtain ⟨w, hslot⟩ := Option.isSome_iff_exists.1 (hw s.ch[c].txIdx (by omega))
      rw [sendWord_of_written (w := w) (by simpa using hslot)]
      refine ih fun i hi => ?_
      have hlt : i < s.ch[c].txIdx + (n + 1) := by
        simp at hi ⊢
        omega
      simpa using hw i hlt

theorem drain_answers {c : Chan} {s : State} (hs : ChannelSound s.params s.ch[c]) : ∃ t, drain c s = .ok t := by
  refine drainLoop_answers fun i hi => ?_
  have hlt : i < s.ch[c].txLen := by
    have := hs.txIdx_le
    simp at hi
    simp at this ⊢
    omega
  simpa using hs.tx_written i hlt

/-- An entry on a sound channel raises no fault. -/
theorem irqBody_answers {u : Chan} {s : State} (hs : ChannelSound s.params s.ch[u]) :
    ∃ m, irqBody u s = .ok (respond .irqEntry respOk [] m) ∧ Effect (.irqEntry u) s m := by
  have branch : ∃ x, txBranch u (phyReadValue u .mis s) (phyRead u .mis s) = .ok x := by
    unfold txBranch
    split
    · exact drain_answers (by simpa using hs)
    · exact ⟨_, rfl⟩
  obtain ⟨x, hx⟩ := branch
  obtain ⟨m, branches⟩ : ∃ m, irqBranches u (phyReadValue u .mis s) (phyRead u .mis s) = .ok m := by
    simp only [irqBranches, hx, Except.ok.injEq, exists_eq']
  unfold irqBody
  cases s.params.isrMode with
  | stub => exact ⟨_, rfl, .inl rfl⟩
  | filled => exact ⟨_, by simp only [branches], .inr branches⟩

/-- `SeqSound` reads `seq`, the outstanding command, the fault, and of the channels the lengths alone. -/
theorem SeqSound.congr {s t : State} (hs : SeqSound s) (hseq : t.seq = s.seq) (hpend : t.hostPending = s.hostPending)
    (hfault : t.fault = s.fault) (hinited : t.inited = s.inited) (hparams : t.params = s.params)
    (hlen : ∀ c : Chan, t.ch[c].txLen = s.ch[c].txLen) : SeqSound t := by
  unfold SeqSound at hs ⊢
  simp only [hseq, hpend, hfault, hinited, hparams, hlen]
  exact hs

/-- The dispatcher's entry on a sound machine leaves it sound, also in the middle of a SYNC_TX (43_transfer R154, 70_reset_and_hazards R239). -/
theorem dispatcher_sound {u : Chan} {s t : State} (hs : Sound s) (hf : s.fault = none) (hi : s.inited = true)
    (hcfg : s.params.cfg[u].isSome = true) (h : exec (.irqEntry u) (enterInterrupt s) = .next t) : Sound t := by
  obtain ⟨hat, hseq, -⟩ := (sound_iff s).1 hs
  have hat' : ∀ c, SoundAt c (enterInterrupt s) := fun c => (hat c).congr rfl rfl rfl rfl rfl id
  obtain ⟨e, he⟩ := Option.isSome_iff_exists.1 hcfg
  obtain ⟨m, hm, heff⟩ := irqBody_answers (hat' u).channel
  have hrun : exec (.irqEntry u) (enterInterrupt s) = .next (respond .irqEntry respOk [] m) := by
    show runCommand _ (withChannel _ _ _ _) = _
    rw [runCommand_of_none (s := enterInterrupt s) hf, withChannel_of_active (s := enterInterrupt s) _ _ hi he, hm,
      settle_ok]
  obtain rfl := Host.Outcome.next.inj (h.symm.trans hrun)
  have kept := effect_kept heff
  obtain hacts | ⟨_, hload, -⟩ := effect_acts rfl heff
  · have frame := hacts.framed
    refine (sound_iff _).2 ⟨fun d => ?_, ?_, respond_context ..⟩
    · exact respond_soundAt _ _ _ (effect_sound (s := enterInterrupt s) (fun _ _ => hi) heff hat' d)
    · refine hseq.congr (by simp [kept.seq]) (by simp [kept.context, kept.hostPending]) (by simp [kept.fault])
        (by simp [frame.inited]) (by simp [kept.params]) fun c => ?_
      rw [respond_ch]
      by_cases hc : c = u
      · subst hc; exact frame.txLen
      · rw [frame.ch c hc]; rfl
  · exact absurd hload (by simp)

/-! ### SYNC_TX's micro-steps -/

/-- The end of a SYNC_TX on `c` leaves every channel sound: `c` is Idle, and no other was in the SYNC_TX. -/
theorem syncEnd_sound {c : Chan} {i polls : Nat} {ph : Phase} {s : State} (r : PortWord) (hs : ∀ d, SoundAt d s)
    (hq : s.seq = .syncTx c i ph polls) (hctx : s.context = .mainline) : Sound (syncEnd c r s) := by
  have at_end : ∀ d, SoundAt d ((setStatus c .idle (setTxIdx c 0 s)).setSeq .ready) := fun d => by
    by_cases hd : d = c
    · subst hd
      have hrec : ((setStatus d .idle (setTxIdx d 0 s)).setSeq .ready).ch[d] =
          { s.ch[d] with status := .idle, txIdx := 0 } := by simp
      exact {
        channel := by rw [hrec]; exact ((hs d).channel.setStatus .idle).setTxIdx (Nat.zero_le _)
        busy := by rw [hrec]; exact fun k => absurd k (by simp)
        masks := (hs d).masks
        unit := (hs d).unit }
    · refine (hs d).congr rfl rfl ?_ rfl rfl (by simp [inSync, hq, Ne.symm hd])
      simp only [setSeq_ch, setStatus_ch, setTxIdx_ch]
      rw [get_set_ne _ _ hd, get_set_ne _ _ hd]
  exact (sound_iff _).2 ⟨fun d => respond_soundAt _ _ _ (at_end d), by simp [SeqSound, syncEnd, hctx], respond_context ..⟩

theorem setSeq_soundAt {c d : Chan} {i j n k : Nat} {ph ph' : Phase} {s : State} (hq : s.seq = .syncTx c i ph n)
    (hs : SoundAt d s) : SoundAt d (s.setSeq (.syncTx c j ph' k)) :=
  hs.congr rfl rfl rfl rfl rfl (by simp [inSync, hq])

/-- A word sent by a SYNC_TX leaves its channel, and every other, sound (43_transfer R151). -/
theorem wrote_sound {c : Chan} {i polls : Nat} {s m : State} (hs : Sound s) (hq : s.seq = .syncTx c i .write polls)
    (hi : i < s.ch[c].txLen) (hm : sendWord c i s = .ok m) : Sound (m.setSeq (.syncTx c i .wait 0)) := by
  obtain ⟨hat, hseq, hctx⟩ := (sound_iff s).1 hs
  have frame := (sendWord_acts hi hm).framed
  simp only [SeqSound, hq] at hseq
  obtain ⟨hpend, hinit, hcfg, -⟩ := hseq
  refine (sound_iff _).2 ⟨fun d => setSeq_soundAt (frame.seq.trans hq) ?_, ?_, frame.context.trans hctx⟩
  · by_cases hd : d = c
    · subst hd; exact sendWord_soundAt (hat d) hi hm
    · exact frame.soundAt_ne hd (hat d)
  · exact ⟨frame.hostPending.trans hpend, frame.inited.trans hinit, by rw [setSeq_params, frame.params]; exact hcfg,
      by rw [setSeq_ch, frame.txLen]; exact hi⟩

/-- A BSY read of a SYNC_TX leaves the machine sound, whatever it answers (43_transfer R152, R153). -/
theorem waited_sound {c : Chan} {i polls : Nat} {s : State} (hs : Sound s) (hq : s.seq = .syncTx c i .wait polls) :
    Sound (syncWait c i polls s) := by
  obtain ⟨hat, hseq, hctx⟩ := (sound_iff s).1 hs
  have hread : ∀ d, SoundAt d (phyRead c .bsy s) := fun d => phyRead_soundAt (by decide) d (hat d)
  have hq' : (phyRead c .bsy s).seq = .syncTx c i .wait polls := (phyRead_seq ..).trans hq
  simp only [SeqSound, hq] at hseq
  obtain ⟨hpend, hinit, hcfg, hi⟩ := hseq
  have goes_on : ∀ (j : Nat) (ph : Phase) (k : Nat),
      (match ph with
        | .write => j ≤ s.ch[c].txLen ∧ k = 0
        | .wait => j < s.ch[c].txLen) → Sound ((phyRead c .bsy s).setSeq (.syncTx c j ph k)) := fun j ph k hj =>
    (sound_iff _).2 ⟨fun d => setSeq_soundAt hq' (hread d), by
      simp only [SeqSound, setSeq_seq, setSeq_hostPending, setSeq_inited, setSeq_params, setSeq_ch, phyRead_hostPending,
        phyRead_inited, phyRead_params, phyRead_ch]
      exact ⟨hpend, hinit, hcfg, hj⟩, by simpa using hctx⟩
  unfold syncWait
  split
  · exact goes_on _ .write _ ⟨hi, rfl⟩
  · split
    · exact syncEnd_sound _ hread hq' (by simpa using hctx)
    · exact goes_on _ .wait _ hi

/-! ### A step -/

theorem popTurn_sound {s : State} (hs : Sound s) : Sound s.popTurn := by
  obtain ⟨hat, hseq, hctx⟩ := (sound_iff s).1 hs
  refine (sound_iff _).2 ⟨fun c => ?_, ?_, by simpa using hctx⟩
  · exact (hat c).congr (by simp) (by simp) (by simp) (by simp) (by simp) fun k => (inSync_congr (by simp)).trans k
  · exact hseq.congr (by simp) (by simp) (by simp) (by simp) (by simp) (by simp)

/-- In mainline the sequencer's entry to mainline changes nothing. -/
theorem enterMainline_of_mainline {s : State} (h : s.context = .mainline) : s.enterMainline = s := by
  simp [State.enterMainline, ← h]

theorem takeWord_soundAt {c : Chan} {s : State} (words din : List PortWord) (hs : SoundAt c s) :
    SoundAt c (takeWord words din s) :=
  hs.congr rfl rfl rfl rfl rfl id

theorem issue_soundAt {c : Chan} {s : State} (i : Instr) (hs : SoundAt c s) : SoundAt c (issue i s) :=
  hs.congr rfl rfl rfl rfl rfl id

/-- Settles O43: the invariant is split into its parts at each channel and the part of `seq`; each case of a step keeps both.
An entry of the dispatcher would leave interrupt context as the machine's context if it faulted, so it also needs that on a
sound machine it does not. -/
theorem stepsKeepTheMachineSound : Obligations.StepsKeepTheMachineSound := by
  intro s t hs h
  obtain ⟨hfault, hstep⟩ := step_next h
  have hpop := popTurn_sound hs
  obtain ⟨hat, hseqSound, hctx⟩ := (sound_iff _).1 hpop
  have hmain := enterMainline_of_mainline hctx
  cases hstep with
  | hold h => exact h ▸ hpop
  | illegal w words hseq hpend _ h =>
    subst h
    refine (sound_iff _).2 ⟨fun c => respond_soundAt _ _ _ ?_, ?_, respond_context ..⟩
    · exact (takeWord_soundAt words s.dataIn (hat c)).congr rfl rfl rfl rfl rfl id
    · simp [SeqSound, answerIllegal, takeWord, hseq]
  | host i w words rest hseq _ _ _ h =>
    exact exec_sound (fun c => issue_soundAt i (takeWord_soundAt words rest (hat c)))
      (by simpa [issue, takeWord] using hseq) rfl rfl h
  | dispatcher u hi hcfg h =>
    exact dispatcher_sound hpop (by simpa using hfault) (by simpa using hi) (by simpa using hcfg) h
  | completed c i polls hseq _ h =>
    rw [h, hmain]
    exact syncEnd_sound _ hat ((popTurn_seq s).trans hseq) hctx
  | unwritten c i polls _ hi hn _ =>
    have hwritten := (hs.channels c).tx_written i hi
    rw [hn] at hwritten
    exact absurd hwritten (by simp)
  | wrote c i polls m hseq hi hm h =>
    rw [hmain] at hm
    exact h ▸ wrote_sound hpop ((popTurn_seq s).trans hseq) (by simpa using hi) hm
  | waited c i polls hseq h =>
    rw [h, hmain]
    exact waited_sound hpop ((popTurn_seq s).trans hseq)

end Sys2Proof.Machine
end

section
/-! The packed configuration entry (10_state R31): the fields are disjoint and together cover the word. -/

namespace Sys2Proof.Machine

/-- A field packed at bit `k` is read back from there. -/
theorem extractLsb'_field_self {n : Nat} (k : Nat) (x : BitVec n) (h : k + n ≤ 64) :
    (x.setWidth 64 <<< k).extractLsb' k n = x := by
  apply BitVec.eq_of_getLsbD_eq
  intro i hi
  have hbit : k + i < 64 ∧ i < 64 := by omega
  simp [hi, hbit]

/-- A field packed at bit `j` has no bit in another field's place. -/
theorem extractLsb'_field_ne {m : Nat} (j k n : Nat) (x : BitVec m) (h : j + m ≤ k ∨ k + n ≤ j) :
    (x.setWidth 64 <<< j).extractLsb' k n = 0#n := by
  apply BitVec.eq_of_getLsbD_eq
  intro i hi
  simp only [BitVec.getLsbD_extractLsb', BitVec.getLsbD_shiftLeft, BitVec.getLsbD_setWidth, hi]
  rcases h with h | h
  · rw [BitVec.getLsbD_of_ge x _ (by omega)]
    simp
  · rw [decide_eq_true (show k + i < j by omega)]
    simp

theorem cfgOfPacked_cfgToPacked (e : CfgEntry) : cfgOfPacked (cfgToPacked e) = e := by
  have hmode : e.mode.setWidth 64 = e.mode.setWidth 64 <<< 0 := (BitVec.shiftLeft_zero _).symm
  unfold cfgOfPacked cfgToPacked
  rw [hmode]
  simp (disch := decide) only [BitVec.extractLsb'_or, extractLsb'_field_self, extractLsb'_field_ne,
    BitVec.or_zero, BitVec.zero_or]

/-- The low `k` bits and the `n` bits above them make the low `k + n` bits. -/
theorem extractLsb'_or_next (b : BitVec 64) (k n m : Nat) (h : m = k + n) :
    (b.extractLsb' 0 k).setWidth 64 ||| (b.extractLsb' k n).setWidth 64 <<< k = (b.extractLsb' 0 m).setWidth 64 := by
  subst h
  apply BitVec.eq_of_getLsbD_eq
  intro i hi
  simp only [BitVec.getLsbD_or, BitVec.getLsbD_setWidth, BitVec.getLsbD_shiftLeft, BitVec.getLsbD_extractLsb', hi,
    decide_true, Bool.true_and, Nat.zero_add]
  by_cases hk : i < k
  · simp [hk, Nat.lt_add_right n hk]
  · have hsub : i - k < 64 ∧ k + (i - k) = i ∧ (i - k < n ↔ i < k + n) := by omega
    simp [hk, hsub]

theorem cfgToPacked_cfgOfPacked (b : BitVec 64) : cfgToPacked (cfgOfPacked b) = b := by
  unfold cfgToPacked cfgOfPacked
  rw [extractLsb'_or_next b 1 1 2 rfl, extractLsb'_or_next b 2 4 6 rfl, extractLsb'_or_next b 6 1 7 rfl,
    extractLsb'_or_next b 7 1 8 rfl, extractLsb'_or_next b 8 2 10 rfl, extractLsb'_or_next b 10 4 14 rfl,
    extractLsb'_or_next b 14 2 16 rfl, extractLsb'_or_next b 16 1 17 rfl, extractLsb'_or_next b 17 1 18 rfl,
    extractLsb'_or_next b 18 1 19 rfl, extractLsb'_or_next b 19 1 20 rfl, extractLsb'_or_next b 20 12 32 rfl,
    extractLsb'_or_next b 32 32 64 rfl, BitVec.extractLsb'_eq_self, BitVec.setWidth_eq]

/-- Settles O5: no two fields share a bit, and the fields cover all 64 of them. -/
theorem configEntryPacking : Obligations.ConfigEntryPacking :=
  ⟨cfgOfPacked_cfgToPacked, cfgToPacked_cfgOfPacked⟩

end Sys2Proof.Machine
end

section
/-! The checks that come first, and the stop of a faulted machine (10_state R29, R30, R36). -/

namespace Sys2Proof.Machine

/-- What a command that names a channel does once it has passed the first checks; the two that name none are left out, by arms
that `exec_of_chan` never reaches. -/
def channelBody (i : Instr) (s : State) (e : CfgEntry) : Except Fault State :=
  match i with
  | .enableIrq c => .ok (respond .enableIrq respOk [] (phyWrites c (enableWrites e) s))
  | .disableIrq c => .ok (respond .disableIrq respOk [] (disableAll c s))
  | .getStatus c => .ok (respond .getStatus (respStatus s.ch[c].status) [] s)
  | .writeIb c words => .ok (writeIbBody c words s)
  | .readIb c => readIbBody c s
  | .asyncTx c => asyncBody c s
  | .syncTx c => .ok (syncIssue c s)
  | .txDrain c => txDrainBody c s
  | .irqEntry u => irqBody u s
  | .init => .ok s
  | .bitrateCalc _ => .ok s

/-- A command that names a channel is the first checks, then its body, in the frame of every command. -/
theorem exec_of_chan {i : Instr} {c : Chan} (hc : i.chan? = some c) (s : State) :
    exec i s = runCommand s (withChannel i c s (channelBody i s)) := by
  cases i <;> simp only [Instr.chan?, reduceCtorEq, Option.some.injEq] at hc <;> subst hc <;> rfl

theorem chan_isSome {i : Instr} (hi : i ≠ .init) (hb : ∀ r, i ≠ .bitrateCalc r) : ∃ c, i.chan? = some c := by
  cases i with
  | init => exact absurd rfl hi
  | bitrateCalc r => exact absurd rfl (hb r)
  | _ => exact ⟨_, rfl⟩

theorem withChannel_of_not_inited {s : State} {c : Chan} (i : Instr) (body : CfgEntry → Except Fault State)
    (hi : s.inited = false) : withChannel i c s body = .error (.notInitialized (encodeWord i)) := by
  simp [withChannel, hi]

theorem withChannel_of_inactive {s : State} {c : Chan} (i : Instr) (body : CfgEntry → Except Fault State)
    (hi : s.inited = true) (hc : s.params.cfg[c] = none) : withChannel i c s body = .error (.unconfiguredChannel c) := by
  simp only [Fin.getElem_fin] at hc
  simp [withChannel, hi, hc]

theorem checksFirst {i : Instr} {c : Chan} (hc : i.chan? = some c) : ChecksFirst i c := by
  refine fun s hf => ⟨fun hi => ?_, fun hi hcfg => ?_⟩
  · rw [exec_of_chan hc, runCommand_of_none hf, withChannel_of_not_inited i _ hi]
    rfl
  · rw [exec_of_chan hc, runCommand_of_none hf, withChannel_of_inactive i _ hi hcfg]
    rfl

theorem exec_of_fault {s : State} {f : Fault} (h : s.fault = some f) (i : Instr) : exec i s = .fault f := by
  cases i <;> exact runCommand_of_fault h _

theorem fetch_of_fault {s : State} {f : Fault} (h : s.fault = some f) : fetch s = .stopped f := by
  simp [fetch, h]

theorem step_of_fault {s : State} {f : Fault} (h : s.fault = some f) : step s = .fault f := by
  simp [step, fetch_of_fault h]

/-- INIT raises ConfigRange alone. -/
theorem execInit_cases {s t : State} (h : execInit s = .next t) :
    (∃ c, t = s.raise (.configRange (some c))) ∨ (t.inited = true ∧ t.fault = none) := by
  obtain ⟨hf, hset⟩ := runCommand_eq_next.1 h
  unfold initBody at hset
  split at hset
  · exact .inl ⟨_, hset.symm⟩
  · rename_i hcheck
    obtain rfl := hset
    have kept := init_kept ⟨hcheck, rfl⟩
    refine .inr ⟨by simp, ?_⟩
    rw [settle_ok, respond_fault, kept.fault, hf]

theorem execBitrateCalc_cases {rate : PortWord} {s t : State} (h : execBitrateCalc rate s = .next t) :
    t = s.raise (.configRange none) ∨ t.fault = none := by
  obtain ⟨hf, hset⟩ := runCommand_eq_next.1 h
  unfold bitrateBody at hset
  split at hset
  · exact .inl hset.symm
  · exact .inr (by rw [← hset, settle_ok, respond_fault, hf])

/-- Settles O10: the frame every command runs in, and the boundary, look at the fault record first. -/
theorem faultedMachineStops : Obligations.FaultedMachineStops := by
  refine ⟨rfl, fun _ _ => rfl, fun s f hf => ⟨step_of_fault hf, exec_of_fault hf, fun ⟨hnone, _⟩ => ?_⟩⟩
  rw [hnone] at hf
  exact absurd hf (by simp)

/-- Settles O11: every command but the two names a channel, and so makes the first checks; the two raise ConfigRange or
nothing. -/
theorem commandsBeforeInitFault : Obligations.CommandsBeforeInitFault := by
  refine ⟨rfl, fun s t h hf => ?_, fun i s hf hi hinit hbit => ?_, fun i s t _ hi h w => ?_⟩
  · obtain ⟨c, rfl⟩ | ⟨hinited, -⟩ := execInit_cases h
    · exact absurd hf (by simp)
    · exact hinited
  · obtain ⟨c, hc⟩ := chan_isSome hinit hbit
    exact (checksFirst hc s hf).1 hi
  · obtain rfl | ⟨r, rfl⟩ := hi
    · obtain ⟨c, rfl⟩ | ⟨-, hnone⟩ := execInit_cases h
      · simp
      · simp [hnone]
    · obtain rfl | hnone := execBitrateCalc_cases h
      · simp
      · simp [hnone]

/-- Settles O12: the second of the first checks; the table is part of the parameters, which no step writes. -/
theorem inactiveChannelsFault : Obligations.InactiveChannelsFault :=
  ⟨fun _ _ s hc hf hi hcfg => (checksFirst hc s hf).2 hi hcfg, fun _ _ h => by rw [step_params h]⟩

end Sys2Proof.Machine
end

section
/-! What a command leaves of the other channels, and what a step appends to the history (10_state R22, R35). -/

namespace Sys2Proof.Machine

/-- What the effect of a command on channel `c` leaves of every other channel. -/
theorem effect_other {i : Instr} {c d : Chan} {s m : State} (hc : i.chan? = some c) (hd : d ≠ c) (h : Effect i s m) :
    m.ch[d] = s.ch[d] ∧ m.phy[d] = s.phy[d] := by
  obtain hacts | ⟨words, -, -, rfl⟩ := effect_acts hc h
  · exact ⟨hacts.framed.ch d hd, hacts.framed.phy d hd⟩
  · exact ⟨get_set_ne _ _ hd, rfl⟩

theorem issued_other {c d : Chan} (hd : d ≠ c) (s : State) : (issued c s).ch[d] = s.ch[d] := by
  simp only [issued, setSeq_ch, setTxIdx_ch, setStatus_ch]
  rw [get_set_ne _ _ hd, get_set_ne _ _ hd]

theorem effect_events {i : Instr} {c : Chan} {s m : State} (hc : i.chan? = some c) (h : Effect i s m) :
    ∃ es, m.hist = s.hist ++ es ∧ ∀ e ∈ es, e.unit? = some c := by
  obtain hacts | ⟨words, -, -, rfl⟩ := effect_acts hc h
  · obtain ⟨es, hes, hall⟩ := hacts.framed.hist
    exact ⟨es, hes, fun e he => (hall e he).1⟩
  · exact ⟨[], by simp, by simp⟩

theorem newEvents_of_append {s t : State} {es : List Event} (h : t.hist = s.hist ++ es) : newEvents s t = es := by
  simp [newEvents, h]

/-- Settles O49: the effect of the command is work on its own channel, and its response accesses no unit. -/
theorem commandsLeaveOtherChannels : Obligations.CommandsLeaveOtherChannels := by
  intro i c d s t hc hd h
  have raised : ∀ f, (s.raise f).ch[d] = s.ch[d] ∧ (s.raise f).phy[d] = s.phy[d] ∧
      ∀ e ∈ newEvents s (s.raise f), e.unit? ≠ some d := fun f =>
    ⟨rfl, rfl, by rw [newEvents_of_append (es := []) (by simp)]; simp⟩
  obtain ⟨-, ⟨f, rfl⟩ | ⟨-, ⟨f, rfl⟩ | ⟨m, r, data, hm, rfl⟩ | ⟨c', rfl, -, rfl⟩⟩⟩ := exec_next h
  · exact raised f
  · exact raised f
  · obtain ⟨hch, hphy⟩ := effect_other hc hd hm
    obtain ⟨es, hes, hunit⟩ := effect_events hc hm
    refine ⟨by rw [respond_ch, hch], by rw [respond_phy, hphy], fun e he => ?_⟩
    rw [newEvents_of_append (es := es ++ [.rsp (opOf i) r data]) (by rw [respond_hist, hes, List.append_assoc])] at he
    rcases List.mem_append.1 he with he | he
    · rw [hunit e he]
      exact fun k => hd (Option.some.inj k).symm
    · rw [List.mem_singleton.1 he]
      simp [Event.unit?]
  · obtain rfl := Option.some.inj hc
    exact ⟨issued_other hd s, rfl, by rw [newEvents_of_append (es := []) (by simp [issued])]; simp⟩

/-! ### The history -/

/-- From `s` to `t` the history grew by legal events alone. -/
def GrewLegally (s t : State) : Prop := ∃ es, t.hist = s.hist ++ es ∧ ∀ e ∈ es, e.legal = true

theorem GrewLegally.of_same {s t : State} (h : t.hist = s.hist) : GrewLegally s t := ⟨[], by simp [h], by simp⟩

theorem GrewLegally.append {s m t : State} {e : Event} (h : GrewLegally s m) (ht : t.hist = m.hist ++ [e])
    (he : e.legal = true) : GrewLegally s t := by
  obtain ⟨es, hes, hall⟩ := h
  refine ⟨es ++ [e], by rw [ht, hes, List.append_assoc], fun x hx => ?_⟩
  rcases List.mem_append.1 hx with hx | hx
  · exact hall x hx
  · rw [List.mem_singleton.1 hx]
    exact he

theorem exec_grewLegally {i : Instr} {s t : State} (h : exec i s = .next t) : GrewLegally s t := by
  obtain ⟨-, ⟨f, rfl⟩ | ⟨-, ⟨f, rfl⟩ | ⟨m, r, data, hm, rfl⟩ | ⟨c, rfl, -, rfl⟩⟩⟩ := exec_next h
  · exact .of_same rfl
  · exact .of_same rfl
  · obtain ⟨es, hes, hall⟩ := (effect_kept hm).hist
    exact GrewLegally.append ⟨es, hes, fun e he => (hall e he).2⟩ (respond_hist ..) rfl
  · exact .of_same rfl

theorem syncWait_grewLegally (c : Chan) (i polls : Nat) (s : State) : GrewLegally s (syncWait c i polls s) := by
  have hread : GrewLegally s (phyRead c .bsy s) :=
    (GrewLegally.of_same rfl).append (phyRead_hist ..) (by simp [Event.legal, fieldReadable, phyReadValue, legalDraw_fits])
  obtain ⟨q, hq⟩ | hq := syncWait_cases c i polls s
  · exact hq ▸ hread
  · rw [hq]
    exact hread.append (respond_hist ..) rfl

/-- Settles O40: the accesses of a command are legal by its frame, those of a micro-step one by one. -/
theorem stepsAppendLegalAccesses : Obligations.StepsAppendLegalAccesses := by
  intro s t h
  obtain ⟨-, hstep⟩ := step_next h
  show GrewLegally s t
  cases hstep with
  | hold h => exact .of_same (by simp [h])
  | illegal w words _ _ _ h =>
    exact (GrewLegally.of_same rfl).append (e := .rsp (.illegal w) respIllegal []) (by simp [h, answerIllegal, takeWord]) rfl
  | host i w words rest _ _ _ _ h => simpa [GrewLegally, issue, takeWord] using exec_grewLegally h
  | dispatcher u _ _ h => simpa [GrewLegally] using exec_grewLegally h
  | completed c i polls _ _ h =>
    exact (GrewLegally.of_same rfl).append (e := .rsp .syncTx respOk []) (by simp [h, syncEnd]) rfl
  | unwritten c i polls _ _ _ h => exact .of_same (by simp [h])
  | wrote c i polls m _ _ hm h =>
    obtain ⟨w, -, rfl⟩ := sendWord_ok hm
    exact (GrewLegally.of_same rfl).append (e := .write c .dr w) (by simp [h]) (decide_eq_true w.isLt)
  | waited c i polls _ h =>
    rw [h]
    simpa [GrewLegally] using syncWait_grewLegally c i polls s.popTurn.enterMainline

end Sys2Proof.Machine
end

section
/-! The response (10_state R37, 60_exceptions R210) and the reset (10_state R38). -/

namespace Sys2Proof.Machine

/-- Settles O38: by the context the response is given in. -/
theorem responseEndsItsCommand : Obligations.ResponseEndsItsCommand := by
  intro op r data s
  refine ⟨fun h => ?_, fun h => ?_⟩ <;> simp [respond, h, State.record]

theorem resetWith_ch (p : Params) (c : Chan) : (State.resetWith p).ch[c] = Channel.reset p := by
  simp [State.resetWith]

theorem resetWith_phy (p : Params) (u : Chan) : (State.resetWith p).phy[u] = Shadow.reset := by
  simp [State.resetWith]

theorem channelSound_reset (p : Params) : ChannelSound p (Channel.reset p) where
  txBuf_length := List.length_replicate
  rxBuf_length := List.length_replicate
  txIdx_le := le_rfl
  txLen_le := Nat.zero_le _
  rxIdx_le := Nat.zero_le _
  tx_written := fun _ hi => absurd hi (Nat.not_lt_zero _)
  rx_written := fun _ hi => absurd hi (Nat.not_lt_zero _)

theorem sound_resetWith (p : Params) : Sound (State.resetWith p) where
  channels := fun c => by rw [resetWith_ch]; exact channelSound_reset p
  seq := fun _ => rfl
  busy := fun c hc => by rw [resetWith_ch] at hc; exact absurd hc (by simp [Channel.reset])
  masks := fun u => by rw [resetWith_phy]; simp [Shadow.reset]
  units := fun u => by rw [resetWith_phy]; simp [Shadow.reset, State.resetWith]
  mainline := rfl

/-- Settles O44: every buffer is empty, every source masked, and nothing written. -/
theorem resetIsSound : Obligations.ResetIsSound := by
  refine ⟨sound_resetWith _, fun p => ⟨sound_resetWith p, ?_, fun pre u f v post h => ?_⟩⟩
  · exact (shadowsMatch_iff _).2 fun u => resetWith_phy p u
  · exact absurd h (by simp [State.resetWith])

end Sys2Proof.Machine
end

section
/-! Which command writes which field (10_state R24, R39). -/

namespace Sys2Proof.Machine

/-- What a command may make of the record `x` of channel `c`: R39's table for the fields of a record. -/
def RecordRule (i : Instr) (c : Chan) (x y : Channel) : Prop :=
  (y.status = x.status ∨ (i = .init ∧ y.status = .idle) ∨ (i = .syncTx c ∧ y.status = .busy) ∨ i = .txDrain c ∨
    i = .irqEntry c) ∧
  (y.txBuf = x.txBuf ∨ ∃ words, i = .writeIb c words) ∧
  (y.txLen = x.txLen ∨ ∃ words, i = .writeIb c words ∧ y.txLen = words.length) ∧
  (y.txIdx = x.txIdx ∨ (∃ words, i = .writeIb c words ∧ y.txIdx = 0) ∨ (i = .asyncTx c ∧ y.txIdx = x.txIdx + 1) ∨
    (i = .syncTx c ∧ y.txIdx = 0) ∨ i = .txDrain c ∨ i = .irqEntry c) ∧
  (y.rxBuf = x.rxBuf ∨ i = .irqEntry c) ∧
  (∀ j, j < x.rxIdx → slotAt y.rxBuf j = slotAt x.rxBuf j) ∧
  (y.rxIdx = x.rxIdx ∨ (i = .readIb c ∧ y.rxIdx = 0) ∨ (i = .irqEntry c ∧ x.rxIdx ≤ y.rxIdx))

/-- What a command may make of the shadows `x` of unit `u`: R39's table for the register interface. -/
def ShadowRule (i : Instr) (u : Chan) (x y : Shadow) : Prop :=
  (i ≠ .init → y = { x with imTx := y.imTx, imRx := y.imRx, imRt := y.imRt, imRor := y.imRor }) ∧
  ((y.imTx = x.imTx ∧ y.imRx = x.imRx ∧ y.imRt = x.imRt ∧ y.imRor = x.imRor) ∨
    i = .enableIrq u ∨ i = .disableIrq u ∨ i = .txDrain u ∨ i = .irqEntry u)

/-- R39's table for the whole state. -/
def KeepsToTheTable (i : Instr) (s t : State) : Prop :=
  (∀ c : Chan, RecordRule i c s.ch[c] t.ch[c]) ∧ (∀ u : Chan, ShadowRule i u s.phy[u] t.phy[u]) ∧
  (t.seq = s.seq ∨ ∃ c, i = .syncTx c) ∧ (t.inited = s.inited ∨ i = .init) ∧
  t.cmdIn = s.cmdIn ∧ t.dataIn = s.dataIn ∧ t.turns = s.turns ∧ t.nTurns = s.nTurns ∧
  ((t.draws = s.draws ∧ t.nDraws = s.nDraws) ∨ ∃ c, i = .txDrain c ∨ i = .irqEntry c)

theorem RecordRule.refl (i : Instr) (c : Chan) (x : Channel) : RecordRule i c x x :=
  ⟨.inl rfl, .inl rfl, .inl rfl, .inl rfl, .inl rfl, fun _ _ => rfl, .inl rfl⟩

theorem ShadowRule.refl (i : Instr) (u : Chan) (x : Shadow) : ShadowRule i u x x :=
  ⟨fun _ => rfl, .inl ⟨rfl, rfl, rfl, rfl⟩⟩

/-- A drain writes the status and the cursor of its channel's record. -/
theorem drain_record {c : Chan} {s t : State} (h : drain c s = .ok t) :
    ∃ st k, t.ch[c] = { s.ch[c] with status := st, txIdx := k } := by
  obtain ⟨k, hch, -⟩ | ⟨hch, -⟩ := drain_ok h
  · exact ⟨.busy, k, by simp [hch]⟩
  · exact ⟨.idle, 0, by simp [hch]⟩

theorem irqEntry_record {u : Chan} {s m : State} (h : Effect (.irqEntry u) s m) :
    RecordRule (.irqEntry u) u s.ch[u] m.ch[u] := by
  obtain rfl | h := h
  · rw [phyRead_ch]
    exact .refl ..
  · obtain ⟨x, hx, rfl⟩ := irqBranches_cases h
    generalize phyReadValue u .mis s = v
    obtain ⟨⟨y, hch, hy⟩, -⟩ := rxBranches_ok u v x
    have hrec : (rorBranch u v (rtBranch u v (rxBranch u v x))).ch[u] = y := by simp [hch]
    have hrx : x.ch[u].rxBuf = s.ch[u].rxBuf ∧ x.ch[u].rxIdx = s.ch[u].rxIdx ∧ x.ch[u].txBuf = s.ch[u].txBuf ∧
        x.ch[u].txLen = s.ch[u].txLen := by
      obtain rfl | hd := hx
      · rw [phyRead_ch]
        exact ⟨rfl, rfl, rfl, rfl⟩
      · obtain ⟨st, k, hd⟩ := drain_record hd
        rw [phyRead_ch] at hd
        rw [hd]
        exact ⟨rfl, rfl, rfl, rfl⟩
    obtain ⟨hbuf, hidx, htxBuf, htxLen⟩ := hrx
    rw [hrec]
    refine ⟨by simp, .inl (hy.txBuf.trans htxBuf), .inl (hy.txLen.trans htxLen), by simp, .inr rfl, fun j hj => ?_,
      .inr (.inr ⟨rfl, hidx ▸ hy.le⟩)⟩
    rw [hy.kept j (hidx ▸ hj), hbuf]

theorem init_record {s m : State} (h : Effect .init s m) (c : Chan) : RecordRule .init c s.ch[c] m.ch[c] := by
  obtain ⟨-, rfl⟩ := h
  obtain ⟨inactive, active⟩ := (initChannels_spec allChans allChans_nodup s).2 c
  cases he : s.params.cfg[c] with
  | none =>
    rw [setInited_ch, (inactive (.inr he)).1]
    exact .refl ..
  | some e =>
    rw [setInited_ch, (active e (mem_allChans c) he).1]
    exact ⟨.inr (.inl ⟨rfl, rfl⟩), .inl rfl, .inl rfl, .inl rfl, .inl rfl, fun _ _ => rfl, .inl rfl⟩

theorem init_shadow {s m : State} (h : Effect .init s m) (u : Chan) : ShadowRule .init u s.phy[u] m.phy[u] := by
  obtain ⟨-, rfl⟩ := h
  obtain ⟨inactive, active⟩ := (initChannels_spec allChans allChans_nodup s).2 u
  cases he : s.params.cfg[u] with
  | none =>
    rw [setInited_phy, (inactive (.inr he)).2]
    exact .refl ..
  | some e =>
    rw [setInited_phy, (active e (mem_allChans u) he).2, programmed_eq]
    exact ⟨fun k => absurd rfl k, .inl ⟨rfl, rfl, rfl, rfl⟩⟩

/-- The record of the channel a command names, after its effect. -/
theorem effect_record_named {i : Instr} {c : Chan} {s m : State} (hc : i.chan? = some c) (h : Effect i s m) :
    RecordRule i c s.ch[c] m.ch[c] := by
  have kept : m.ch = s.ch → RecordRule i c s.ch[c] m.ch[c] := fun hm => hm ▸ .refl ..
  cases i <;> simp only [Instr.chan?, reduceCtorEq, Option.some.injEq] at hc
  all_goals subst hc
  case enableIrq c =>
    obtain ⟨e, -, rfl⟩ := h
    exact kept (phyWrites_ch ..)
  case disableIrq c => exact kept (h ▸ disableAll_ch c s)
  case getStatus => exact kept (h ▸ rfl)
  case writeIb c words =>
    obtain rfl | ⟨-, rfl⟩ := h
    · exact kept rfl
    · have hrec : (s.setCh c (loadTx words s.ch[c])).ch[c] = loadTx words s.ch[c] := by simp
      rw [hrec]
      exact ⟨.inl rfl, .inr ⟨words, rfl⟩, .inr ⟨words, rfl, rfl⟩, .inr (.inl ⟨words, rfl, rfl⟩), .inl rfl,
        fun _ _ => rfl, .inl rfl⟩
  case readIb c =>
    obtain rfl | rfl := h
    · exact kept rfl
    · have hrec : (setRxIdx c 0 s).ch[c] = { s.ch[c] with rxIdx := 0 } := by simp
      rw [hrec]
      exact ⟨.inl rfl, .inl rfl, .inl rfl, .inl rfl, .inl rfl, fun _ _ => rfl, .inr (.inl ⟨rfl, rfl⟩)⟩
  case asyncTx c =>
    obtain rfl | ⟨-, hm⟩ := h
    · exact kept rfl
    · obtain ⟨w, -, rfl⟩ := sendWord_ok hm
      have hrec : (setTxIdx c (s.ch[c].txIdx + 1) (phyWrite c .dr w s)).ch[c] =
          { s.ch[c] with txIdx := s.ch[c].txIdx + 1 } := by simp
      rw [hrec]
      exact ⟨.inl rfl, .inl rfl, .inl rfl, .inr (.inr (.inl ⟨rfl, rfl⟩)), .inl rfl, fun _ _ => rfl, .inl rfl⟩
  case syncTx => exact kept (h ▸ rfl)
  case txDrain c =>
    obtain ⟨st, k, hrec⟩ := drain_record h
    rw [hrec]
    exact ⟨by simp, .inl rfl, .inl rfl, by simp, .inl rfl, fun _ _ => rfl, .inl rfl⟩
  case irqEntry => exact irqEntry_record h

/-- The shadows of the unit a command names, after its effect. -/
theorem effect_shadow_named {i : Instr} {c : Chan} {s m : State} (hc : i.chan? = some c) (h : Effect i s m) :
    ShadowRule i c s.phy[c] m.phy[c] := by
  have config : i ≠ .init → m.phy[c] = { s.phy[c] with
      imTx := m.phy[c].imTx, imRx := m.phy[c].imRx, imRt := m.phy[c].imRt, imRor := m.phy[c].imRor } := fun _ => by
    obtain hacts | ⟨words, -, -, rfl⟩ := effect_acts hc h
    · exact hacts.framed.config
    · rfl
  have kept : m.phy = s.phy → ShadowRule i c s.phy[c] m.phy[c] := fun hm => hm ▸ .refl ..
  cases i <;> simp only [Instr.chan?, reduceCtorEq, Option.some.injEq] at hc
  all_goals subst hc
  case enableIrq => exact ⟨config, by simp⟩
  case disableIrq => exact ⟨config, by simp⟩
  case txDrain => exact ⟨config, by simp⟩
  case irqEntry => exact ⟨config, by simp⟩
  case getStatus => exact kept (h ▸ rfl)
  case syncTx => exact kept (h ▸ rfl)
  case writeIb => obtain rfl | ⟨-, rfl⟩ := h <;> exact kept rfl
  case readIb => obtain rfl | rfl := h <;> exact kept rfl
  case asyncTx =>
    obtain rfl | ⟨-, hm⟩ := h
    · exact kept rfl
    · obtain ⟨w, -, rfl⟩ := sendWord_ok hm
      exact kept (by rw [sent_eq])

/-- The effect of every command on every record and every unit's shadows. -/
theorem effect_rules {i : Instr} {s m : State} (h : Effect i s m) (d : Chan) :
    RecordRule i d s.ch[d] m.ch[d] ∧ ShadowRule i d s.phy[d] m.phy[d] := by
  cases hc : i.chan? with
  | some c =>
    by_cases hd : d = c
    · subst hd
      exact ⟨effect_record_named hc h, effect_shadow_named hc h⟩
    · obtain ⟨hch, hphy⟩ := effect_other hc hd h
      rw [hch, hphy]
      exact ⟨.refl .., .refl ..⟩
  | none =>
    cases i <;> simp only [Instr.chan?, reduceCtorEq] at hc
    case init => exact ⟨init_record h d, init_shadow h d⟩
    case bitrateCalc => exact h ▸ ⟨.refl .., .refl ..⟩

theorem effect_inited {i : Instr} {s m : State} (h : Effect i s m) : m.inited = s.inited ∨ i = .init := by
  cases hc : i.chan? with
  | some c =>
    obtain hacts | ⟨words, -, -, rfl⟩ := effect_acts hc h
    · exact .inl hacts.framed.inited
    · exact .inl rfl
  | none =>
    cases i <;> simp only [Instr.chan?, reduceCtorEq] at hc
    case init => exact .inr rfl
    case bitrateCalc => exact .inl (h ▸ rfl)

/-- Only the drains and the entry read the PHY. -/
theorem effect_draws {i : Instr} {s m : State} (h : Effect i s m) :
    (m.draws = s.draws ∧ m.nDraws = s.nDraws) ∨ ∃ c, i = .txDrain c ∨ i = .irqEntry c := by
  cases i with
  | init =>
    obtain ⟨-, rfl⟩ := h
    obtain ⟨hall, -⟩ := initChannels_spec allChans allChans_nodup s
    rw [hall]
    exact .inl ⟨rfl, rfl⟩
  | enableIrq c =>
    obtain ⟨e, -, rfl⟩ := h
    rw [phyWrites_eq]
    exact .inl ⟨rfl, rfl⟩
  | disableIrq c =>
    obtain rfl : m = disableAll c s := h
    rw [disableAll_eq]
    exact .inl ⟨rfl, rfl⟩
  | getStatus c => exact .inl (h ▸ ⟨rfl, rfl⟩)
  | writeIb c words => obtain rfl | ⟨-, rfl⟩ := h <;> exact .inl ⟨rfl, rfl⟩
  | readIb c => obtain rfl | rfl := h <;> exact .inl ⟨rfl, rfl⟩
  | asyncTx c =>
    obtain rfl | ⟨-, hm⟩ := h
    · exact .inl ⟨rfl, rfl⟩
    · obtain ⟨w, -, rfl⟩ := sendWord_ok hm
      exact .inl ⟨rfl, rfl⟩
  | syncTx c => exact .inl (h ▸ ⟨rfl, rfl⟩)
  | txDrain c => exact .inr ⟨c, .inl rfl⟩
  | irqEntry u => exact .inr ⟨u, .inr rfl⟩
  | bitrateCalc rate => exact .inl (h ▸ ⟨rfl, rfl⟩)

theorem issued_record (c d : Chan) (s : State) : RecordRule (.syncTx c) d s.ch[d] (issued c s).ch[d] := by
  by_cases hd : d = c
  · subst hd
    have hrec : (issued d s).ch[d] = { s.ch[d] with status := .busy, txIdx := 0 } := by simp [issued]
    rw [hrec]
    exact ⟨.inr (.inr (.inl ⟨rfl, rfl⟩)), .inl rfl, .inl rfl, .inr (.inr (.inr (.inl ⟨rfl, rfl⟩))), .inl rfl,
      fun _ _ => rfl, .inl rfl⟩
  · rw [issued_other hd]
    exact .refl ..

/-- Settles O48: a fault writes nothing but the record of it, a response writes none of these fields, and the effect keeps
to the table in every channel and unit. -/
theorem commandsWriteOnlyTheirFields : Obligations.CommandsWriteOnlyTheirFields := by
  intro i s t h
  have raised : ∀ f, KeepsToTheTable i s (s.raise f) := fun f =>
    ⟨fun _ => .refl .., fun _ => .refl .., .inl rfl, .inl rfl, rfl, rfl, rfl, rfl, .inl ⟨rfl, rfl⟩⟩
  show KeepsToTheTable i s t
  obtain ⟨-, ⟨f, rfl⟩ | ⟨-, ⟨f, rfl⟩ | ⟨m, r, data, hm, rfl⟩ | ⟨c, rfl, -, rfl⟩⟩⟩ := exec_next h
  · exact raised f
  · exact raised f
  · have kept := effect_kept hm
    simp only [KeepsToTheTable, respond_ch, respond_phy, respond_seq, respond_inited, respond_cmdIn, respond_dataIn,
      respond_turns, respond_nTurns, respond_draws, respond_nDraws]
    exact ⟨fun d => (effect_rules hm d).1, fun d => (effect_rules hm d).2, .inl kept.seq, effect_inited hm, kept.cmdIn,
      kept.dataIn, kept.turns, kept.nTurns, effect_draws hm⟩
  · exact ⟨fun d => issued_record c d s, fun _ => .refl .., .inr ⟨c, rfl⟩, .inl rfl, rfl, rfl, rfl, rfl, .inl ⟨rfl, rfl⟩⟩

end Sys2Proof.Machine
end

section
/-! No command on a channel sees another channel (10_state R22, 60_exceptions R213): every operation on channel `c` commutes
with a replacement of the record and the shadows of a channel `d` other than `c`. -/

namespace Sys2Proof.Machine

/-- Another record and other shadows for channel `d`. -/
def replaced (d : Chan) (x : Channel) (p : Shadow) (s : State) : State :=
  { s with ch := s.ch.set d x, phy := s.phy.set d p }

section
variable {c d : Chan} (hd : d ≠ c) (x : Channel) (p : Shadow)

theorem replaced_params (s : State) : (replaced d x p s).params = s.params := rfl

theorem popDraw_replaced (s : State) : (replaced d x p s).popDraw = replaced d x p s.popDraw := by
  unfold State.popDraw
  simp only [replaced]
  split <;> rfl

theorem respond_replaced (op : Op) (r : PortWord) (data : List PortWord) (s : State) :
    respond op r data (replaced d x p s) = replaced d x p (respond op r data s) := by
  unfold respond
  simp only [replaced]
  split <;> rfl

include hd

theorem replaced_ch (s : State) : (replaced d x p s).ch[c] = s.ch[c] := get_set_ne _ _ (Ne.symm hd)

theorem replaced_phy (s : State) : (replaced d x p s).phy[c] = s.phy[c] := get_set_ne _ _ (Ne.symm hd)

theorem setCh_replaced (y : Channel) (s : State) : (replaced d x p s).setCh c y = replaced d x p (s.setCh c y) := by
  simp only [State.setCh, replaced, set_comm s.ch y x hd]

theorem setStatus_replaced (st : Status) (s : State) :
    setStatus c st (replaced d x p s) = replaced d x p (setStatus c st s) := by
  simp only [setStatus, replaced_ch hd, setCh_replaced hd]

theorem setTxIdx_replaced (i : Nat) (s : State) :
    setTxIdx c i (replaced d x p s) = replaced d x p (setTxIdx c i s) := by
  simp only [setTxIdx, replaced_ch hd, setCh_replaced hd]

theorem setRxIdx_replaced (i : Nat) (s : State) :
    setRxIdx c i (replaced d x p s) = replaced d x p (setRxIdx c i s) := by
  simp only [setRxIdx, replaced_ch hd, setCh_replaced hd]

theorem storeRx_replaced (w : Word) (s : State) :
    storeRx c w (replaced d x p s) = replaced d x p (storeRx c w s) := by
  simp only [storeRx, replaced_ch hd, setCh_replaced hd]

theorem phyWrite_replaced (f : Field) (v : Word) (s : State) :
    phyWrite c f v (replaced d x p s) = replaced d x p (phyWrite c f v s) := by
  simp only [phyWrite, replaced_phy hd]
  simp only [State.setPhy, State.record, replaced, set_comm s.phy _ p hd]

theorem phyWrites_replaced (ws : List (Field × Word)) (s : State) :
    phyWrites c ws (replaced d x p s) = replaced d x p (phyWrites c ws s) := by
  induction ws generalizing s with
  | nil => rfl
  | cons fv ws ih => rw [phyWrites_cons, phyWrite_replaced hd, ih, phyWrites_cons]

theorem phyReadValue_replaced (f : Field) (s : State) :
    phyReadValue c f (replaced d x p s) = phyReadValue c f s := by
  rw [phyReadValue_eq, replaced_phy hd]
  rfl

theorem phyRead_replaced (f : Field) (s : State) :
    phyRead c f (replaced d x p s) = replaced d x p (phyRead c f s) := by
  simp only [phyRead, popDraw_replaced, phyReadValue_replaced hd]
  rfl

theorem disableAll_replaced (s : State) : disableAll c (replaced d x p s) = replaced d x p (disableAll c s) :=
  phyWrites_replaced hd x p _ s

/-! ### The procedures that may fault -/

theorem sendWord_replaced (i : Nat) (s : State) :
    sendWord c i (replaced d x p s) = (sendWord c i s).map (replaced d x p) := by
  unfold sendWord
  rw [replaced_ch hd]
  cases slotAt s.ch[c].txBuf i with
  | none => rfl
  | some w => exact congrArg Except.ok (by rw [phyWrite_replaced hd, setTxIdx_replaced hd])

theorem drainLoop_replaced (n : Nat) (s : State) :
    drainLoop c n (replaced d x p s) = (drainLoop c n s).map (replaced d x p) := by
  induction n generalizing s with
  | zero =>
    simp only [drainLoop, drainComplete, disableAll_replaced hd, setTxIdx_replaced hd, setStatus_replaced hd]
    rfl
  | succ n ih =>
    simp only [drainLoop, phyReadValue_replaced hd, phyRead_replaced hd, replaced_ch hd, sendWord_replaced hd]
    split
    · rfl
    · cases sendWord c s.ch[c].txIdx (phyRead c .tnf s) with
      | error f => rfl
      | ok t => exact ih t

theorem drain_replaced (s : State) : drain c (replaced d x p s) = (drain c s).map (replaced d x p) := by
  simp only [drain, replaced_ch hd, setStatus_replaced hd, drainLoop_replaced hd]

theorem rxDrainLoop_replaced (n : Nat) (s : State) :
    rxDrainLoop c n (replaced d x p s) = replaced d x p (rxDrainLoop c n s) := by
  induction n generalizing s with
  | zero => rfl
  | succ n ih =>
    simp only [rxDrainLoop, phyReadValue_replaced hd, phyRead_replaced hd, storeRx_replaced hd, ih]
    split <;> rfl

theorem rxDrain_replaced (s : State) : rxDrain c (replaced d x p s) = replaced d x p (rxDrain c s) := by
  simp only [rxDrain, replaced_ch hd, replaced_params, rxDrainLoop_replaced hd]

theorem rxBranches_replaced (m : Word) (s : State) :
    rorBranch c m (rtBranch c m (rxBranch c m (replaced d x p s))) =
      replaced d x p (rorBranch c m (rtBranch c m (rxBranch c m s))) := by
  have rx : ∀ t, rxBranch c m (replaced d x p t) = replaced d x p (rxBranch c m t) := fun t => by
    simp only [rxBranch, rxDrain_replaced hd]
    split <;> rfl
  have rt : ∀ t, rtBranch c m (replaced d x p t) = replaced d x p (rtBranch c m t) := fun t => by
    simp only [rtBranch, rxDrain_replaced hd, phyWrite_replaced hd]
    split <;> rfl
  have ror : ∀ t, rorBranch c m (replaced d x p t) = replaced d x p (rorBranch c m t) := fun t => by
    simp only [rorBranch, phyWrite_replaced hd]
    split <;> rfl
  rw [rx, rt, ror]

theorem irqBranches_replaced (m : Word) (s : State) :
    irqBranches c m (replaced d x p s) = (irqBranches c m s).map (replaced d x p) := by
  have tx : txBranch c m (replaced d x p s) = (txBranch c m s).map (replaced d x p) := by
    simp only [txBranch, drain_replaced hd]
    split <;> rfl
  unfold irqBranches
  rw [tx]
  cases txBranch c m s with
  | error f => rfl
  | ok t => exact congrArg Except.ok (rxBranches_replaced hd x p m t)

/-! ### The commands -/

theorem writeIbBody_replaced (words : List Word) (s : State) :
    writeIbBody c words (replaced d x p s) = replaced d x p (writeIbBody c words s) := by
  simp only [writeIbBody, writeRejected, replaced_params, replaced_ch hd, setCh_replaced hd, respond_replaced]
  split
  · rfl
  · exact (apply_ite ..).symm

theorem readIbBody_replaced (s : State) :
    readIbBody c (replaced d x p s) = (readIbBody c s).map (replaced d x p) := by
  have count : readCount c (replaced d x p s) = readCount c s := by
    simp only [readCount, replaced_params, replaced_ch hd]
  unfold readIbBody
  rw [replaced_ch hd, count, respond_replaced, setRxIdx_replaced hd]
  split
  · rfl
  · cases readCount c s with
    | error f => rfl
    | ok n =>
      simp only
      cases readRxSlots c s.ch[c].rxBuf n with
      | error f => rfl
      | ok out => exact congrArg Except.ok (respond_replaced ..)

theorem asyncBody_replaced (s : State) :
    asyncBody c (replaced d x p s) = (asyncBody c s).map (replaced d x p) := by
  unfold asyncBody
  rw [replaced_ch hd, respond_replaced, sendWord_replaced hd]
  split
  · rfl
  · split
    · rfl
    · cases sendWord c s.ch[c].txIdx s with
      | error f => rfl
      | ok t => exact congrArg Except.ok (respond_replaced ..)

theorem syncIssue_replaced (s : State) : syncIssue c (replaced d x p s) = replaced d x p (syncIssue c s) := by
  simp only [syncIssue, replaced_ch hd, setStatus_replaced hd, setTxIdx_replaced hd, respond_replaced]
  split <;> rfl

theorem txDrainBody_replaced (s : State) :
    txDrainBody c (replaced d x p s) = (txDrainBody c s).map (replaced d x p) := by
  unfold txDrainBody
  rw [drain_replaced hd]
  cases drain c s with
  | error f => rfl
  | ok t => exact congrArg Except.ok (respond_replaced ..)

theorem irqBody_replaced (s : State) : irqBody c (replaced d x p s) = (irqBody c s).map (replaced d x p) := by
  simp only [irqBody, replaced_params, phyReadValue_replaced hd, phyRead_replaced hd, irqBranches_replaced hd,
    respond_replaced]
  split
  · rfl
  · cases irqBranches c (phyReadValue c .mis s) (phyRead c .mis s) with
    | error f => rfl
    | ok t => exact congrArg Except.ok (respond_replaced ..)

theorem channelBody_replaced {i : Instr} (hc : i.chan? = some c) (e : CfgEntry) (s : State) :
    channelBody i (replaced d x p s) e = (channelBody i s e).map (replaced d x p) := by
  cases i <;> simp only [Instr.chan?, reduceCtorEq, Option.some.injEq] at hc
  all_goals subst hc
  case enableIrq => exact congrArg Except.ok (by rw [phyWrites_replaced hd, respond_replaced])
  case disableIrq => exact congrArg Except.ok (by rw [disableAll_replaced hd, respond_replaced])
  case getStatus => exact congrArg Except.ok (by rw [replaced_ch hd, respond_replaced])
  case writeIb => exact congrArg Except.ok (writeIbBody_replaced hd x p _ s)
  case readIb => exact readIbBody_replaced hd x p s
  case asyncTx => exact asyncBody_replaced hd x p s
  case syncTx => exact congrArg Except.ok (syncIssue_replaced hd x p s)
  case txDrain => exact txDrainBody_replaced hd x p s
  case irqEntry => exact irqBody_replaced hd x p s

theorem withChannel_replaced {i : Instr} (hc : i.chan? = some c) (s : State) :
    withChannel i c (replaced d x p s) (channelBody i (replaced d x p s)) =
      (withChannel i c s (channelBody i s)).map (replaced d x p) := by
  unfold withChannel
  rw [replaced_params]
  by_cases hi : s.inited = true
  · rw [if_pos hi, if_pos (show (replaced d x p s).inited = true from hi)]
    split
    · exact channelBody_replaced hd x p hc _ s
    · rfl
  · rw [if_neg hi, if_neg (show ¬ (replaced d x p s).inited = true from hi)]
    rfl

end

theorem settle_replaced (d : Chan) (x : Channel) (p : Shadow) (s : State) (r : Except Fault State) :
    settle (replaced d x p s) (r.map (replaced d x p)) = replaced d x p (settle s r) := by
  cases r <;> rfl

/-- Settles O50: the first checks read the parameters and `inited`, and the body commutes with the replacement. -/
theorem commandsDoNotSeeOtherChannels : Obligations.CommandsDoNotSeeOtherChannels := by
  intro i c d s t x p hc hd h
  rw [exec_of_chan hc] at h
  obtain ⟨hf, rfl⟩ := runCommand_eq_next.1 h
  show exec i (replaced d x p s) = .next (replaced d x p _)
  rw [exec_of_chan hc, runCommand_of_none (s := replaced d x p s) hf, withChannel_replaced hd x p hc, settle_replaced]

end Sys2Proof.Machine
end

section
/-! Who moves at a step boundary: the host's command, and the holds (20_memory R61, 30_encoding R77, 10_state R37). -/

namespace Sys2Proof.Machine

/-! ### The turns of the host and the sequencer -/

theorem fetch_host {s : State} (hf : s.fault = none) (ht : s.nextTurn = .host) :
    fetch s = hostTurn s.popTurn := by
  simp [fetch, hf, ht]

theorem fetch_sequencer {s : State} (hf : s.fault = none) (ht : s.nextTurn = .sequencer) :
    fetch s = .moved (microStep s.popTurn) := by
  simp [fetch, hf, ht]

theorem step_of_moved {s t : State} (h : fetch s = .moved t) : step s = .next t := by
  rw [step, h]

theorem step_of_command {s t : State} {i : Instr} (h : fetch s = .command i t) : step s = exec i t := by
  rw [step, h]

theorem microStep_ready {s : State} (hseq : s.seq = .ready) : microStep s = s := by
  simp [microStep, hseq]

theorem hostMayIssue_iff (s : State) : hostMayIssue s = true ↔ s.seq = .ready ∧ s.hostPending = none := by
  simp [hostMayIssue]

theorem hostTurn_of_command {s : State} {w : PortWord} {words rest : List PortWord} {i : Instr}
    (hmay : hostMayIssue s = true) (hc : s.cmdIn = w :: words) (hd : decode w s.dataIn = .command i rest) :
    hostTurn s = .command i (issue i (takeWord words rest s)) := by
  simp [hostTurn, hmay, hc, hd]

theorem hostTurn_of_barred {s : State} (h : s.seq ≠ .ready ∨ s.hostPending ≠ none) : hostTurn s = .moved s :=
  if_neg fun hmay => by
    obtain ⟨hseq, hpend⟩ := (hostMayIssue_iff s).1 hmay
    exact h.elim (· hseq) (· hpend)

theorem hostTurn_of_no_word {s : State} (hc : s.cmdIn = []) : hostTurn s = .moved s := by
  simp [hostTurn, hc]

theorem hostTurn_of_incomplete {s : State} {w : PortWord} {words : List PortWord}
    (hc : s.cmdIn = w :: words) (hd : decode w s.dataIn = .incomplete) : hostTurn s = .moved s := by
  simp [hostTurn, hc, hd]

/-- Settles O7: the host may issue, and its turn brings the decoded command in the state that has it outstanding. -/
theorem stepRunsTheDecodedCommand : Obligations.StepRunsTheDecodedCommand := by
  intro s w words rest i hf ht hseq hpend hc hd
  have hmay : hostMayIssue s.popTurn = true := (hostMayIssue_iff _).2 (by simp [hseq, hpend])
  have hfetch : fetch s = .command i (issue i (takeWord words rest s.popTurn)) :=
    (fetch_host hf ht).trans (hostTurn_of_command hmay (by simpa using hc) (by simpa using hd))
  exact step_of_command hfetch

/-- Settles O9: each of the holds is a move that brings the state with the turn used. -/
theorem holdsChangeNothing : Obligations.HoldsChangeNothing := by
  refine fun s hf => ⟨fun ht h => ?_, fun ht w words hc hd => ?_, fun ht hseq => ?_⟩
  · refine step_of_moved ((fetch_host hf ht).trans ?_)
    obtain hseq | hpend | hc := h
    · exact hostTurn_of_barred (.inl (by simpa using hseq))
    · exact hostTurn_of_barred (.inr (by simpa using hpend))
    · exact hostTurn_of_no_word (by simpa using hc)
  · exact step_of_moved ((fetch_host hf ht).trans (hostTurn_of_incomplete (by simpa using hc) (by simpa using hd)))
  · exact step_of_moved ((fetch_sequencer hf ht).trans (by rw [microStep_ready (by simpa using hseq)]))

end Sys2Proof.Machine
end

section
/-! The values a PHY read can return: those of the field's width, with the masked sources of MIS at 0 (20_memory R56). -/

namespace Sys2Proof.Machine

theorem legalDraw_of_ne_mis {f : Field} (hf : f ≠ .mis) (p : Shadow) (raw : Word) :
    legalDraw p f raw = (raw.setWidth (fieldWidth f)).setWidth 16 := by
  cases f with
  | mis => exact absurd rfl hf
  | _ => rfl

/-- A bit of MIS is shown exactly where the answer has it and the masks let it be seen. -/
theorem legalDraw_mis_bit (p : Shadow) (raw : Word) (i : Nat) :
    (legalDraw p .mis raw).getLsbD i = (raw.getLsbD i && (misVisible p).getLsbD i) := by
  by_cases hi : i < 4
  · have : i < 16 := by omega
    simp [legalDraw, hi, this]
  · rw [BitVec.getLsbD_of_ge (misVisible p) i (by omega)]
    simp [legalDraw, hi]

theorem bit_set_iff (x : BitVec 1) : x[0] = true ↔ x = 1#1 := by
  revert x
  decide

/-- A source is hidden exactly when its mask bit is set. -/
theorem misVisible_false_iff (p : Shadow) :
    ((misVisible p).getLsbD 3 = false ↔ p.imTx = 1) ∧ ((misVisible p).getLsbD 2 = false ↔ p.imRx = 1) ∧
    ((misVisible p).getLsbD 1 = false ↔ p.imRt = 1) ∧ ((misVisible p).getLsbD 0 = false ↔ p.imRor = 1) := by
  simp [misVisible, bit_set_iff]

/-- A legal value is drawn from itself: the cut to the width and the hiding of the masked sources leave it as it is. -/
theorem legalDraw_self {p : Shadow} {f : Field} {v : Word} (hv : v.toNat < 2 ^ fieldWidth f)
    (hm : f = .mis → ∀ i < 4, (misVisible p).getLsbD i = false → v.getLsbD i = false) : legalDraw p f v = v := by
  by_cases hf : f = .mis
  · subst hf
    apply BitVec.eq_of_getLsbD_eq
    intro i _
    rw [legalDraw_mis_bit]
    by_cases hi : i < 4
    · cases hvis : (misVisible p).getLsbD i with
      | true => simp
      | false => simp [hm rfl i hi hvis]
    · have hlow : v.getLsbD i = false :=
        Nat.testBit_lt_two_pow (hv.trans_le (Nat.pow_le_pow_right two_pos (Nat.le_of_not_lt hi)))
      simp [hlow]
  · rw [legalDraw_of_ne_mis hf]
    apply BitVec.eq_of_toNat_eq
    rw [BitVec.toNat_setWidth, BitVec.toNat_setWidth, Nat.mod_eq_of_lt hv, Nat.mod_eq_of_lt v.isLt]

/-- Settles O39: a draw is the answer cut to the width and, for MIS, to the visible sources; so it is legal whatever the answer,
and a legal value is the draw of the answer equal to it. -/
theorem readsDrawExactlyTheLegalValues : Obligations.ReadsDrawExactlyTheLegalValues := by
  refine ⟨fun p f raw => of_decide_eq_true (legalDraw_fits p f raw), fun p raw => ?_, fun p f v hv hm => ?_, phyRead_eq⟩
  · obtain ⟨htx, hrx, hrt, hror⟩ := misVisible_false_iff p
    simp only [legalDraw_mis_bit, Bool.and_eq_false_iff]
    exact ⟨fun h => .inr (htx.2 h), fun h => .inr (hrx.2 h), fun h => .inr (hrt.2 h), fun h => .inr (hror.2 h)⟩
  · obtain ⟨htx, hrx, hrt, hror⟩ := misVisible_false_iff p
    refine ⟨v, legalDraw_self hv fun hf i hi hvis => ?_⟩
    obtain ⟨vtx, vrx, vrt, vror⟩ := hm hf
    match i, hi with
    | 3, _ => exact vtx (htx.1 hvis)
    | 2, _ => exact vrx (hrx.1 hvis)
    | 1, _ => exact vrt (hrt.1 hvis)
    | 0, _ => exact vror (hror.1 hvis)

end Sys2Proof.Machine
end

section
/-! The decoder inverts the encoder, in both directions (30_encoding R71, R72, R74, R77). -/

namespace Sys2Proof

/-! ### The decoder's cases -/

theorem decode_of_illegal {w : PortWord} {why : Illegal} (h : illegalWord w = some why) (din : List PortWord) :
    decode w din = .illegal why := by
  simp [decode, h]

/-- A legal word with its payload there is the command its fields and payload make. -/
theorem decode_eq_command_iff {w : PortWord} {din rest : List PortWord} {i : Instr} :
    decode w din = .command i rest ↔
      illegalWord w = none ∧ payloadCount w ≤ din.length ∧ instrOf w (din.take (payloadCount w)) = some i ∧
        rest = din.drop (payloadCount w) := by
  cases hl : illegalWord w with
  | some why => simp [decode_of_illegal hl]
  | none =>
    by_cases hd : din.length < payloadCount w
    · simp [decode, hl, hd]
    · cases hi : instrOf w (din.take (payloadCount w)) <;> simp [decode, hl, hd, hi, eq_comm]
      omega

/-! ### The word of a command -/

/-- The word of a command is legal and asks for exactly the command's payload. -/
theorem legalWord_statement (i : Instr) : Laws.LegalWord.Statement i := by
  cases i with
  | init => exact Laws.LegalWord.init
  | enableIrq c => exact Laws.LegalWord.enableIrq c
  | disableIrq c => exact Laws.LegalWord.disableIrq c
  | getStatus c => exact Laws.LegalWord.getStatus c
  | writeIb c words => exact Laws.LegalWord.writeIb c words
  | readIb c => exact Laws.LegalWord.readIb c
  | asyncTx c => exact Laws.LegalWord.asyncTx c
  | syncTx c => exact Laws.LegalWord.syncTx c
  | txDrain c => exact Laws.LegalWord.txDrain c
  | irqEntry u => exact Laws.LegalWord.irqEntry u
  | bitrateCalc rate => exact Laws.LegalWord.bitrateCalc rate

/-- The fields of a command's word and its payload make the command again. -/
theorem instrOf_encodeWord (i : Instr) : instrOf (encodeWord i) (encodePayload i) = some i := by
  obtain ⟨hop, hch, -, -, -⟩ := fields_encodeWord i
  have words_back : ∀ words : List Word, (words.map (·.setWidth 32)).map dinWord = words := fun words => by
    simp [Function.comp_def]
  unfold instrOf
  rw [hop, hch]
  cases i <;> simp [Instr.opcode, Instr.chan?, encodePayload, words_back]

/-- Settles O1: the word asks for exactly the payload in front, and its fields and that payload make the command. -/
theorem decodeOfEncode : Obligations.DecodeOfEncode := by
  intro i rest hwf
  obtain ⟨hlegal, hcount⟩ := legalWord_statement i hwf
  rw [decode_eq_command_iff, hcount, List.take_left, List.drop_left]
  exact ⟨hlegal, by simp, instrOf_encodeWord i, rfl⟩

/-! ### The legality check -/

/-- The opcodes that are not reserved (30_encoding R72). -/
def opcodes : List (BitVec 4) := [0x1, 0x2, 0x3, 0x4, 0x5, 0x6, 0x7, 0x8, 0x9, 0xA, 0xB]

theorem mem_opcodes_iff (op : BitVec 4) : op ∈ opcodes ↔ ¬ (op = 0 ∨ 0xC#4 ≤ op) := by
  revert op
  decide

/-- A legal word meets none of the four items of 30_encoding R76. -/
theorem illegalWord_eq_none_iff (w : PortWord) :
    illegalWord w = none ↔ opField w ∈ opcodes ∧ reservedLow w = 0 ∧ reservedHigh w = 0 ∧
      (opField w ≠ 0x5 → countField w = 0) ∧ (opField w = 0x1 ∨ opField w = 0xB → chField w = 0) := by
  rw [mem_opcodes_iff]
  unfold illegalWord
  simp only [ite_eq_iff, reduceCtorEq, and_false, false_or, and_true]
  tauto

/-! ### What the decoder reads -/

/-- What a command read from a word and its payload takes from each of them. -/
structure ReadFrom (w : PortWord) (payload : List PortWord) (i : Instr) : Prop where
  opcode : i.opcode = opField w
  chan : ∀ c, i.chan? = some c → c = chanOfBits (chField w)
  writeIb : ∀ c words, i = .writeIb c words → words = payload.map dinWord
  bitrateCalc : ∀ rate, i = .bitrateCalc rate → payload.head? = some rate

theorem instrOf_readFrom {w : PortWord} {payload : List PortWord} {i : Instr} (h : instrOf w payload = some i) :
    ReadFrom w payload i := by
  simp only [instrOf] at h
  split at h
  case h_12 => exact absurd h (by simp)
  case h_11 hop =>
    obtain ⟨rate, hrate, rfl⟩ := Option.map_eq_some_iff.1 h
    exact ⟨(BitVec.eq_of_toNat_eq hop).symm, by simp [Instr.chan?], by simp, by simpa using hrate⟩
  all_goals
    rename_i hop
    obtain rfl := Option.some.inj h
    exact ⟨(BitVec.eq_of_toNat_eq hop).symm, by simp [Instr.chan?], by simp, by simp⟩

theorem chan_eq_none_iff (i : Instr) : i.chan? = none ↔ i.opcode = 0x1 ∨ i.opcode = 0xB := by
  cases i <;> simp [Instr.chan?, Instr.opcode]

/-- COUNT is the number of words of a WRITE_IB, and 0 for the others. -/
theorem ReadFrom.count_eq {w : PortWord} {payload : List PortWord} {i : Instr} (h : ReadFrom w payload i)
    (hl : illegalWord w = none) (hn : payload.length = payloadCount w) : i.count = (countField w).toNat := by
  obtain ⟨-, -, -, hcount, -⟩ := (illegalWord_eq_none_iff w).1 hl
  by_cases h5 : opField w = 0x5
  · have hop := h.opcode.trans h5
    cases i with
    | writeIb c words =>
      rw [Instr.count, h.writeIb c words rfl]
      simpa [payloadCount, hl, h5] using hn
    | _ => exact absurd hop (by simp [Instr.opcode])
  · have hop : i.opcode ≠ 0x5 := h.opcode ▸ h5
    rw [hcount h5]
    cases i <;> simp_all [Instr.count, Instr.opcode]

theorem encodeWord_of_chan {i : Instr} {c : Chan} (h : i.chan? = some c) :
    encodeWord i = formatC i.opcode (bitsOfChan c) (BitVec.ofNat 8 i.count) := by
  rw [encodeWord, h]

theorem encodeWord_of_no_chan {i : Instr} (h : i.chan? = none) :
    encodeWord i = formatC i.opcode 0 (BitVec.ofNat 8 i.count) := by
  rw [encodeWord, h]

/-- The word a command was read from is the command's own. -/
theorem ReadFrom.encodeWord_eq {w : PortWord} {payload : List PortWord} {i : Instr} (h : ReadFrom w payload i)
    (hl : illegalWord w = none) (hn : payload.length = payloadCount w) : encodeWord i = w := by
  obtain ⟨-, hlow, hhigh, -, hchan⟩ := (illegalWord_eq_none_iff w).1 hl
  have hcount : BitVec.ofNat 8 i.count = countField w := by
    rw [h.count_eq hl hn, BitVec.ofNat_toNat, BitVec.setWidth_eq]
  cases hc : i.chan? with
  | some c =>
    rw [encodeWord_of_chan hc, h.opcode, hcount, h.chan c hc, bits_chanOfBits]
    exact formatC_fields w hlow hhigh
  | none =>
    have hch : chField w = 0 := hchan (h.opcode ▸ (chan_eq_none_iff i).1 hc)
    rw [encodeWord_of_no_chan hc, h.opcode, hcount, ← hch]
    exact formatC_fields w hlow hhigh

theorem ReadFrom.wf {w : PortWord} {payload : List PortWord} {i : Instr} (h : ReadFrom w payload i)
    (hl : illegalWord w = none) (hn : payload.length = payloadCount w) : i.wf = true := by
  have hcount : i.count ≤ 255 := by
    have := (countField w).isLt
    rw [h.count_eq hl hn]
    omega
  cases i with
  | writeIb c words => exact decide_eq_true hcount
  | _ => rfl

theorem dinWord_eq_setWidth (d : PortWord) : dinWord d = d.setWidth 16 := by
  rw [dinWord, BitVec.setWidth_eq_extractLsb' (by decide)]

/-- Settles O2: the fields read are the word's own, and the payload is what the word, being the command's, asks for. -/
theorem encodeOfDecode : Obligations.EncodeOfDecode := by
  intro w din rest i h
  obtain ⟨hl, hle, hi, rfl⟩ := decode_eq_command_iff.1 h
  have hread := instrOf_readFrom hi
  have hn : (din.take (payloadCount w)).length = payloadCount w := by simpa using hle
  have hword := hread.encodeWord_eq hl hn
  have hwf := hread.wf hl hn
  have hpayload : payloadCount w = (encodePayload i).length := hword ▸ (legalWord_statement i hwf).2
  refine ⟨hword, hwf, hpayload ▸ hle, by rw [hpayload], fun c words hwrite => ?_, ?_⟩
  · have hwords := hread.writeIb c words hwrite
    have hlen : words.length = payloadCount w := by rw [hwords, List.length_map, hn]
    rw [hlen]
    exact hwords.trans (List.map_congr_left fun d _ => dinWord_eq_setWidth d)
  · rintro rate rfl
    have hone : payloadCount w = 1 := hpayload
    simpa [hone, List.head?_take] using hread.bitrateCalc rate rfl

end Sys2Proof
end

section
/-! The rows of the opcode table are the legal words (30_encoding R72, R76). -/

namespace Sys2Proof

/-! ### The rows, one for each opcode -/

/-- The mask of an opcode's row: CH is free where the command names a channel, and COUNT for WRITE_IB alone. -/
def rowMask (op : BitVec 4) : PortWord :=
  if op = 0x5 then 0xFFFF00CF else if op = 0x1 ∨ op = 0xB then 0xFFFFFFFF else 0xFFFFFFCF

theorem opcodeRows_eq : opcodeRows = opcodes.map fun op => (op.setWidth 32, rowMask op) := by decide

theorem getLsbD_eq_of_extractLsb'_eq {a b : PortWord} {k n : Nat} (h : a.extractLsb' k n = b.extractLsb' k n) {j : Nat}
    (hk : k ≤ j) (hn : j < k + n) : a.getLsbD j = b.getLsbD j := by
  have hj := congrArg (·.getLsbD (j - k)) h
  simpa [BitVec.getLsbD_extractLsb', show j - k < n by omega, show k + (j - k) = j by omega] using hj

/-- The five fields of 30_encoding R71 cover the word. -/
theorem word_eq_iff_fields (a b : PortWord) :
    a = b ↔ opField a = opField b ∧ reservedLow a = reservedLow b ∧ reservedHigh a = reservedHigh b ∧
      countField a = countField b ∧ chField a = chField b := by
  refine ⟨fun h => by simp [h], fun ⟨hop, hlow, hhigh, hcount, hch⟩ => BitVec.eq_of_getLsbD_eq fun j hj => ?_⟩
  have hpart : j < 4 ∨ (4 ≤ j ∧ j < 6) ∨ (6 ≤ j ∧ j < 8) ∨ (8 ≤ j ∧ j < 16) ∨ 16 ≤ j := by omega
  obtain h | ⟨h, h'⟩ | ⟨h, h'⟩ | ⟨h, h'⟩ | h := hpart
  · exact getLsbD_eq_of_extractLsb'_eq hop (Nat.zero_le j) (by omega)
  · exact getLsbD_eq_of_extractLsb'_eq hch h h'
  · exact getLsbD_eq_of_extractLsb'_eq hlow h h'
  · exact getLsbD_eq_of_extractLsb'_eq hcount h h'
  · exact getLsbD_eq_of_extractLsb'_eq hhigh h hj

theorem fields_and (a b : PortWord) :
    opField (a &&& b) = opField a &&& opField b ∧ reservedLow (a &&& b) = reservedLow a &&& reservedLow b ∧
      reservedHigh (a &&& b) = reservedHigh a &&& reservedHigh b ∧
      countField (a &&& b) = countField a &&& countField b ∧ chField (a &&& b) = chField a &&& chField b := by
  simp [opField, reservedLow, reservedHigh, countField, chField, BitVec.extractLsb'_and]

theorem fields_rowMask (op : BitVec 4) :
    opField (rowMask op) = BitVec.allOnes 4 ∧ reservedLow (rowMask op) = BitVec.allOnes 2 ∧
      reservedHigh (rowMask op) = BitVec.allOnes 16 ∧
      countField (rowMask op) = (if op = 0x5 then 0 else BitVec.allOnes 8) ∧
      chField (rowMask op) = (if op = 0x1 ∨ op = 0xB then BitVec.allOnes 2 else 0) := by
  revert op
  decide

theorem fields_and_rowMask (w : PortWord) (op : BitVec 4) :
    opField (w &&& rowMask op) = opField w ∧ reservedLow (w &&& rowMask op) = reservedLow w ∧
      reservedHigh (w &&& rowMask op) = reservedHigh w ∧
      countField (w &&& rowMask op) = (if op = 0x5 then 0 else countField w) ∧
      chField (w &&& rowMask op) = (if op = 0x1 ∨ op = 0xB then chField w else 0) := by
  obtain ⟨mop, mlow, mhigh, mcount, mch⟩ := fields_rowMask op
  obtain ⟨aop, alow, ahigh, acount, ach⟩ := fields_and w (rowMask op)
  rw [aop, alow, ahigh, acount, ach, mop, mlow, mhigh, mcount, mch]
  simp only [BitVec.and_allOnes, true_and]
  constructor <;> split_ifs <;> simp only [BitVec.and_allOnes, BitVec.ofNat_eq_ofNat, BitVec.and_zero]

theorem fields_opcode (op : BitVec 4) :
    opField (op.setWidth 32) = op ∧ reservedLow (op.setWidth 32) = 0 ∧ reservedHigh (op.setWidth 32) = 0 ∧
      countField (op.setWidth 32) = 0 ∧ chField (op.setWidth 32) = 0 := by
  revert op
  decide

/-- A word belongs to an opcode's row when it has that opcode, and 0 in every field the row does not leave free. -/
theorem inRow_iff (w : PortWord) (op : BitVec 4) :
    inRow w (op.setWidth 32, rowMask op) = true ↔ opField w = op ∧ reservedLow w = 0 ∧ reservedHigh w = 0 ∧
      (op ≠ 0x5 → countField w = 0) ∧ (op = 0x1 ∨ op = 0xB → chField w = 0) := by
  obtain ⟨hop, hlow, hhigh, hcount, hch⟩ := fields_and_rowMask w op
  obtain ⟨oop, olow, ohigh, ocount, och⟩ := fields_opcode op
  rw [inRow, decide_eq_true_iff, word_eq_iff_fields, hop, hlow, hhigh, hcount, hch, oop, olow, ohigh, ocount, och]
  simp only [ite_eq_left_iff, ite_eq_right_iff, ne_eq]

/-- Settles O4: a legal word meets the conditions of its own opcode's row, and a word has one opcode. -/
theorem legalWordsAreTheTablesRows : Obligations.LegalWordsAreTheTablesRows := by
  unfold Obligations.LegalWordsAreTheTablesRows
  simp only [opcodeRows_eq, List.mem_map, exists_exists_and_eq_and, forall_exists_index, and_imp, inRow_iff]
  refine ⟨fun w => (illegalWord_eq_none_iff w).trans ?_, ?_⟩
  · exact ⟨fun ⟨hop, h⟩ => ⟨opField w, hop, rfl, h⟩, fun ⟨op, hop, h, hrest⟩ => ⟨h ▸ hop, h ▸ hrest⟩⟩
  · rintro w _ op - rfl _ op' - rfl h h'
    have hop : op = op' := ((inRow_iff w op).1 h).1.symm.trans ((inRow_iff w op').1 h').1
    rw [hop]

end Sys2Proof
end

section
/-! What the host is answered: an illegal word (30_encoding R76), and a command (R70). -/

namespace Sys2Proof.Machine

/-- Settles O3: the decoder run on each word of the list. -/
theorem listedWordsDecode : Obligations.ListedWordsDecode := by
  unfold Obligations.ListedWordsDecode
  decide

/-! ### An illegal word -/

theorem hostTurn_of_illegal {s : State} {w : PortWord} {words : List PortWord} {why : Illegal}
    (hmay : hostMayIssue s = true) (hc : s.cmdIn = w :: words) (hd : decode w s.dataIn = .illegal why) :
    hostTurn s = .moved (answerIllegal w (takeWord words s.dataIn s)) := by
  simp [hostTurn, hmay, hc, hd]

theorem answerIllegal_eq (w : PortWord) (s : State) :
    answerIllegal w s = { s with
      hist := s.hist ++ [.rsp (.illegal w) 0x00000009 []], hostPending := none, context := .mainline } := by
  rw [answerIllegal, respIllegal_eq]
  rfl

/-- The four items of 30_encoding R76 are what the legality check refuses. -/
theorem illegalWord_ne_none {w : PortWord}
    (h : (opField w = 0x0#4 ∨ 0xC#4 ≤ opField w) ∨ (reservedLow w ≠ 0#2 ∨ reservedHigh w ≠ 0#16) ∨
      (countField w ≠ 0#8 ∧ opField w ≠ 0x5#4) ∨ (chField w ≠ 0#2 ∧ (opField w = 0x1#4 ∨ opField w = 0xB#4))) :
    illegalWord w ≠ none := by
  intro hl
  obtain ⟨hop, hlow, hhigh, hcount, hch⟩ := (illegalWord_eq_none_iff w).1 hl
  obtain h | (h | h) | ⟨hn, h5⟩ | ⟨hn, h⟩ := h
  · exact (mem_opcodes_iff _).1 hop h
  · exact h hlow
  · exact h hhigh
  · exact hn (hcount h5)
  · exact hn (hch h)

/-- Settles O6: the decoder refuses the word whatever waits behind it, and the host's turn is then its answer. -/
theorem illegalWordIsAnswered : Obligations.IllegalWordIsAnswered := by
  intro s w words hf ht hseq hpend hc hitem
  obtain ⟨why, hwhy⟩ := Option.ne_none_iff_exists'.1 (illegalWord_ne_none hitem)
  have hmay : hostMayIssue s.popTurn = true := (hostMayIssue_iff _).2 (by simp [hseq, hpend])
  have hturn := hostTurn_of_illegal hmay (by simpa using hc) (decode_of_illegal hwhy s.popTurn.dataIn)
  rw [step_of_moved ((fetch_host hf ht).trans hturn), answerIllegal_eq]
  simp [takeWord]

/-! ### A command -/

/-- Settles O52: a command that does not fault responds after its effect, which appends accesses alone, or is a SYNC_TX
under way. -/
theorem commandsAnswerOnce : Obligations.CommandsAnswerOnce := by
  intro i s t h hf
  obtain ⟨-, ⟨f, rfl⟩ | ⟨-, ⟨f, rfl⟩ | ⟨m, r, data, hm, rfl⟩ | ⟨c, rfl, -, rfl⟩⟩⟩ := exec_next h
  · exact absurd hf (by simp)
  · exact absurd hf (by simp)
  · obtain ⟨es, hes, hall⟩ := (effect_kept hm).hist
    have hist : (respond (opOf i) r data m).hist = s.hist ++ (es ++ [.rsp (opOf i) r data]) := by
      rw [respond_hist, hes, List.append_assoc]
    exact .inl ⟨es, r, data, newEvents_of_append hist, fun e he => (hall e he).1⟩
  · exact .inr ⟨c, rfl, newEvents_of_append (by simp [issued]), rfl⟩

end Sys2Proof.Machine
end

section
/-! A SYNC_TX from its issue to its completion (43_transfer R150 to R154), and the pseudo-instruction SEND
(30_encoding R81). -/

namespace Sys2Proof.Machine

/-! ### The micro-steps -/

theorem microStep_write {c : Chan} {i polls : Nat} {s : State} (hseq : s.seq = .syncTx c i .write polls) :
    microStep s = settle s (syncWrite c i s.enterMainline) := by
  simp [microStep, hseq]

theorem microStep_wait {c : Chan} {i polls : Nat} {s : State} (hseq : s.seq = .syncTx c i .wait polls) :
    microStep s = syncWait c i polls s.enterMainline := by
  simp [microStep, hseq]

theorem step_sequencer {s : State} (hf : s.fault = none) (ht : s.nextTurn = .sequencer) :
    step s = .next (microStep s.popTurn) :=
  step_of_moved (fetch_sequencer hf ht)

theorem respond_of_mainline {s : State} (h : s.context = .mainline) (op : Op) (r : PortWord) (data : List PortWord) :
    respond op r data s = { s with hist := s.hist ++ [.rsp op r data], hostPending := none } := by
  simp [respond, h, State.record]

/-- The end of a SYNC_TX, as one update of the state. -/
theorem syncEnd_eq (c : Chan) (r : PortWord) {s : State} (h : s.context = .mainline) :
    syncEnd c r s = { s with
      ch := s.ch.set c { s.ch[c] with txIdx := 0, status := .idle }
      seq := .ready
      hist := s.hist ++ [.rsp .syncTx r []]
      hostPending := none } := by
  rw [syncEnd, respond_of_mainline (by simpa using h)]
  simp [State.setSeq, setStatus, setTxIdx, State.setCh]

/-- Past the last word the Write micro-step completes (43_transfer R154). -/
theorem step_complete {c : Chan} {i polls : Nat} {s : State} (hf : s.fault = none) (ht : s.nextTurn = .sequencer)
    (hseq : s.seq = .syncTx c i .write polls) (hi : s.ch[c].txLen ≤ i) :
    step s = .next { s.popTurn with
      ch := s.ch.set c { s.ch[c] with txIdx := 0, status := .idle }
      seq := .ready
      hist := s.hist ++ [.rsp .syncTx 0x00000000 []]
      hostPending := none
      context := .mainline } := by
  rw [step_sequencer hf ht, microStep_write (by simpa using hseq), syncWrite, if_pos (by simpa using hi), settle_ok,
    syncEnd_eq c respOk rfl]
  simp [State.enterMainline]

/-- Below it, the Write micro-step sends the word and waits (43_transfer R151). -/
theorem step_write {c : Chan} {i polls : Nat} {s : State} {w : Word} (hf : s.fault = none)
    (ht : s.nextTurn = .sequencer) (hseq : s.seq = .syncTx c i .write polls) (hi : i < s.ch[c].txLen)
    (hw : slotAt s.ch[c].txBuf i = some w) :
    step s = .next { s.popTurn with
      ch := s.ch.set c { s.ch[c] with txIdx := i + 1 }
      seq := .syncTx c i .wait 0
      hist := s.hist ++ [.write c .dr w]
      context := .mainline } := by
  rw [step_sequencer hf ht, microStep_write (by simpa using hseq), syncWrite, if_neg (by simpa using hi),
    sendWord_of_written (w := w) (by simpa using hw), sent_eq]
  simp [State.enterMainline, State.setSeq]

/-- A BSY read returns the low bit of the PHY's answer. -/
theorem phyRead_bsy (c : Chan) (s : State) :
    phyRead c .bsy s = { s.popDraw with hist := s.hist ++ [.read c .bsy (phyReadValue c .bsy s)] } :=
  phyRead_eq c .bsy s

theorem bsy_clear {c : Chan} {s : State} (h : s.nextDraw.getLsbD 0 = false) : phyReadValue c .bsy s = 0 := by
  rw [phyReadValue_eq, legalDraw_bit _ _ _ rfl (by simp), h]
  rfl

theorem bsy_set {c : Chan} {s : State} (h : s.nextDraw.getLsbD 0 = true) : phyReadValue c .bsy s = 1 := by
  rw [phyReadValue_eq, legalDraw_bit _ _ _ rfl (by simp), h]
  rfl

theorem enterMainline_popDraw (s : State) : s.enterMainline.popDraw = { s.popDraw with context := .mainline } := by
  unfold State.popDraw State.enterMainline
  cases s.draws <;> rfl

theorem timedOut_eq_false {p : Params} {polls : Nat} (h : ∀ n, p.syncTimeout = some n → polls < n) :
    timedOut p polls = false := by
  unfold timedOut
  split
  · exact decide_eq_false (by have := h _ ‹_›; omega)
  · rfl

/-- A BSY read of 0 ends the wait for a word (43_transfer R152). -/
theorem step_wait_clear {c : Chan} {i polls : Nat} {s : State} (hf : s.fault = none) (ht : s.nextTurn = .sequencer)
    (hseq : s.seq = .syncTx c i .wait polls) (hd : s.nextDraw.getLsbD 0 = false) :
    step s = .next { s.popTurn.popDraw with
      seq := .syncTx c (i + 1) .write 0
      hist := s.hist ++ [.read c .bsy 0]
      context := .mainline } := by
  have hbsy : phyReadValue c .bsy s.popTurn.enterMainline = 0 := bsy_clear (by simpa using hd)
  rw [step_sequencer hf ht, microStep_wait (by simpa using hseq), syncWait, if_pos hbsy, phyRead_bsy, hbsy,
    enterMainline_popDraw]
  simp [State.setSeq]

/-- A BSY read of 1 that does not reach the timeout counts (43_transfer R152). -/
theorem step_wait_busy {c : Chan} {i polls : Nat} {s : State} (hf : s.fault = none) (ht : s.nextTurn = .sequencer)
    (hseq : s.seq = .syncTx c i .wait polls) (hd : s.nextDraw.getLsbD 0 = true)
    (hn : ∀ n, s.params.syncTimeout = some n → polls + 1 < n) :
    step s = .next { s.popTurn.popDraw with
      seq := .syncTx c i .wait (polls + 1)
      hist := s.hist ++ [.read c .bsy 1]
      context := .mainline } := by
  have hbsy : phyReadValue c .bsy s.popTurn.enterMainline = 1 := bsy_set (by simpa using hd)
  have htime : timedOut s.popTurn.enterMainline.params (polls + 1) = false := timedOut_eq_false (by simpa using hn)
  rw [step_sequencer hf ht, microStep_wait (by simpa using hseq), syncWait, if_neg (by rw [hbsy]; decide), htime,
    phyRead_bsy, hbsy, enterMainline_popDraw]
  simp [State.setSeq]

theorem popTurn_popDraw_cons {s : State} {t : Turn} {ts : List Turn} {w : Word} {ds : List Word}
    (ht : s.turns = t :: ts) (hd : s.draws = w :: ds) : s.popTurn.popDraw = { s with turns := ts, draws := ds } := by
  rw [popDraw_cons (s := s.popTurn) (by simpa using hd), popTurn_cons ht]

/-! ### The words of a SYNC_TX, one after the other -/

/-- The wait for one word: `k` BSY reads of 1 below the timeout, and one of 0. -/
theorem run_wait {c : Chan} {i : Nat} (k : Nat) {p : Nat} {s : State} {ts : List Turn} {ds : List Word}
    (hf : s.fault = none) (hseq : s.seq = .syncTx c i .wait p)
    (hn : ∀ n, s.params.syncTimeout = some n → p + k < n)
    (ht : s.turns = List.replicate (k + 1) .sequencer ++ ts) (hd : s.draws = List.replicate k 1 ++ 0 :: ds) :
    run (k + 1) s = .next { s with
      seq := .syncTx c (i + 1) .write 0
      hist := s.hist ++ List.replicate k (.read c .bsy 1) ++ [.read c .bsy 0]
      context := .mainline
      turns := ts
      draws := ds } := by
  induction k generalizing p s with
  | zero =>
    have hstep := step_wait_clear hf (nextTurn_cons ht) hseq (by rw [nextDraw_cons hd]; rfl)
    rw [popTurn_popDraw_cons ht hd] at hstep
    rw [run_succ hstep, run_zero]
    simp
  | succ k ih =>
    rw [List.replicate_succ, List.cons_append] at ht hd
    have hstep := step_wait_busy hf (nextTurn_cons ht) hseq (by rw [nextDraw_cons hd]; rfl)
      (fun n h => by have := hn n h; omega)
    rw [popTurn_popDraw_cons ht hd] at hstep
    refine (run_succ hstep _).trans ((ih ?_ rfl ?_ rfl rfl).trans ?_)
    · exact hf
    · intro n h
      have := hn n h
      omega
    · simp [List.replicate_succ]

/-- One word: it is written to DR, and waited for. -/
theorem run_word {c : Chan} {i p : Nat} {w : Word} {k : Nat} {s : State} {ts : List Turn} {ds : List Word}
    (hf : s.fault = none) (hseq : s.seq = .syncTx c i .write p) (hi : i < s.ch[c].txLen)
    (hw : slotAt s.ch[c].txBuf i = some w) (hn : ∀ n, s.params.syncTimeout = some n → k < n)
    (ht : s.turns = List.replicate (k + 2) .sequencer ++ ts) (hd : s.draws = List.replicate k 1 ++ 0 :: ds) :
    run (k + 2) s = .next { s with
      ch := s.ch.set c { s.ch[c] with txIdx := i + 1 }
      seq := .syncTx c (i + 1) .write 0
      hist := s.hist ++ .write c .dr w :: List.replicate k (.read c .bsy 1) ++ [.read c .bsy 0]
      context := .mainline
      turns := ts
      draws := ds } := by
  rw [List.replicate_succ, List.cons_append] at ht
  have hstep := step_write hf (nextTurn_cons ht) hseq hi hw
  rw [popTurn_cons ht] at hstep
  refine (run_succ hstep _).trans ((run_wait (ds := ds) k ?_ rfl ?_ rfl ?_).trans ?_)
  · exact hf
  · simpa using hn
  · exact hd
  · simp

/-- The events of a SYNC_TX that sends `words`, with `polls[j]` BSY reads of 1 behind word `j`. -/
def sendEvents (c : Chan) (words : List Word) (polls : List Nat) : List Event :=
  (words.zip polls).flatMap fun wk =>
    .write c .dr wk.1 :: List.replicate wk.2 (.read c .bsy 1) ++ [.read c .bsy 0]

/-- From word `i` on, the words left are sent in order, and the SYNC_TX completes (43_transfer R151, R152, R154). -/
theorem run_syncTx {c : Chan} (words : List Word) {i p : Nat} {polls : List Nat} {s : State} {ts : List Turn}
    {ds : List Word} (hf : s.fault = none) (hseq : s.seq = .syncTx c i .write p)
    (hlen : s.ch[c].txLen = i + words.length)
    (hslots : ∀ j, j < words.length → slotAt s.ch[c].txBuf (i + j) = words[j]?) (hpolls : polls.length = words.length)
    (hn : ∀ n, s.params.syncTimeout = some n → ∀ k ∈ polls, k < n)
    (ht : s.turns = List.replicate (2 * words.length + polls.sum + 1) .sequencer ++ ts)
    (hd : s.draws = polls.flatMap (fun k => List.replicate k 1 ++ [0]) ++ ds) :
    run (2 * words.length + polls.sum + 1) s = .next { s with
      ch := s.ch.set c { s.ch[c] with status := .idle, txIdx := 0 }
      seq := .ready
      hist := s.hist ++ sendEvents c words polls ++ [.rsp .syncTx 0x00000000 []]
      hostPending := none
      context := .mainline
      turns := ts
      draws := ds } := by
  induction words generalizing i p polls s with
  | nil =>
    obtain rfl : polls = [] := List.length_eq_zero_iff.1 hpolls
    have hstep := step_complete hf (nextTurn_cons ht) hseq hlen.le
    rw [popTurn_cons ht] at hstep
    have hd' : s.draws = ds := hd
    simpa [hd', sendEvents] using run_succ hstep 0
  | cons w words ih =>
    obtain ⟨k, polls, rfl⟩ := List.exists_cons_of_length_eq_add_one hpolls
    rw [List.length_cons] at hlen
    have hsteps : 2 * (w :: words).length + (k :: polls).sum + 1 = (k + 2) + (2 * words.length + polls.sum + 1) := by
      simp only [List.length_cons, List.sum_cons]
      omega
    rw [hsteps, List.replicate_add, List.append_assoc] at ht
    have hword := run_word hf hseq (by omega) (by simpa using hslots 0) (fun n h => hn n h k (by simp)) ht
      (by simpa using hd)
    rw [hsteps, run_add hword]
    refine (ih ?_ rfl ?_ ?_ ?_ ?_ rfl rfl).trans ?_
    · exact hf
    · simp only [Fin.getElem_fin, Vector.getElem_set_self] at hlen ⊢
      omega
    · intro j hj
      have hslot := hslots (j + 1) (by simpa using hj)
      simpa [show i + 1 + j = i + (j + 1) by omega] using hslot
    · simpa using hpolls
    · exact fun n h x hx => hn n h x (List.mem_cons_of_mem k hx)
    · simp [sendEvents]

/-! ### The host's commands -/

/-- The host's turn with a command laid out on the ports is exec of that command (10_state R37). -/
theorem step_issues {i : Instr} {s : State} {cmds din : List PortWord} (hwf : i.wf = true) (hf : s.fault = none)
    (ht : s.nextTurn = .host) (hseq : s.seq = .ready) (hpend : s.hostPending = none)
    (hc : s.cmdIn = encodeWord i :: cmds) (hdin : s.dataIn = encodePayload i ++ din) :
    step s = exec i { s.popTurn with cmdIn := cmds, dataIn := din, hostPending := some i, context := .mainline } :=
  stepRunsTheDecodedCommand s _ cmds din i hf ht hseq hpend hc (by rw [hdin]; exact decodeOfEncode i din hwf)

/-- Past the first checks a command that names a channel is its own body. -/
theorem exec_of_accepts {i : Instr} {c : Chan} {s : State} (hc : i.chan? = some c) (hs : Accepts c s) :
    ∃ e, exec i s = .next (settle s (channelBody i s e)) := by
  obtain ⟨hf, hi, hactive⟩ := hs
  obtain ⟨e, he⟩ := Option.isSome_iff_exists.1 hactive
  exact ⟨e, by rw [exec_of_chan hc, runCommand_of_none hf, withChannel_of_active i _ hi he]⟩

theorem exec_writeIb_idle {c : Chan} {words : List Word} {s : State} (hs : Accepts c s)
    (hidle : s.ch[c].status = .idle) (hcap : words.length ≤ s.params.txCap) :
    exec (.writeIb c words) s = .next (respond .writeIb respOk [] (s.setCh c (loadTx words s.ch[c]))) := by
  obtain ⟨e, he⟩ := exec_of_accepts (i := .writeIb c words) rfl hs
  have htaken : ¬ writeRejected c s = true := by
    rw [writeRejected, hidle]
    simp
  rw [he, channelBody, writeIbBody, if_neg (Nat.not_lt.2 hcap), if_neg htaken, settle_ok]

theorem exec_syncTx_idle {c : Chan} {s : State} (hs : Accepts c s) (hidle : s.ch[c].status = .idle) :
    exec (.syncTx c) s = .next (issued c s) := by
  obtain ⟨e, he⟩ := exec_of_accepts (i := .syncTx c) rfl hs
  rw [he, channelBody, syncIssue, if_pos hidle, settle_ok, issued]

/-- The host's turn with a WRITE_IB that the Idle channel takes (42_buffers R130). -/
theorem step_writeIb {c : Chan} {words : List Word} {s : State} {cmds din : List PortWord} {ts : List Turn}
    (hs : Accepts c s) (hseq : s.seq = .ready) (hpend : s.hostPending = none) (hidle : s.ch[c].status = .idle)
    (hcap : words.length ≤ s.params.txCap) (h255 : words.length ≤ 255)
    (hc : s.cmdIn = encodeWord (.writeIb c words) :: cmds) (hdin : s.dataIn = encodePayload (.writeIb c words) ++ din)
    (ht : s.turns = .host :: ts) :
    step s = .next { s with
      ch := s.ch.set c (loadTx words s.ch[c])
      hist := s.hist ++ [.rsp .writeIb 0x00000000 []]
      hostPending := none
      context := .mainline
      cmdIn := cmds
      dataIn := din
      turns := ts } := by
  have hwf : (Instr.writeIb c words).wf = true := decide_eq_true h255
  rw [step_issues hwf hs.1 (nextTurn_cons ht) hseq hpend hc hdin, popTurn_cons ht,
    exec_writeIb_idle (by exact hs) (by exact hidle) (by exact hcap), respond_of_mainline rfl, respOk_eq]
  rfl

/-- The host's turn with a SYNC_TX for an Idle channel (43_transfer R150). -/
theorem step_syncTx {c : Chan} {s : State} {cmds : List PortWord} {ts : List Turn} (hs : Accepts c s)
    (hseq : s.seq = .ready) (hpend : s.hostPending = none) (hidle : s.ch[c].status = .idle)
    (hc : s.cmdIn = encodeWord (.syncTx c) :: cmds) (ht : s.turns = .host :: ts) :
    step s = .next { s with
      ch := s.ch.set c { s.ch[c] with status := .busy, txIdx := 0 }
      seq := .syncTx c 0 .write 0
      hostPending := some (.syncTx c)
      context := .mainline
      cmdIn := cmds
      turns := ts } := by
  rw [step_issues rfl hs.1 (nextTurn_cons ht) hseq hpend hc (din := s.dataIn) rfl, popTurn_cons ht,
    exec_syncTx_idle (by exact hs) (by exact hidle)]
  simp [issued, State.setSeq, setTxIdx, setStatus, State.setCh]

/-! ### A PHY that is never busy -/

theorem sendEvents_never_busy (c : Chan) (words : List Word) :
    sendEvents c words (List.replicate words.length 0) =
      words.flatMap fun w => [.write c .dr w, .read c .bsy 0] := by
  induction words with
  | nil => rfl
  | cons w words ih => simpa [sendEvents, List.replicate_succ] using ih

theorem draws_never_busy (n : Nat) :
    (List.replicate n 0).flatMap (fun k => List.replicate k (1 : Word) ++ [0]) = List.replicate n 0 := by
  induction n with
  | zero => rfl
  | succ n ih => rw [List.replicate_succ, List.flatMap_cons, ih, List.replicate_succ]; rfl

/-- A whole SYNC_TX, from the host's turn to the completion. -/
theorem run_syncTx_never_busy {c : Chan} {words : List Word} {s : State} {cmds : List PortWord} {ts : List Turn}
    {ds : List Word} (hs : Accepts c s) (hseq : s.seq = .ready) (hpend : s.hostPending = none)
    (hidle : s.ch[c].status = .idle) (hlen : s.ch[c].txLen = words.length)
    (hslots : ∀ j, j < words.length → slotAt s.ch[c].txBuf j = words[j]?) (htime : s.params.syncTimeout = none)
    (hc : s.cmdIn = encodeWord (.syncTx c) :: cmds)
    (ht : s.turns = .host :: (List.replicate (2 * words.length + 1) .sequencer ++ ts))
    (hd : s.draws = List.replicate words.length 0 ++ ds) :
    run (2 * words.length + 2) s = .next { s with
      ch := s.ch.set c { s.ch[c] with status := .idle, txIdx := 0 }
      seq := .ready
      hist := s.hist ++ words.flatMap (fun w => [.write c .dr w, .read c .bsy 0]) ++ [.rsp .syncTx 0x00000000 []]
      hostPending := none
      context := .mainline
      cmdIn := cmds
      turns := ts
      draws := ds } := by
  have hpolls : (List.replicate words.length 0).sum = 0 := by simp
  have hsend := fun {t : State} => run_syncTx (c := c) (s := t) (i := 0) (p := 0) (ts := ts) (ds := ds) words
    (polls := List.replicate words.length 0)
  rw [hpolls, sendEvents_never_busy, draws_never_busy] at hsend
  refine (run_succ (step_syncTx hs hseq hpend hidle hc ht) _).trans ((hsend ?_ rfl ?_ ?_ ?_ ?_ rfl ?_).trans ?_)
  · exact hs.1
  · simpa using hlen
  · simpa using hslots
  · simp
  · simp [htime]
  · exact hd
  · simp

/-- Settles O56: the load, the issue, and then the words one after the other, each with no wait. -/
theorem sendPseudoSendsTheWords : Obligations.SendPseudoSendsTheWords := by
  intro s c words cmds din ts ds hs hseq hpend hidle hcap h255 htime hc hdin ht hd
  have hc' : s.cmdIn = encodeWord (.writeIb c words) :: encodeWord (.syncTx c) :: cmds := hc
  have hdin' : s.dataIn = encodePayload (.writeIb c words) ++ din := by simpa [expandPseudo, encodePayload] using hdin
  have ht' : s.turns = .host :: .host :: (List.replicate (2 * words.length + 1) .sequencer ++ ts) := ht
  have hload := step_writeIb hs hseq hpend hidle hcap h255 hc' hdin' ht'
  have hslots : ∀ j, j < words.length → slotAt (loadTx words s.ch[c]).txBuf j = words[j]? := fun j hj => by
    rw [loadTx, slotAt_loadSlots, if_pos hj]
  refine ⟨_, (run_succ hload _).trans
    (run_syncTx_never_busy (words := words) ?_ hseq rfl ?_ ?_ ?_ htime rfl rfl hd), ?_⟩
  · exact hs
  · simpa [loadTx] using hidle
  · simp [loadTx]
  · simpa using hslots
  · refine ⟨by simp, ?_, ?_, ?_, ?_, rfl, rfl, hs.1, rfl, rfl, rfl, rfl⟩
    · simp
    · simp
    · simp [loadTx]
    · simpa using hslots

end Sys2Proof.Machine
end

section
/-! The bit-rate function, BITRATE_CALC and INIT (spec/40_init_bitrate.md). -/

namespace Sys2Proof.Machine

/-! ### The two paths of the bit-rate function -/

theorem bitrate_preferred {sysclk rate : Nat} (h : sysclk / rate % 2 = 0 ∧ sysclk / rate ≤ 254) :
    bitrate sysclk rate = (sysclk / rate, 0) :=
  if_pos h

theorem bitrate_fallback {sysclk rate : Nat} (h : ¬ (sysclk / rate % 2 = 0 ∧ sysclk / rate ≤ 254)) :
    bitrate sysclk rate = (2, sysclk / rate - 1) :=
  if_neg h

/-- A ratio of 0 takes the preferred path (40_init_bitrate R104). -/
theorem one_le_of_fallback {ratio : Nat} (h : ¬ (ratio % 2 = 0 ∧ ratio ≤ 254)) : 1 ≤ ratio := by
  omega

/-- Settles O15: the two branches of the function, and a ratio of 0 is on the first. -/
theorem bitrateTakesThePath : Obligations.BitrateTakesThePath :=
  fun _ _ _ => ⟨bitrate_preferred, fun h => ⟨bitrate_fallback h, one_le_of_fallback h⟩⟩

/-! ### Legal pairs -/

theorem legalPair_iff (p d : Nat) : legalPair (p, d) = true ↔ p % 2 = 0 ∧ 2 ≤ p ∧ p ≤ 254 ∧ d ≤ 255 := by
  simp [legalPair, and_assoc]

/-- The preferred path returns a legal pair but for ratio 0, the fallback path up to ratio 256 (40_init_bitrate R105). -/
theorem legalPair_bitrate_iff (sysclk rate : Nat) :
    legalPair (bitrate sysclk rate) = true ↔ 1 ≤ sysclk / rate ∧ sysclk / rate ≤ 256 := by
  by_cases h : sysclk / rate % 2 = 0 ∧ sysclk / rate ≤ 254
  · rw [bitrate_preferred h, legalPair_iff]
    generalize sysclk / rate = ratio at h ⊢
    omega
  · rw [bitrate_fallback h, legalPair_iff]
    generalize sysclk / rate = ratio at h ⊢
    omega

/-- Settles O16: ratio 0 takes the preferred path, and ratios from 257 the fallback path. -/
theorem illegalPairsAreTwoCases : Obligations.IllegalPairsAreTwoCases := by
  refine ⟨legalPair_iff, fun sysclk rate hrate => ⟨?_, Nat.div_eq_zero_iff_lt hrate, fun h0 => ?_, fun h257 => ?_⟩⟩
  · rw [← Bool.not_eq_true, legalPair_bitrate_iff]
    generalize sysclk / rate = ratio
    omega
  · rw [bitrate_preferred (by omega), h0]
  · rw [bitrate_fallback (by omega)]
    exact ⟨rfl, Nat.le_sub_one_of_lt h257⟩

/-- Settles O19: the preferred pair multiplies out to the ratio, and the fallback pair to twice the ratio. -/
theorem achievedRate : Obligations.AchievedRate := by
  intro sysclk rate p d _ hpair _
  refine ⟨fun h => ?_, fun h => ?_⟩
  · obtain ⟨rfl, rfl⟩ := Prod.mk.inj (hpair.symm.trans (bitrate_preferred h))
    simpa using Nat.div_mul_le_self sysclk rate
  · obtain ⟨rfl, rfl⟩ := Prod.mk.inj (hpair.symm.trans (bitrate_fallback h))
    rw [Nat.add_sub_cancel' (one_le_of_fallback h)]

/-! ### The answer of BITRATE_CALC -/

theorem bitrate_le (sysclk rate : Nat) : (bitrate sysclk rate).1 ≤ 254 ∧ (bitrate sysclk rate).2 ≤ sysclk := by
  by_cases h : sysclk / rate % 2 = 0 ∧ sysclk / rate ≤ 254
  · rw [bitrate_preferred h]
    exact ⟨h.2, Nat.zero_le _⟩
  · rw [bitrate_fallback h]
    exact ⟨(by decide : 2 ≤ 254), (Nat.sub_le _ _).trans (Nat.div_le_self _ _)⟩

/-- Settles O18: the prescaler is a byte, and the divider is at most SYSCLK. -/
theorem bitratePairFitsThePort : Obligations.BitratePairFitsThePort := by
  intro sysclk rate hclk _
  obtain ⟨hp, hd⟩ := bitrate_le sysclk rate
  rw [BitVec.toNat_ofNat, BitVec.toNat_ofNat]
  exact ⟨Nat.mod_eq_of_lt (hp.trans_lt (by decide)), Nat.mod_eq_of_lt (hd.trans_lt hclk)⟩

/-- A nonzero rate is answered, whatever else the state holds (40_init_bitrate R107). -/
theorem bitrateBody_of_ne_zero {rate : PortWord} (h : rate ≠ 0) (s : State) :
    bitrateBody rate s = .ok (respond .bitrateCalc (respLegal (legalPair (bitrate s.params.sysclk rate.toNat)))
      [doutNat (bitrate s.params.sysclk rate.toNat).1, doutNat (bitrate s.params.sysclk rate.toNat).2] s) :=
  if_neg h

/-- The rate 0 has no ratio, and is the one fault of BITRATE_CALC (40_init_bitrate R107). -/
theorem bitrateBody_zero (s : State) : bitrateBody 0 s = .error (.configRange none) := rfl

theorem encodeWord_bitrateCalc (rate : PortWord) : encodeWord (.bitrateCalc rate) = 0x0000000B :=
  (encodeWord_of_no_chan rfl).trans (show formatC 0xB#4 0 0#8 = 0x0000000B by decide)

theorem exec_bitrateCalc {s : State} (hf : s.fault = none) (rate : PortWord) :
    exec (.bitrateCalc rate) s = .next (settle s (bitrateBody rate s)) :=
  runCommand_of_none hf _

/-- Settles O17: the command has no check before its body, and the body's two outcomes are the rule's. -/
theorem bitrateCalcAnswersThePair : Obligations.BitrateCalcAnswersThePair := by
  refine fun rate s => ⟨encodeWord_bitrateCalc rate, fun hf hrate => ?_, fun hf hrate => ?_⟩
  · rw [exec_bitrateCalc hf, bitrateBody_of_ne_zero hrate, settle_ok, respLegal_eq]
    rfl
  · rw [exec_bitrateCalc hf, hrate, bitrateBody_zero, settle_error]
    rfl

/-! ### INIT -/

theorem exec_init {s : State} (hf : s.fault = none) : exec .init s = .next (settle s (initBody s)) :=
  runCommand_of_none hf _

theorem initBody_of_check {s : State} (h : initCheck s.params = none) :
    initBody s = .ok (respond .init respOk [] (allChans.foldl initChannel s).setInited) := by
  rw [initBody, h]

theorem initBody_of_defect {s : State} {c : Chan} (h : initCheck s.params = some c) :
    initBody s = .error (.configRange (some c)) := by
  rw [initBody, h]

theorem channelDefect_iff (p : Params) (c : Chan) :
    channelDefect p c = true ↔ ∃ e, p.cfg[c] = some e ∧ EntryDefective p e := by
  unfold channelDefect
  split
  · rename_i e he
    rw [configDefect_iff, he]
    simp
  · rename_i he
    rw [he]
    simp

/-- The channels that INIT's check visits before channel `c` are those below it. -/
theorem allChans_split (c : Chan) :
    allChans = allChans.take c ++ c :: allChans.drop (c + 1) ∧ ∀ d ∈ allChans.take c, d < c := by
  revert c
  decide

/-- INIT's check stops at the lowest active channel with a defective entry. -/
theorem initCheck_first {p : Params} {c : Chan} {e : CfgEntry} (hc : p.cfg[c] = some e) (hdef : EntryDefective p e)
    (hlow : ∀ (d : Chan) (e' : CfgEntry), d < c → p.cfg[d] = some e' → ¬ EntryDefective p e') :
    initCheck p = some c := by
  obtain ⟨hsplit, hbelow⟩ := allChans_split c
  have hsound : ∀ d ∈ allChans.take c, (!channelDefect p d) = true := fun d hd => by
    rw [Bool.not_eq_true', ← Bool.not_eq_true, channelDefect_iff]
    rintro ⟨e', he', hdef'⟩
    exact hlow d e' (hbelow d hd) he' hdef'
  exact List.find?_eq_some_iff_append.2 ⟨(channelDefect_iff p c).2 ⟨e, hc, hdef⟩, _, _, hsplit, hsound⟩

/-- Settles O14: the check finds that channel, and its fault is raised in the state INIT starts in. -/
theorem initRejectsADefectiveTable : Obligations.InitRejectsADefectiveTable := by
  intro s c e hf hc hdef hlow
  rw [exec_init hf, initBody_of_defect (initCheck_first hc hdef hlow), settle_error]
  rfl

/-- Settles O13: the check passes, and the loop over the channels is as `initChannels_spec` says. -/
theorem initProgramsTheUnits : Obligations.InitProgramsTheUnits := by
  refine ⟨rfl, fun s hf hsound => ?_⟩
  obtain ⟨hframe, hchan⟩ := initChannels_spec allChans allChans_nodup s
  refine ⟨(allChans.foldl initChannel s).setInited, ?_, rfl, ?_, fun c e hc => ?_, fun c hc => ?_, ?_⟩
  · rw [exec_init hf, initBody_of_check (initCheck_none.2 hsound), settle_ok, respOk_eq]
  · rw [setInited_hist, hframe]
    rfl
  · obtain ⟨hch, hphy⟩ := (hchan c).2 e (mem_allChans c) hc
    exact ⟨hch, hphy.trans (programmed_eq s.params e s.phy[c])⟩
  · exact (hchan c).1 (.inr hc)
  · rw [hframe]
    exact ⟨rfl, rfl, hf, rfl, rfl, rfl, rfl, rfl, rfl, rfl, rfl⟩

end Sys2Proof.Machine
end

section
/-! ENABLE_IRQ and DISABLE_IRQ (spec/41_irq_control.md). -/

namespace Sys2Proof.Machine

/-! ### The command word and the run of a command on an active channel -/

/-- The word of a command that names a channel and has no COUNT: the opcode, and the channel in bits 5 and 4
(30_encoding R72, R80). -/
theorem encodeWord_of_chan_no_count {i : Instr} {c : Chan} (hc : i.chan? = some c) (hn : i.count = 0) :
    encodeWord i = i.opcode.setWidth 32 ||| (BitVec.ofNat 32 c.val <<< 4) := by
  have key : ∀ (op : BitVec 4) (d : Chan),
      formatC op (bitsOfChan d) 0#8 = op.setWidth 32 ||| (BitVec.ofNat 32 d.val <<< 4) := by decide
  rw [encodeWord_of_chan hc, hn]
  exact key i.opcode c

/-- A command on an active channel of an initialized block is its own body. -/
theorem exec_of_active {i : Instr} {c : Chan} {s : State} {e : CfgEntry} (hc : i.chan? = some c) (hf : s.fault = none)
    (hi : s.inited = true) (he : s.params.cfg[c] = some e) : exec i s = .next (settle s (channelBody i s e)) := by
  rw [exec_of_chan hc, runCommand_of_none hf, withChannel_of_active i _ hi he]

/-! ### The writes of ENABLE_IRQ -/

/-- The events of ENABLE_IRQ's writes: one for each source whose flag is 1, in order (41_irq_control R121). -/
theorem enableWrites_events (c : Chan) (e : CfgEntry) :
    (enableWrites e).map (fun fv => Event.write c fv.1 fv.2) =
      (if e.ieRor = 1 then [.write c .imRor 0] else []) ++ (if e.ieRt = 1 then [.write c .imRt 0] else []) ++
        (if e.ieRx = 1 then [.write c .imRx 0] else []) ++ (if e.ieTx = 1 then [.write c .imTx 0] else []) := by
  simp only [enableWrites, List.map_append, apply_ite (List.map _), List.map_cons, List.map_nil]

theorem phyWrites_enableWrites (c : Chan) (e : CfgEntry) (s : State) :
    phyWrites c (enableWrites e) s = { s with
      phy := s.phy.set c (unmasked e s.phy[c])
      hist := s.hist ++ (enableWrites e).map (fun fv => .write c fv.1 fv.2) } := by
  rw [← enableWrites_phy, phyWrites_eq]

/-! ### The two commands -/

/-- Settles O20: past the first checks the command is its writes and the answer OK. -/
theorem enableIrqClearsConfiguredMasks : Obligations.EnableIrqClearsConfiguredMasks := by
  refine fun c s e => ⟨encodeWord_of_chan_no_count rfl rfl, checksFirst rfl, fun hf hi he => ?_⟩
  rw [exec_of_active rfl hf hi he, channelBody, settle_ok, respOk_eq, phyWrites_enableWrites, enableWrites_events]
  rfl

/-- Settles O21: past the first checks the command is DisableAll and the answer OK, whatever entry the channel has. -/
theorem disableIrqSetsAllMasks : Obligations.DisableIrqSetsAllMasks := by
  refine fun c s => ⟨encodeWord_of_chan_no_count rfl rfl, checksFirst rfl, fun hs => ?_⟩
  obtain ⟨e, he⟩ := exec_of_accepts (i := .disableIrq c) rfl hs
  rw [he, channelBody, settle_ok, respOk_eq, disableAll_eq]

end Sys2Proof.Machine
end

section
/-! WRITE_IB, READ_IB and GET_STATUS (spec/42_buffers.md). -/

namespace Sys2Proof.Machine

/-! ### WRITE_IB -/

theorem formatC_count (op : BitVec 4) (ch : BitVec 2) (count : BitVec 8) :
    formatC op ch count = formatC op ch 0#8 ||| (count.setWidth 32 <<< 8) := by
  simp [formatC]

/-- The word of a WRITE_IB is that of one with no words, with the count in bits 15 to 8 (30_encoding R72, R80). -/
theorem encodeWord_writeIb (c : Chan) {words : List Word} (h : words.length ≤ 255) :
    encodeWord (.writeIb c words) =
      0x00000005 ||| (BitVec.ofNat 32 c.val <<< 4) ||| (BitVec.ofNat 32 words.length <<< 8) := by
  have hcount : (BitVec.ofNat 8 words.length).setWidth 32 = BitVec.ofNat 32 words.length :=
    BitVec.setWidth_ofNat_of_le_of_lt (by decide) (by omega)
  calc encodeWord (.writeIb c words)
      = encodeWord (.writeIb c []) ||| ((BitVec.ofNat 8 words.length).setWidth 32 <<< 8) := formatC_count ..
    _ = _ := by rw [hcount, encodeWord_of_chan_no_count (i := .writeIb c []) (c := c) rfl rfl]; rfl

theorem writeRejected_iff {c : Chan} {s : State} :
    writeRejected c s = true ↔ s.params.writeWhileBusy = .reject ∧ s.ch[c].status = .busy := by
  simp [writeRejected]

theorem exec_writeIb_of_accepts {c : Chan} {s : State} (words : List Word) (hs : Accepts c s) :
    exec (.writeIb c words) s = .next (writeIbBody c words s) := by
  obtain ⟨e, he⟩ := exec_of_accepts (i := .writeIb c words) rfl hs
  rw [he, channelBody, settle_ok]

theorem writeIbBody_of_over_capacity {c : Chan} {words : List Word} {s : State} (h : s.params.txCap < words.length) :
    writeIbBody c words s = respond .writeIb 0x00000001 [] s := by
  rw [writeIbBody, if_pos h, respFail_eq]

theorem writeIbBody_of_rejected {c : Chan} {words : List Word} {s : State} (hcap : words.length ≤ s.params.txCap)
    (h : writeRejected c s = true) : writeIbBody c words s = respond .writeIb 0x00000001 [] s := by
  rw [writeIbBody, if_neg (Nat.not_lt.2 hcap), if_pos h, respFail_eq]

theorem writeIbBody_of_taken {c : Chan} {words : List Word} {s : State} (hcap : words.length ≤ s.params.txCap)
    (h : ¬ writeRejected c s = true) :
    writeIbBody c words s = respond .writeIb 0x00000000 [] (s.setCh c (loadTx words s.ch[c])) := by
  rw [writeIbBody, if_neg (Nat.not_lt.2 hcap), if_neg h, respOk_eq]

/-- Settles O22: one clause for each branch of the body; the buffer is `loadSlots`, read slot by slot. -/
theorem writeIbLoadsTheBuffer : Obligations.WriteIbLoadsTheBuffer := by
  refine ⟨fun c words => ⟨checksFirst rfl, fun h => ⟨encodeWord_writeIb c h, rfl⟩⟩, fun c words s hs => ?_⟩
  rw [exec_writeIb_of_accepts words hs]
  refine ⟨fun hcap => ?_, fun hcap hmode hbusy => ?_, fun hcap htaken => ?_⟩
  · rw [writeIbBody_of_over_capacity hcap]
  · rw [writeIbBody_of_rejected hcap (writeRejected_iff.2 ⟨hmode, hbusy⟩)]
  · have hnot : ¬ writeRejected c s = true := by
      rw [writeRejected_iff]
      rintro ⟨hmode, hbusy⟩
      obtain h | h := htaken
      · exact absurd (hmode.symm.trans h) (by simp)
      · exact absurd (hbusy.symm.trans h) (by simp)
    refine ⟨loadSlots s.ch[c].txBuf words, by rw [writeIbBody_of_taken hcap hnot]; rfl, fun j hj => ?_, fun j hj => ?_⟩
    · rw [slotAt_loadSlots, if_pos hj]
    · rw [slotAt_loadSlots, if_neg (Nat.not_lt.2 hj)]

/-! ### READ_IB -/

theorem exec_readIb_of_accepts {c : Chan} {s : State} (hs : Accepts c s) :
    exec (.readIb c) s = .next (settle s (readIbBody c s)) := by
  obtain ⟨e, he⟩ := exec_of_accepts (i := .readIb c) rfl hs
  rw [he, channelBody]

/-- With no data READ_IB answers FAIL, whatever the read mode (42_buffers R135). -/
theorem exec_readIb_no_data {c : Chan} {s : State} (hs : Accepts c s) (h : s.ch[c].rxIdx = 0) :
    exec (.readIb c) s = .next (respond .readIb 0x00000001 [] s) := by
  rw [exec_readIb_of_accepts hs, readIbBody, if_pos h, settle_ok, respFail_eq]

/-- A count of the words that stand in the first slots gives those words, whatever way it was reached. -/
theorem exec_readIb_words {c : Chan} {s : State} {out : List Word} (hs : Accepts c s) (hne : s.ch[c].rxIdx ≠ 0)
    (hcount : readCount c s = .ok out.length) (hout : ∀ j, j < out.length → slotAt s.ch[c].rxBuf j = out[j]?)
    (h255 : out.length ≤ 255) :
    exec (.readIb c) s = .next (respond .readIb (BitVec.ofNat 32 (out.length * 256))
      (out.map (·.setWidth 32)) { s with ch := s.ch.set c { s.ch[c] with rxIdx := 0 } }) := by
  have hread : readRxSlots c s.ch[c].rxBuf out.length = .ok out := by
    rw [readRxSlots_of c _ out _ le_rfl hout, List.take_length]
  rw [exec_readIb_of_accepts hs, readIbBody, if_neg hne, hcount]
  simp only [hread, settle_ok, respCount_eq _ h255]
  rfl

/-- A fault of the count is the fault of the command. -/
theorem exec_readIb_fault {c : Chan} {s : State} {f : Fault} (hs : Accepts c s) (hne : s.ch[c].rxIdx ≠ 0)
    (hcount : readCount c s = .error f) : exec (.readIb c) s = .next { s with fault := some f } := by
  rw [exec_readIb_of_accepts hs, readIbBody, if_neg hne, hcount]
  rfl

theorem readCount_counted {c : Chan} {s : State} (h : s.params.readMode = .counted) :
    readCount c s = .ok s.ch[c].rxIdx := by
  rw [readCount, h]

/-- After words other than the sentinel the scan stands at the slot behind them. -/
theorem readCount_sentinel {c : Chan} {s : State} {out : List Word} (h : s.params.readMode = .sentinel)
    (hcap : out.length ≤ s.params.rxCap) (hout : ∀ j, j < out.length → slotAt s.ch[c].rxBuf j = out[j]?)
    (hsent : s.params.sent ∉ out) :
    readCount c s = scanSentinel c s.params.sent s.ch[c].rxBuf (s.params.rxCap - out.length) out.length := by
  rw [readCount, h]
  exact (scanSentinel_skip c _ _ out _ 0 (by simpa using hout) hsent hcap).trans (by rw [Nat.zero_add])

theorem scanSentinel_found {c : Chan} {sent : Word} {buf : List (Option Word)} {n i : Nat} (hn : 0 < n)
    (h : slotAt buf i = some sent) : scanSentinel c sent buf n i = .ok i := by
  obtain ⟨n, rfl⟩ := Nat.exists_eq_add_one.2 hn
  simp [scanSentinel, h]

theorem scanSentinel_unwritten {c : Chan} {sent : Word} {buf : List (Option Word)} {n i : Nat} (hn : 0 < n)
    (h : slotAt buf i = none) : scanSentinel c sent buf n i = .error (.unwrittenRead c .rx i) := by
  obtain ⟨n, rfl⟩ := Nat.exists_eq_add_one.2 hn
  simp [scanSentinel, h]

/-- Settles O23: the count is `rx_idx`, and the slots below it are written on a sound channel. -/
theorem readIbReturnsTheReceivedWords : Obligations.ReadIbReturnsTheReceivedWords := by
  refine ⟨fun c => ⟨encodeWord_of_chan_no_count rfl rfl, checksFirst rfl⟩, fun c s hs hmode => ?_⟩
  refine ⟨exec_readIb_no_data hs, fun hne hsound hcap => ?_⟩
  obtain ⟨out, hlen, hout⟩ := exists_words s.ch[c].rxBuf s.ch[c].rxIdx hsound.rx_written
  have h255 : out.length ≤ 255 := hlen ▸ hsound.rxIdx_le.trans hcap
  have hrun := exec_readIb_words hs hne (by rw [readCount_counted hmode, hlen]) (by rwa [hlen]) h255
  exact ⟨out, hlen, hout, by rw [hrun, hlen]⟩

/-- Settles O24: the scan passes over `out`, and what it meets behind it decides. -/
theorem readIbScansToTheSentinel : Obligations.ReadIbScansToTheSentinel := by
  refine fun c s hs hmode hcap => ⟨exec_readIb_no_data hs, fun out hne hlt hout hsent => ?_,
    fun out hne hlen hout hsent => ?_⟩
  · have hcount := readCount_sentinel hmode hlt.le hout hsent
    have hroom : 0 < s.params.rxCap - out.length := Nat.sub_pos_of_lt hlt
    refine ⟨fun hfound => ?_, fun hnone => ?_⟩
    · exact exec_readIb_words hs hne (hcount.trans (scanSentinel_found hroom hfound)) hout (hlt.le.trans hcap)
    · exact exec_readIb_fault hs hne (hcount.trans (scanSentinel_unwritten hroom hnone))
  · have hcount := readCount_sentinel hmode hlen.le hout hsent
    rw [hlen, Nat.sub_self, scanSentinel] at hcount
    exact exec_readIb_fault hs hne hcount

/-! ### GET_STATUS -/

/-- Settles O25: past the first checks the command is its response. -/
theorem getStatusReportsTheStatus : Obligations.GetStatusReportsTheStatus := by
  refine fun c s => ⟨encodeWord_of_chan_no_count rfl rfl, checksFirst rfl, fun hs => ?_⟩
  obtain ⟨e, he⟩ := exec_of_accepts (i := .getStatus c) rfl hs
  rw [he, channelBody, settle_ok, respStatus_eq]

end Sys2Proof.Machine
end

section
/-! The transfer engine (spec/43_transfer.md): SYNC_TX's steps, ASYNC_TX, the two drains, and the words that reach DR. -/

namespace Sys2Proof.Machine

/-! ### SYNC_TX -/

theorem issued_eq (c : Chan) (s : State) : issued c s = { s with
    ch := s.ch.set c { s.ch[c] with status := .busy, txIdx := 0 }
    seq := .syncTx c 0 .write 0 } := by
  simp [issued, State.setSeq, setTxIdx, setStatus, State.setCh]

theorem exec_syncTx_busy {c : Chan} {s : State} (hs : Accepts c s) (hbusy : s.ch[c].status = .busy) :
    exec (.syncTx c) s = .next (respond .syncTx 0x00000001 [] s) := by
  obtain ⟨e, he⟩ := exec_of_accepts (i := .syncTx c) rfl hs
  rw [he, channelBody, syncIssue, if_neg (by rw [hbusy]; decide), settle_ok, respFail_eq]

/-- Settles O26: the status decides between the two ends of the issue step. -/
theorem syncTxIssues : Obligations.SyncTxIssues := by
  refine ⟨fun c => ⟨encodeWord_of_chan_no_count rfl rfl, checksFirst rfl⟩, fun c s hs =>
    ⟨exec_syncTx_busy hs, fun hidle => ?_⟩⟩
  rw [exec_syncTx_idle hs hidle, issued_eq]

/-- Settles O27: the index against the length decides. -/
theorem syncTxWritesOrCompletes : Obligations.SyncTxWritesOrCompletes :=
  fun _ _ _ _ hf ht hseq => ⟨step_complete hf ht hseq, fun _ hi hw => step_write hf ht hseq hi hw⟩

theorem timedOut_eq_true {p : Params} {n polls : Nat} (hn : p.syncTimeout = some n) (hle : n ≤ polls) :
    timedOut p polls = true := by
  simp [timedOut, hn, hle]

/-- A BSY read of 1 that reaches the timeout aborts (43_transfer R153). -/
theorem step_wait_timeout {c : Chan} {i polls n : Nat} {s : State} (hf : s.fault = none)
    (ht : s.nextTurn = .sequencer) (hseq : s.seq = .syncTx c i .wait polls) (hd : s.nextDraw.getLsbD 0 = true)
    (hn : s.params.syncTimeout = some n) (hle : n ≤ polls + 1) :
    step s = .next { s.popTurn.popDraw with
      ch := s.ch.set c { s.ch[c] with txIdx := 0, status := .idle }
      seq := .ready
      hist := s.hist ++ [.read c .bsy 1, .rsp .syncTx 0x00000001 []]
      hostPending := none
      context := .mainline } := by
  have hbsy : phyReadValue c .bsy s.popTurn.enterMainline = 1 := bsy_set (by simpa using hd)
  have htime : timedOut s.popTurn.enterMainline.params (polls + 1) = true := timedOut_eq_true (by simpa using hn) hle
  rw [step_sequencer hf ht, microStep_wait (by simpa using hseq), syncWait, if_neg (by rw [hbsy]; decide), if_pos htime,
    phyRead_bsy, hbsy, enterMainline_popDraw, syncEnd_eq c respFail rfl]
  simp

/-- Settles O28: the value of the BSY read, and then the count against the timeout. -/
theorem syncTxWaitsForBusy : Obligations.SyncTxWaitsForBusy :=
  fun _ _ _ _ hf ht hseq => ⟨step_wait_clear hf ht hseq, step_wait_busy hf ht hseq,
    fun _ hd hn hle => step_wait_timeout hf ht hseq hd hn hle⟩

/-- Settles O29: the words from word 0 on. -/
theorem syncTxSendsTheBuffer : Obligations.SyncTxSendsTheBuffer := by
  intro s c words polls ts ds hf hseq hlen hslots hpolls hn ht hd
  exact run_syncTx words hf hseq (by rw [hlen, Nat.zero_add]) (by simpa using hslots) hpolls hn ht hd

/-- Settles O30, by induction on the number of BSY reads: each of them is one poll that no timeout counts. -/
theorem syncTxHangsOnAStuckBusyFlag : Obligations.SyncTxHangsOnAStuckBusyFlag := by
  intro s c i p k ts ds hf hseq htime hctx ht hd
  rw [core_run_eq]
  induction k generalizing s p with
  | zero =>
    have ht' : s.turns = ts := ht
    have hd' : s.draws = ds := hd
    rw [run_zero, List.replicate_zero, List.append_nil, Nat.add_zero, ← hseq, ← ht', ← hd']
    rfl
  | succ k ih =>
    rw [List.replicate_succ, List.cons_append] at ht hd
    have hstep := step_wait_busy hf (nextTurn_cons ht) hseq (by rw [nextDraw_cons hd]; rfl) (by simp [htime])
    rw [popTurn_popDraw_cons ht hd, ← hctx] at hstep
    refine (run_succ hstep k).trans ((ih _ (p + 1) ?_ ?_ ?_ ?_ ?_ ?_).trans ?_)
    · exact hf
    · rfl
    · exact htime
    · exact hctx
    · rfl
    · rfl
    · simp [List.replicate_succ, Nat.add_assoc, Nat.add_comm 1 k]

/-! ### ASYNC_TX -/

theorem exec_asyncTx_of_accepts {c : Chan} {s : State} (hs : Accepts c s) :
    exec (.asyncTx c) s = .next (settle s (asyncBody c s)) := by
  obtain ⟨e, he⟩ := exec_of_accepts (i := .asyncTx c) rfl hs
  rw [he, channelBody]

/-- Settles O31: one clause for each branch of the body, in its order. -/
theorem asyncTxSendsOneWord : Obligations.AsyncTxSendsOneWord := by
  refine ⟨fun c => ⟨encodeWord_of_chan_no_count rfl rfl, checksFirst rfl⟩, fun c s hs => ?_⟩
  rw [exec_asyncTx_of_accepts hs, asyncBody]
  refine ⟨fun hbusy => ?_, fun hidle hover => ?_, fun w hidle hbelow hw => ?_⟩
  · rw [if_pos (by rw [hbusy]; decide), settle_ok, respFail_eq]
  · rw [if_neg (by simpa using hidle), if_pos hover]
    rfl
  · rw [if_neg (by simpa using hidle), if_neg (Nat.not_le.2 hbelow), sendWord_of_written hw]
    simp only [settle_ok, respOk_eq, sent_eq]

/-! ### Reads with a given answer -/

theorem phyReadValue_cons {u : Chan} {f : Field} {s : State} {w : Word} {ds : List Word} (hd : s.draws = w :: ds) :
    phyReadValue u f s = legalDraw s.phy[u] f w := by
  rw [phyReadValue_eq, nextDraw_cons hd]

theorem phyRead_cons {u : Chan} {f : Field} {s : State} {w : Word} {ds : List Word} (hd : s.draws = w :: ds) :
    phyRead u f s = { s with hist := s.hist ++ [.read u f (legalDraw s.phy[u] f w)], draws := ds } := by
  rw [phyRead_eq, popDraw_cons hd, nextDraw_cons hd]

/-- A flag reads as the answer 0 or 1 it is given. -/
theorem legalDraw_flag (p : Shadow) {f : Field} {w : Word} (hf : f = .tnf ∨ f = .rne) (hw : w = 0 ∨ w = 1) :
    legalDraw p f w = w := by
  have hbit : legalDraw p f w = if w.getLsbD 0 then 1 else 0 := by
    obtain rfl | rfl := hf <;> exact legalDraw_bit p _ w rfl (by simp)
  rw [hbit]
  obtain rfl | rfl := hw <;> rfl

/-- The read of a flag whose answer is given. -/
theorem phyRead_flag {u : Chan} {f : Field} {s : State} {w : Word} {ds : List Word} (hd : s.draws = w :: ds)
    (hf : f = .tnf ∨ f = .rne) (hw : w = 0 ∨ w = 1) :
    phyReadValue u f s = w ∧ phyRead u f s = { s with hist := s.hist ++ [.read u f w], draws := ds } := by
  rw [phyReadValue_cons hd, phyRead_cons hd, legalDraw_flag _ hf hw]
  exact ⟨rfl, rfl⟩

/-! ### The transmit drain -/

/-- A TNF read of 0 with words left ends the loop (43_transfer R165). -/
theorem drainLoop_full {c : Chan} {s : State} {ds : List Word} (n : Nat) (hd : s.draws = 0 :: ds) :
    drainLoop c (n + 1) s = .ok { s with hist := s.hist ++ [.read c .tnf 0], draws := ds } := by
  obtain ⟨hvalue, hread⟩ := phyRead_flag (u := c) hd (.inl rfl) (.inl rfl)
  rw [drainLoop, if_pos hvalue, hread]

/-- A TNF read of 1 is followed by the word at the cursor (43_transfer R165). -/
theorem drainLoop_send {c : Chan} {s : State} {w : Word} {ds : List Word} (n : Nat) (hd : s.draws = 1 :: ds)
    (hw : slotAt s.ch[c].txBuf s.ch[c].txIdx = some w) :
    drainLoop c (n + 1) s = drainLoop c n { s with
      ch := s.ch.set c { s.ch[c] with txIdx := s.ch[c].txIdx + 1 }
      hist := s.hist ++ [.read c .tnf 1, .write c .dr w]
      draws := ds } := by
  obtain ⟨hvalue, hread⟩ := phyRead_flag (u := c) hd (.inl rfl) (.inr rfl)
  rw [drainLoop, if_neg (by rw [hvalue]; decide), sendWord_of_written (w := w) (by simpa using hw), hread, sent_eq]
  simp

/-- With no word left the loop completes: the masks, the cursor, Idle (43_transfer R165). -/
theorem drainLoop_done (c : Chan) (s : State) : drainLoop c 0 s = .ok { s with
    ch := s.ch.set c { s.ch[c] with status := .idle, txIdx := 0 }
    phy := s.phy.set c (masked s.phy[c])
    hist := s.hist ++ [.write c .imRor 1, .write c .imRt 1, .write c .imRx 1, .write c .imTx 1] } := by
  rw [drainLoop, drainComplete, disableAll_eq]
  simp [setStatus, setTxIdx, State.setCh, masked]

/-- What a drain appends to the history for each word it sends: a TNF read of 1 and the write of DR. -/
def drainEvents (c : Chan) (words : List Word) : List Event :=
  words.flatMap fun w => [.read c .tnf 1, .write c .dr w]

/-- As many TNF reads of 1 as there are words send those words from the cursor on, and the loop goes on behind them. -/
theorem drainLoop_words {c : Chan} (words : List Word) {s : State} {ds : List Word} (n : Nat)
    (hd : s.draws = List.replicate words.length 1 ++ ds)
    (hslots : ∀ j, j < words.length → slotAt s.ch[c].txBuf (s.ch[c].txIdx + j) = words[j]?) :
    drainLoop c (words.length + n) s = drainLoop c n { s with
      ch := s.ch.set c { s.ch[c] with txIdx := s.ch[c].txIdx + words.length }
      hist := s.hist ++ drainEvents c words
      draws := ds } := by
  induction words generalizing s with
  | nil =>
    have hd' : s.draws = ds := hd
    have hch : s.ch.set c s.ch[c] = s.ch := set_get s.ch c
    simp only [List.length_nil, Nat.zero_add, Nat.add_zero, drainEvents, List.flatMap_nil, List.append_nil, ← hd', hch]
  | cons w words ih =>
    rw [List.length_cons, Nat.add_right_comm]
    rw [List.length_cons, List.replicate_succ, List.cons_append] at hd
    rw [drainLoop_send (w := w) _ hd (by simpa using hslots 0)]
    refine (ih rfl fun j hj => ?_).trans ?_
    · have hslot := hslots (j + 1) (by simpa using hj)
      simpa [Nat.add_assoc, Nat.add_comm 1 j] using hslot
    · simp [drainEvents, Nat.add_assoc, Nat.add_comm 1 words.length]

theorem exec_txDrain_of_drain {c : Chan} {s t : State} (hs : Accepts c s) (h : drain c s = .ok t) :
    exec (.txDrain c) s = .next (respond .txDrain 0x00000000 [] t) := by
  obtain ⟨e, he⟩ := exec_of_accepts (i := .txDrain c) rfl hs
  rw [he, channelBody, txDrainBody, h]
  simp only [settle_ok, respOk_eq]

/-- A drain given TNF reads of 1 for `words`: the loop behind them, on the Busy channel. -/
theorem drain_words {c : Chan} {words : List Word} {s : State} {ds : List Word} (n : Nat)
    (hn : s.ch[c].txLen = s.ch[c].txIdx + words.length + n)
    (hd : s.draws = List.replicate words.length 1 ++ ds)
    (hslots : ∀ j, j < words.length → slotAt s.ch[c].txBuf (s.ch[c].txIdx + j) = words[j]?) :
    drain c s = drainLoop c n { s with
      ch := s.ch.set c { s.ch[c] with status := .busy, txIdx := s.ch[c].txIdx + words.length }
      hist := s.hist ++ drainEvents c words
      draws := ds } := by
  have hcount : s.ch[c].txLen - s.ch[c].txIdx = words.length + n := by omega
  rw [drain, hcount, drainLoop_words words n (by simpa using hd) (by simpa using hslots)]
  simp [setStatus, State.setCh]

/-- Settles O32: behind the words sent the loop meets a full FIFO, or the end of the buffer. -/
theorem txDrainSendsUntilFullOrDone : Obligations.TxDrainSendsUntilFullOrDone := by
  refine ⟨fun c => ⟨encodeWord_of_chan_no_count rfl rfl, checksFirst rfl⟩, fun c s words ds hs hslots =>
    ⟨fun hlt hd => exec_txDrain_of_drain hs ?_, fun hlen hd => exec_txDrain_of_drain hs ?_⟩⟩
  · obtain ⟨n, hn⟩ := Nat.exists_eq_add_of_lt hlt
    rw [drain_words (n + 1) hn hd hslots, drainLoop_full n rfl]
    rfl
  · rw [drain_words 0 hlen.symm hd hslots, drainLoop_done]
    simp [drainEvents, masked]

/-- Settles O33: a sound channel's slots are written, so the drain answers, and its answer is one of the two ends. -/
theorem drainEndsPartialOrComplete : Obligations.DrainEndsPartialOrComplete := by
  intro c s hs
  obtain ⟨t, ht⟩ := drain_answers hs
  refine ⟨t, ht, ?_⟩
  obtain ⟨k, hch, hge, hlt, hphy, hread⟩ | ⟨hch, hphy⟩ := drain_ok ht
  · exact .inl ⟨k, by simp [hch], hge, hlt, hphy, hread⟩
  · exact .inr ⟨by simp [hch], hphy⟩

/-! ### The receive drain -/

/-- A buffer with `words` stored into its slots from slot `i` up, one after the other (43_transfer R170). -/
def storeSlots (buf : List (Option Word)) (i : Nat) : List Word → List (Option Word)
  | [] => buf
  | w :: words => storeSlots (buf.set i (some w)) (i + 1) words

theorem slotAt_storeSlots_outside (buf : List (Option Word)) (words : List Word) {i j : Nat}
    (hj : j < i ∨ i + words.length ≤ j) : slotAt (storeSlots buf i words) j = slotAt buf j := by
  induction words generalizing buf i with
  | nil => rfl
  | cons w words ih =>
    rw [List.length_cons] at hj
    rw [storeSlots, ih _ (by omega), slotAt_set, if_neg (by omega)]

theorem slotAt_storeSlots_inside (buf : List (Option Word)) (words : List Word) {i j : Nat}
    (hroom : i + words.length ≤ buf.length) (hj : j < words.length) :
    slotAt (storeSlots buf i words) (i + j) = words[j]? := by
  induction words generalizing buf i j with
  | nil => exact absurd hj (Nat.not_lt_zero j)
  | cons w words ih =>
    rw [List.length_cons] at hroom hj
    cases j with
    | zero =>
      rw [storeSlots, slotAt_storeSlots_outside _ _ (.inl (by omega)), slotAt_set, if_pos ⟨rfl, by omega⟩]
      rfl
    | succ j =>
      have htail := ih (buf.set i (some w)) (i := i + 1) (j := j) (by rw [List.length_set]; omega) (by omega)
      rw [storeSlots, List.getElem?_cons_succ, ← htail, Nat.add_right_comm, Nat.add_assoc]

/-- An RNE read of 0 with room left ends the loop (43_transfer R170). -/
theorem rxDrainLoop_empty {c : Chan} {s : State} {ds : List Word} (n : Nat) (hd : s.draws = 0 :: ds) :
    rxDrainLoop c (n + 1) s = { s with hist := s.hist ++ [.read c .rne 0], draws := ds } := by
  obtain ⟨hvalue, hread⟩ := phyRead_flag (u := c) hd (.inr rfl) (.inl rfl)
  rw [rxDrainLoop, if_pos hvalue, hread]

/-- An RNE read of 1 is followed by a DR read, whose word is stored at the cursor (43_transfer R170). -/
theorem rxDrainLoop_store {c : Chan} {s : State} {w : Word} {ds : List Word} (n : Nat) (hd : s.draws = 1 :: w :: ds) :
    rxDrainLoop c (n + 1) s = rxDrainLoop c n { s with
      ch := s.ch.set c { s.ch[c] with rxBuf := s.ch[c].rxBuf.set s.ch[c].rxIdx (some w), rxIdx := s.ch[c].rxIdx + 1 }
      hist := s.hist ++ [.read c .rne 1, .read c .dr w]
      draws := ds } := by
  obtain ⟨hvalue, hread⟩ := phyRead_flag (u := c) hd (.inr rfl) (.inr rfl)
  have hdraws : (phyRead c .rne s).draws = w :: ds := by rw [hread]
  have hword : phyReadValue c .dr (phyRead c .rne s) = w := (phyReadValue_cons hdraws).trans (legalDraw_dr ..)
  have hboth : phyRead c .dr (phyRead c .rne s) = { s with
      hist := s.hist ++ [.read c .rne 1, .read c .dr w], draws := ds } := by
    rw [phyRead_cons hdraws, legalDraw_dr, hread]
    simp
  rw [rxDrainLoop, if_neg (by rw [hvalue]; decide)]
  simp only [hword, hboth]
  rfl

/-- What a receive drain appends to the history for each word it stores: an RNE read of 1 and the read of DR. -/
def receiveEvents (c : Chan) (words : List Word) : List Event :=
  words.flatMap fun w => [.read c .rne 1, .read c .dr w]

/-- The answers that bring `words` are stored from the cursor on, and the loop goes on behind them. -/
theorem rxDrainLoop_words {c : Chan} (words : List Word) {s : State} {ds : List Word} (n : Nat)
    (hd : s.draws = words.flatMap (fun w => [1, w]) ++ ds) :
    rxDrainLoop c (words.length + n) s = rxDrainLoop c n { s with
      ch := s.ch.set c { s.ch[c] with
        rxBuf := storeSlots s.ch[c].rxBuf s.ch[c].rxIdx words, rxIdx := s.ch[c].rxIdx + words.length }
      hist := s.hist ++ receiveEvents c words
      draws := ds } := by
  induction words generalizing s with
  | nil =>
    have hd' : s.draws = ds := hd
    have hch : s.ch.set c s.ch[c] = s.ch := set_get s.ch c
    simp only [List.length_nil, Nat.zero_add, Nat.add_zero, storeSlots, receiveEvents, List.flatMap_nil,
      List.append_nil, ← hd', hch]
  | cons w words ih =>
    rw [List.length_cons, Nat.add_right_comm, rxDrainLoop_store (w := w) _ hd]
    refine (ih rfl).trans ?_
    simp [storeSlots, receiveEvents, Nat.add_assoc, Nat.add_comm 1 words.length]

/-- Settles O34: the loop stores the words, and behind them meets an empty FIFO, or has no room left. -/
theorem rxDrainStoresUntilEmptyOrFull : Obligations.RxDrainStoresUntilEmptyOrFull := by
  refine fun c s words ds hbuf => ⟨fun hlt hd => ⟨storeSlots s.ch[c].rxBuf s.ch[c].rxIdx words, ?_, fun j hj => ?_,
    fun j hj => ?_⟩, fun hfull hd => ⟨storeSlots s.ch[c].rxBuf s.ch[c].rxIdx words, ?_, fun j hj => ?_, fun j hj => ?_⟩⟩
  · obtain ⟨n, hn⟩ := Nat.exists_eq_add_of_lt hlt
    have hroom : s.params.rxCap - s.ch[c].rxIdx = words.length + (n + 1) := by omega
    rw [rxDrain, hroom, rxDrainLoop_words words _ hd, rxDrainLoop_empty n rfl]
    rfl
  · exact slotAt_storeSlots_inside _ _ (by omega) hj
  · exact slotAt_storeSlots_outside _ _ hj
  · have hroom : s.params.rxCap - s.ch[c].rxIdx = words.length + 0 := by omega
    rw [rxDrain, hroom, rxDrainLoop_words words _ hd, rxDrainLoop]
    rfl
  · exact slotAt_storeSlots_inside _ _ (by omega) hj
  · exact slotAt_storeSlots_outside _ _ (.inl hj)

/-! ### The words that reach DR -/

/-- From `s` to `t` the history grew, and every word written to a DR stood loaded in `s`. -/
def SendsLoaded (s t : State) : Prop :=
  ∃ es, t.hist = s.hist ++ es ∧ ∀ c w, .write c .dr w ∈ es → Loaded c s w

theorem SendsLoaded.of_same {s t : State} (h : t.hist = s.hist) : SendsLoaded s t := ⟨[], by simp [h], by simp⟩

theorem SendsLoaded.append {s m t : State} {e : Event} (h : SendsLoaded s m) (ht : t.hist = m.hist ++ [e])
    (he : ∀ c w, e ≠ .write c .dr w) : SendsLoaded s t := by
  obtain ⟨es, hes, hall⟩ := h
  refine ⟨es ++ [e], by rw [ht, hes, List.append_assoc], fun c w hw => ?_⟩
  rcases List.mem_append.1 hw with hw | hw
  · exact hall c w hw
  · exact absurd (List.mem_singleton.1 hw).symm (he c w)

/-- Only the records and the history of the start count. -/
theorem SendsLoaded.start {s s' t : State} (h : SendsLoaded s' t) (hch : s'.ch = s.ch) (hhist : s'.hist = s.hist) :
    SendsLoaded s t := by
  unfold SendsLoaded Loaded at h ⊢
  rwa [hch, hhist] at h

theorem Acts.sendsLoaded {c : Chan} {s t : State} (h : Acts c s t) : SendsLoaded s t := by
  obtain ⟨es, hes, hall⟩ := h.framed.hist
  refine ⟨es, hes, fun d w hw => ?_⟩
  obtain ⟨hunit, -, -, hwrite⟩ := hall _ hw
  obtain rfl : d = c := Option.some.inj hunit
  exact (hwrite .dr w rfl).2 rfl

/-- INIT writes configuration fields and SSE, and no DR (40_init_bitrate R100). -/
theorem initWrites_ne_dr {p : Params} {e : CfgEntry} : ∀ fv ∈ initWrites p e, fv.1 ≠ .dr := by
  simp [initWrites]

theorem initEvents_ne_dr {p : Params} {c : Chan} {e : Event} (he : e ∈ initEvents p c) (d : Chan) (w : Word) :
    e ≠ .write d .dr w := by
  unfold initEvents at he
  split at he
  · exact absurd he (by simp)
  · obtain ⟨fv, hfv, rfl⟩ := List.mem_map.1 he
    exact fun heq => initWrites_ne_dr fv hfv (Event.write.inj heq).2.1

theorem init_sendsLoaded {s m : State} (h : Effect .init s m) : SendsLoaded s m := by
  obtain ⟨-, rfl⟩ := h
  rw [(initChannels_spec allChans allChans_nodup s).1]
  refine ⟨_, rfl, fun c w hw => ?_⟩
  obtain ⟨d, -, hd⟩ := List.mem_flatMap.1 hw
  exact absurd rfl (initEvents_ne_dr hd c w)

theorem effect_sendsLoaded {i : Instr} {s m : State} (h : Effect i s m) : SendsLoaded s m := by
  cases hc : i.chan? with
  | some c =>
    obtain hacts | ⟨words, -, -, rfl⟩ := effect_acts hc h
    · exact hacts.sendsLoaded
    · exact .of_same rfl
  | none =>
    cases i <;> simp only [Instr.chan?, reduceCtorEq] at hc
    case init => exact init_sendsLoaded h
    case bitrateCalc => exact .of_same (congrArg State.hist h)

theorem exec_sendsLoaded {i : Instr} {s t : State} (h : exec i s = .next t) : SendsLoaded s t := by
  obtain ⟨-, ⟨f, rfl⟩ | ⟨-, ⟨f, rfl⟩ | ⟨m, r, data, hm, rfl⟩ | ⟨c, rfl, -, rfl⟩⟩⟩ := exec_next h
  · exact .of_same rfl
  · exact .of_same rfl
  · exact (effect_sendsLoaded hm).append (respond_hist ..) (by simp)
  · exact .of_same rfl

theorem syncWait_sendsLoaded (c : Chan) (i polls : Nat) (s : State) : SendsLoaded s (syncWait c i polls s) := by
  have hread : SendsLoaded s (phyRead c .bsy s) := (Acts.refl.read .bsy rfl).sendsLoaded
  obtain ⟨q, hq⟩ | hq := syncWait_cases c i polls s
  · exact hq ▸ hread
  · rw [hq]
    exact hread.append (respond_hist ..) (by simp)

theorem step_sendsLoaded {s t : State} (h : step s = .next t) : SendsLoaded s t := by
  obtain ⟨-, hstep⟩ := step_next h
  cases hstep with
  | hold h => exact .of_same (by simp [h])
  | illegal w words _ _ _ h =>
    exact (SendsLoaded.of_same rfl).append (e := .rsp (.illegal w) respIllegal []) (by simp [h, answerIllegal, takeWord])
      (by simp)
  | host i w words rest _ _ _ _ h =>
    exact (exec_sendsLoaded h).start (by simp [issue, takeWord]) (by simp [issue, takeWord])
  | dispatcher u _ _ h => exact (exec_sendsLoaded h).start (by simp) (by simp)
  | completed c i polls _ _ h =>
    exact (SendsLoaded.of_same rfl).append (e := .rsp .syncTx respOk []) (by simp [h, syncEnd]) (by simp)
  | unwritten c i polls _ _ _ h => exact .of_same (by simp [h])
  | wrote c i polls m _ hi hm h =>
    have hacts : Acts c s.popTurn.enterMainline m := sendWord_acts (by simpa using hi) hm
    exact h ▸ hacts.sendsLoaded.start (by simp) (by simp)
  | waited c i polls _ h =>
    exact h ▸ (syncWait_sendsLoaded c i polls _).start (by simp) (by simp)

/-- Settles O51: the new events are those the history grew by. -/
theorem onlyLoadedWordsAreSent : Obligations.OnlyLoadedWordsAreSent := by
  intro s t c w h hw
  obtain ⟨es, hes, hall⟩ := step_sendsLoaded h
  rw [newEvents_of_append hes] at hw
  exact hall c w hw

end Sys2Proof.Machine
end

section
/-! The interrupt entry (spec/44_dispatch.md): the MIS read, and the branches that run from its value. -/

namespace Sys2Proof.Machine

theorem exec_irqEntry_of_accepts {u : Chan} {s t : State} (hs : Accepts u s)
    (h : irqBody u s = .ok (respond .irqEntry respOk [] t)) :
    exec (.irqEntry u) s = .next (respond .irqEntry 0x00000000 [] t) := by
  obtain ⟨e, he⟩ := exec_of_accepts (i := .irqEntry u) rfl hs
  rw [he, channelBody, h, settle_ok, respOk_eq]

/-- The stub handler answers after the MIS read (44_dispatch R181). -/
theorem irqBody_stub {u : Chan} {s : State} (hmode : s.params.isrMode = .stub) :
    irqBody u s = .ok (respond .irqEntry respOk [] (phyRead u .mis s)) := by
  simp only [irqBody, hmode]

/-- The filled handler answers after the branches of the value read (44_dispatch R182). -/
theorem irqBody_filled {u : Chan} {s t : State} (hmode : s.params.isrMode = .filled)
    (h : irqBranches u (phyReadValue u .mis s) (phyRead u .mis s) = .ok t) :
    irqBody u s = .ok (respond .irqEntry respOk [] t) := by
  simp only [irqBody, hmode, h]

theorem irqBranches_of_txBranch {u : Chan} {m : Word} {s t : State} (h : txBranch u m s = .ok t) :
    irqBranches u m s = .ok (rorBranch u m (rtBranch u m (rxBranch u m t))) := by
  simp only [irqBranches, h]

/-- With no source pending no branch runs. -/
theorem irqBranches_zero (u : Chan) (s : State) : irqBranches u 0 s = .ok s := rfl

theorem txBranch_eq_ok_iff {u : Chan} {m : Word} {s t : State} :
    txBranch u m s = .ok t ↔ if m.getLsbD 3 = true then drain u s = .ok t else t = s := by
  unfold txBranch misTx
  split
  · rfl
  · rw [Except.ok.injEq, eq_comm]

/-- The transmit branch on a sound channel raises no fault. -/
theorem txBranch_answers {u : Chan} {s : State} (m : Word) (hs : ChannelSound s.params s.ch[u]) :
    ∃ t, txBranch u m s = .ok t := by
  unfold txBranch
  split
  · exact drain_answers hs
  · exact ⟨s, rfl⟩

/-- Settles O35: on a sound channel the transmit branch answers, and the three branches behind it raise no fault. -/
theorem irqEntryRunsThePendingBranches : Obligations.IrqEntryRunsThePendingBranches := by
  refine ⟨fun u => ⟨encodeWord_of_chan_no_count rfl rfl, checksFirst rfl⟩, fun u s hs hmode hsound => ?_⟩
  obtain ⟨t, ht⟩ := txBranch_answers (phyReadValue u .mis s) (s := phyRead u .mis s) (by simpa using hsound)
  have hbody := irqBody_filled hmode (irqBranches_of_txBranch ht)
  exact ⟨_, _, t, _, _, _, _, phyReadValue_eq .., phyRead_eq .., txBranch_eq_ok_iff.1 ht, rfl, rfl, rfl, rfl,
    exec_irqEntry_of_accepts hs hbody⟩

/-- Settles O36: under Stub there is nothing behind the MIS read, and under Filled a value of 0 runs no branch. -/
theorem irqEntryIdleOrStubOnlyReadsMis : Obligations.IrqEntryIdleOrStubOnlyReadsMis := by
  intro u s hs hidle
  have hbody : irqBody u s = .ok (respond .irqEntry respOk [] (phyRead u .mis s)) := by
    cases hmode : s.params.isrMode with
    | stub => exact irqBody_stub hmode
    | filled =>
      have hzero : phyReadValue u .mis s = 0 := (phyReadValue_eq ..).trans (hidle.resolve_right (by simp [hmode]))
      exact irqBody_filled hmode (by rw [hzero, irqBranches_zero])
  rw [exec_irqEntry_of_accepts hs hbody, phyRead_eq]

end Sys2Proof.Machine
end

section
/-! The dispatcher's turn at a step boundary (60_exceptions R205, R207). -/

namespace Sys2Proof.Machine

theorem fetch_dispatcher {s : State} {u : Chan} (hf : s.fault = none) (ht : s.nextTurn = .dispatcher u) :
    fetch s = dispatcherTurn u s.popTurn := by
  simp [fetch, hf, ht]

theorem dispatcherMayIssue_iff (u : Chan) (s : State) :
    dispatcherMayIssue u s = true ↔ s.inited = true ∧ s.params.cfg[u].isSome = true := by
  simp [dispatcherMayIssue]

theorem dispatcherTurn_of_may {u : Chan} {s : State} (h : dispatcherMayIssue u s = true) :
    dispatcherTurn u s = .command (.irqEntry u) (enterInterrupt s) := if_pos h

theorem dispatcherTurn_of_barred {u : Chan} {s : State} (h : ¬ dispatcherMayIssue u s = true) :
    dispatcherTurn u s = .moved s := if_neg h

/-- Settles O8: the dispatcher's test, which looks at `inited` and the configuration entry alone, decides. -/
theorem stepRunsTheDispatchersEntry : Obligations.StepRunsTheDispatchersEntry := by
  intro s u hf ht
  have hmay : dispatcherMayIssue u s.popTurn = true ↔ s.inited = true ∧ s.params.cfg[u].isSome = true := by
    rw [dispatcherMayIssue_iff, popTurn_inited, popTurn_params]
  refine ⟨fun hi hc => ?_, fun hbarred => ?_⟩
  · exact step_of_command ((fetch_dispatcher hf ht).trans (dispatcherTurn_of_may (hmay.2 ⟨hi, hc⟩)))
  · refine step_of_moved ((fetch_dispatcher hf ht).trans (dispatcherTurn_of_barred fun h => ?_))
    obtain ⟨hi, hc⟩ := hmay.1 h
    obtain hi' | hc' := hbarred
    · exact absurd (hi.symm.trans hi') (by decide)
    · rw [hc'] at hc
      exact absurd hc (by decide)

end Sys2Proof.Machine
end

section
/-! The faults and the failure responses (60_exceptions R200, R202, R206). -/

namespace Sys2Proof.Machine

/-! ### Faults -/

/-- The three ends of a command, whether or not it names a channel. -/
theorem exec_ran {i : Instr} {s t : State} (h : exec i s = .next t) : s.fault = none ∧ Ran i s t := by
  obtain ⟨hf, hraised | ⟨-, hran⟩⟩ := exec_next h
  · exact ⟨hf, .inl hraised⟩
  · exact ⟨hf, hran⟩

/-- Settles O53: of the three ends of a command only the raised fault sets the fault record. -/
theorem faultsKeepTheStartState : Obligations.FaultsKeepTheStartState := by
  refine ⟨fun i s t f h hfault => ?_, fun _ => rfl, fun _ => rfl, fun _ => rfl, fun _ _ _ => rfl, fun _ _ _ => rfl,
    fun _ => rfl⟩
  obtain ⟨hf, ⟨g, rfl⟩ | ⟨m, r, data, hm, rfl⟩ | ⟨c, -, -, rfl⟩⟩ := exec_ran h
  · obtain rfl : g = f := Option.some.inj hfault
    rfl
  · rw [respond_fault, (effect_kept hm).fault, hf] at hfault
    exact absurd hfault (by simp)
  · exact absurd (hf.symm.trans hfault) (by simp)

/-! ### Failures -/

/-- No event from `s` to `t` is a response with FAIL set. -/
def FailFree (s t : State) : Prop := ∀ op r data, .rsp op r data ∈ newEvents s t → r.getLsbD 0 = false

theorem failFree_of_same {s t : State} (h : t.hist = s.hist) : FailFree s t := by
  intro op r data he
  rw [newEvents_of_append (es := []) (by rw [h, List.append_nil])] at he
  exact absurd he List.not_mem_nil

/-- A command's effect appends accesses alone, so its response is the one that counts. -/
theorem failFree_respond {s m : State} (hm : Kept s m) (op : Op) {r : PortWord} (data : List PortWord)
    (hr : r.getLsbD 0 = false) : FailFree s (respond op r data m) := by
  intro op' r' data' he
  obtain ⟨es, hes, hall⟩ := hm.hist
  rw [newEvents_of_append (es := es ++ [.rsp op r data]) (by rw [respond_hist, hes, List.append_assoc])] at he
  rcases List.mem_append.1 he with he | he
  · exact absurd (hall _ he).1 (by simp [Event.isAccess])
  · obtain ⟨-, rfl, -⟩ := Event.rsp.inj (List.mem_singleton.1 he)
    exact hr

theorem formatR_fail (n : BitVec 8) (ill legal status fail : BitVec 1) :
    (formatR n ill legal status fail).getLsbD 0 = fail.getLsbD 0 := by
  simp [formatR]

theorem respStatus_fail (st : Status) : (respStatus st).getLsbD 0 = false := by
  cases st <;> exact formatR_fail ..

theorem failFree_respondOk {s m : State} (hm : Kept s m) (op : Op) : FailFree s (respond op respOk [] m) :=
  failFree_respond hm op [] (formatR_fail ..)

/-- WRITE_IB fails on its two conditions, and loads the buffer otherwise (42_buffers R130, R131). -/
theorem writeIbBody_of_failureOf {c : Chan} {words : List Word} {s : State} {f : Failure}
    (h : failureOf (.writeIb c words) s = some f) : writeIbBody c words s = respond .writeIb 0x00000001 [] s := by
  by_cases hcap : s.params.txCap < words.length
  · exact writeIbBody_of_over_capacity hcap
  · rw [failureOf, if_neg hcap] at h
    split at h
    · exact writeIbBody_of_rejected (Nat.not_lt.1 hcap) (writeRejected_iff.2 ‹_›)
    · exact absurd h (by simp)

theorem writeIbBody_failFree {c : Chan} {words : List Word} {s : State}
    (h : failureOf (.writeIb c words) s = none) : FailFree s (writeIbBody c words s) := by
  rw [failureOf] at h
  split at h
  · exact absurd h (by simp)
  · rename_i hcap
    split at h
    · exact absurd h (by simp)
    · rename_i htaken
      rw [writeIbBody_of_taken (Nat.not_lt.1 hcap) (mt writeRejected_iff.1 htaken)]
      exact failFree_respond (setCh_kept ..) _ _ rfl

theorem readIbBody_failFree {c : Chan} {s t : State} (hdata : s.ch[c].rxIdx ≠ 0) (h : readIbBody c s = .ok t) :
    FailFree s t := by
  rw [readIbBody, if_neg hdata] at h
  split at h
  · exact absurd h (by simp)
  · split at h
    · exact absurd h (by simp)
    · exact Except.ok.inj h ▸ failFree_respond (setRxIdx_acts ..).framed.kept _ _ (formatR_fail ..)

theorem asyncBody_failFree {c : Chan} {s t : State} (hidle : s.ch[c].status = .idle) (h : asyncBody c s = .ok t) :
    FailFree s t := by
  rw [asyncBody, if_neg (not_not.2 hidle)] at h
  split at h
  · exact absurd h (by simp)
  · rename_i hover
    split at h
    · exact absurd h (by simp)
    · exact Except.ok.inj h ▸ failFree_respondOk (sendWord_acts (Nat.not_le.1 hover) ‹_›).framed.kept _

theorem txDrainBody_failFree {c : Chan} {s t : State} (h : txDrainBody c s = .ok t) : FailFree s t := by
  unfold txDrainBody at h
  split at h
  · exact absurd h (by simp)
  · exact Except.ok.inj h ▸ failFree_respondOk (drain_acts ‹_›).framed.kept _

theorem irqBody_failFree {u : Chan} {s t : State} (h : irqBody u s = .ok t) : FailFree s t := by
  have hread : Acts u s (phyRead u .mis s) := Acts.refl.read .mis rfl
  cases hmode : s.params.isrMode with
  | stub =>
    rw [irqBody_stub hmode] at h
    exact Except.ok.inj h ▸ failFree_respondOk hread.framed.kept _
  | filled =>
    simp only [irqBody, hmode] at h
    split at h
    · exact absurd h (by simp)
    · exact Except.ok.inj h ▸ failFree_respondOk (hread.trans (irqBranches_acts ‹_›)).framed.kept _

theorem rxIdx_ne_zero_of_no_failure {c : Chan} {s : State} (h : failureOf (.readIb c) s = none) :
    s.ch[c].rxIdx ≠ 0 := by
  simpa [failureOf] using h

theorem idle_of_no_failure {i : Instr} {c : Chan} {s : State} (hi : i = .asyncTx c ∨ i = .syncTx c)
    (h : failureOf i s = none) : s.ch[c].status = .idle := by
  cases hst : s.ch[c].status with
  | idle => rfl
  | busy => obtain rfl | rfl := hi <;> exact absurd (h.symm.trans (if_pos hst)) (by simp)

/-- A command that names a channel and meets none of the conditions of failure. -/
theorem channelBody_failFree {i : Instr} {c : Chan} {s t : State} {e : CfgEntry} (hc : i.chan? = some c)
    (hnone : failureOf i s = none) (h : channelBody i s e = .ok t) : FailFree s t := by
  cases i with
  | init => exact absurd hc (by simp [Instr.chan?])
  | bitrateCalc rate => exact absurd hc (by simp [Instr.chan?])
  | enableIrq c => exact Except.ok.inj h ▸ failFree_respondOk (enableIrq_acts ..).framed.kept _
  | disableIrq c => exact Except.ok.inj h ▸ failFree_respondOk (disableAll_acts ..).framed.kept _
  | getStatus c => exact Except.ok.inj h ▸ failFree_respond (Acts.refl (c := c)).framed.kept _ _ (respStatus_fail _)
  | writeIb c words => exact Except.ok.inj h ▸ writeIbBody_failFree hnone
  | readIb c => exact readIbBody_failFree (rxIdx_ne_zero_of_no_failure hnone) h
  | asyncTx c => exact asyncBody_failFree (idle_of_no_failure (.inl rfl) hnone) h
  | syncTx c =>
    rw [channelBody, syncIssue, if_pos (idle_of_no_failure (.inr rfl) hnone)] at h
    exact Except.ok.inj h ▸ failFree_of_same rfl
  | txDrain c => exact txDrainBody_failFree h
  | irqEntry u => exact irqBody_failFree h

/-- Under the condition of a failure the command answers FAIL and does nothing else. -/
theorem exec_of_failureOf {i : Instr} {c : Chan} {s : State} {f : Failure} (hc : i.chan? = some c) (hs : Accepts c s)
    (h : failureOf i s = some f) : exec i s = .next (respond (opOf i) 0x00000001 [] s) := by
  cases i <;> simp only [Instr.chan?, reduceCtorEq, Option.some.injEq] at hc
  all_goals subst hc
  case writeIb words => rw [exec_writeIb_of_accepts words hs, writeIbBody_of_failureOf h]; rfl
  case readIb => exact exec_readIb_no_data hs (Option.ite_none_right_eq_some.1 h).1
  case asyncTx => exact (asyncTxSendsOneWord.2 _ s hs).1 (Option.ite_none_right_eq_some.1 h).1
  case syncTx => exact exec_syncTx_busy hs (Option.ite_none_right_eq_some.1 h).1
  all_goals exact absurd h (by simp [failureOf])

/-- Settles O54: a failing command answers before it does anything; past the conditions of failure every response has FAIL
clear. -/
theorem failuresOnlyAnswer : Obligations.FailuresOnlyAnswer := by
  refine fun i c s hc hs => ⟨fun f hfail => exec_of_failureOf hc hs hfail, fun hnone t op r data h => ?_⟩
  suffices FailFree s t from this op r data
  obtain ⟨e, he⟩ := exec_of_accepts hc hs
  rw [he] at h
  obtain rfl := Host.Outcome.next.inj h
  cases hbody : channelBody i s e with
  | ok m => exact channelBody_failFree hc hnone hbody
  | error f => exact failFree_of_same rfl

end Sys2Proof.Machine
end

section
/-! IRQ_ENTRY and the transfer it interrupts (60_exceptions R207, R208, 30_encoding R79): it commutes with any change of
`seq`. -/

namespace Sys2Proof.Machine

/-! ### The procedures of an entry do not see `seq` -/

section
variable (q : Seq)

theorem respond_setSeq (op : Op) (r : PortWord) (data : List PortWord) (s : State) :
    respond op r data (s.setSeq q) = (respond op r data s).setSeq q := by
  unfold respond
  simp only [setSeq_context]
  split <;> rfl

theorem phyRead_setSeq (u : Chan) (f : Field) (s : State) : phyRead u f (s.setSeq q) = (phyRead u f s).setSeq q := by
  have hpop : (s.setSeq q).popDraw = s.popDraw.setSeq q := by
    unfold State.popDraw
    simp only [setSeq_draws]
    split <;> rfl
  unfold phyRead
  rw [hpop]
  rfl

theorem sendWord_setSeq (c : Chan) (i : Nat) (s : State) :
    sendWord c i (s.setSeq q) = (sendWord c i s).map (·.setSeq q) := by
  unfold sendWord
  rw [setSeq_ch]
  cases slotAt s.ch[c].txBuf i <;> rfl

theorem drainLoop_setSeq (c : Chan) (n : Nat) (s : State) :
    drainLoop c n (s.setSeq q) = (drainLoop c n s).map (·.setSeq q) := by
  induction n generalizing s with
  | zero => rfl
  | succ n ih =>
    have hread : phyReadValue c .tnf (s.setSeq q) = phyReadValue c .tnf s := rfl
    simp only [drainLoop, hread, phyRead_setSeq, setSeq_ch, sendWord_setSeq]
    split
    · rfl
    · cases sendWord c s.ch[c].txIdx (phyRead c .tnf s) with
      | error f => rfl
      | ok t => exact ih t

theorem rxDrainLoop_setSeq (c : Chan) (n : Nat) (s : State) :
    rxDrainLoop c n (s.setSeq q) = (rxDrainLoop c n s).setSeq q := by
  induction n generalizing s with
  | zero => rfl
  | succ n ih =>
    have hread : ∀ f t, phyReadValue c f (State.setSeq q t) = phyReadValue c f t := fun _ _ => rfl
    have hstore : ∀ w t, storeRx c w (State.setSeq q t) = (storeRx c w t).setSeq q := fun _ _ => rfl
    simp only [rxDrainLoop, hread, phyRead_setSeq, hstore, ih]
    split <;> rfl

theorem txBranch_setSeq (u : Chan) (m : Word) (s : State) :
    txBranch u m (s.setSeq q) = (txBranch u m s).map (·.setSeq q) := by
  unfold txBranch
  split
  · exact drainLoop_setSeq q u _ (setStatus u .busy s)
  · rfl

theorem rxBranch_setSeq (u : Chan) (m : Word) (s : State) :
    rxBranch u m (s.setSeq q) = (rxBranch u m s).setSeq q := by
  unfold rxBranch
  split
  · exact rxDrainLoop_setSeq q u _ s
  · rfl

theorem rtBranch_setSeq (u : Chan) (m : Word) (s : State) :
    rtBranch u m (s.setSeq q) = (rtBranch u m s).setSeq q := by
  unfold rtBranch
  split
  · exact congrArg (phyWrite u .icrRt 1) (rxDrainLoop_setSeq q u _ s)
  · rfl

theorem rorBranch_setSeq (u : Chan) (m : Word) (s : State) :
    rorBranch u m (s.setSeq q) = (rorBranch u m s).setSeq q := by
  unfold rorBranch
  split <;> rfl

theorem irqBranches_setSeq (u : Chan) (m : Word) (s : State) :
    irqBranches u m (s.setSeq q) = (irqBranches u m s).map (·.setSeq q) := by
  unfold irqBranches
  rw [txBranch_setSeq]
  cases txBranch u m s with
  | error f => rfl
  | ok t => exact congrArg Except.ok (by rw [rxBranch_setSeq, rtBranch_setSeq, rorBranch_setSeq])

theorem irqBody_setSeq (u : Chan) (s : State) : irqBody u (s.setSeq q) = (irqBody u s).map (·.setSeq q) := by
  have hread : phyReadValue u .mis (s.setSeq q) = phyReadValue u .mis s := rfl
  simp only [irqBody, setSeq_params, hread, phyRead_setSeq, irqBranches_setSeq, respond_setSeq]
  split
  · rfl
  · cases irqBranches u (phyReadValue u .mis s) (phyRead u .mis s) with
    | error f => rfl
    | ok t => exact congrArg Except.ok (respond_setSeq ..)

theorem settle_setSeq (s : State) (r : Except Fault State) :
    settle (s.setSeq q) (r.map (·.setSeq q)) = (settle s r).setSeq q := by
  cases r <;> rfl

end

/-- The first checks, on a state and a body that are changed together. -/
theorem withChannel_map {i : Instr} {c : Chan} {s s' : State} {body : CfgEntry → Except Fault State}
    (g : State → State) (hi : s'.inited = s.inited) (hp : s'.params = s.params) :
    withChannel i c s' (fun e => (body e).map g) = (withChannel i c s body).map g := by
  unfold withChannel
  rw [hi, hp]
  split
  · split <;> rfl
  · rfl

/-- IRQ_ENTRY with another `seq` is IRQ_ENTRY, and then that `seq`. -/
theorem exec_irqEntry_setSeq {u : Chan} {s t : State} (q : Seq) (h : exec (.irqEntry u) s = .next t) :
    exec (.irqEntry u) (s.setSeq q) = .next (t.setSeq q) := by
  rw [exec_of_chan rfl] at h
  obtain ⟨hf, rfl⟩ := runCommand_eq_next.1 h
  have hbody : channelBody (.irqEntry u) (s.setSeq q) = fun e => (channelBody (.irqEntry u) s e).map (·.setSeq q) :=
    funext fun _ => irqBody_setSeq q u s
  rw [exec_of_chan rfl, runCommand_of_none (s := s.setSeq q) hf, hbody,
    withChannel_map (s := s) (s' := s.setSeq q) _ rfl rfl, settle_setSeq]

/-! ### What an entry leaves -/

/-- Settles O37: an entry raises a fault, or responds after an effect that keeps `seq`, `host_pending` and the context; and no
procedure it runs sees `seq`. -/
theorem irqEntryLeavesTheInterruptedTransfer : Obligations.IrqEntryLeavesTheInterruptedTransfer := by
  intro u s t h
  have hseq : ∀ q, exec (.irqEntry u) { s with seq := q } = .next { t with seq := q } :=
    fun q => exec_irqEntry_setSeq q h
  obtain ⟨-, ⟨f, rfl⟩ | ⟨m, r, data, hm, rfl⟩ | ⟨c, hc, -, -⟩⟩ := exec_ran h
  · exact ⟨rfl, hseq, fun _ => rfl, fun hf => absurd hf (by simp)⟩
  · have kept := effect_kept hm
    refine ⟨by rw [respond_seq, kept.seq], hseq, fun hctx => ?_, fun _ => respond_context ..⟩
    rw [respond_hostPending, kept.context, hctx, if_neg (by decide), kept.hostPending]
  · exact absurd hc (by simp)

end Sys2Proof.Machine
end

section
/-! Configuration writes come while the unit is disabled, and INIT alone makes them (70_reset_and_hazards R233). -/

namespace Sys2Proof.Machine

/-! ### Safe histories -/

/-- The event writes neither a configuration field nor SSE. -/
def SparesConfig (e : Event) : Prop := ∀ u f v, e = .write u f v → fieldConfig f = false ∧ f ≠ .sse

/-- The last event of a safe history counts against the history in front of it. -/
theorem configWritesSafe_append_event {h : List Event} {e : Event} (hs : ConfigWritesSafe h)
    (he : ∀ u f v, e = .write u f v → fieldConfig f = true → lastWrite u .sse h = some 0) : ConfigWritesSafe (h ++ [e]) := by
  intro pre u f v post heq hf
  obtain rfl | ⟨post, x, rfl⟩ := post.eq_nil_or_concat
  · obtain ⟨rfl, hlast⟩ := List.append_inj' heq rfl
    exact he u f v (List.singleton_inj.1 hlast) hf
  · rw [List.concat_eq_append, ← List.cons_append, ← List.append_assoc] at heq
    exact hs pre u f v post (List.append_inj' heq rfl).1 hf

theorem configWritesSafe_append_spared {h : List Event} (es : List Event) (hs : ConfigWritesSafe h)
    (hes : ∀ e ∈ es, SparesConfig e) : ConfigWritesSafe (h ++ es) := by
  induction es generalizing h with
  | nil => rwa [List.append_nil]
  | cons e es ih =>
    obtain ⟨he, hes⟩ := List.forall_mem_cons.1 hes
    rw [List.append_cons]
    refine ih (configWritesSafe_append_event hs fun u f v hev hf => ?_) hes
    exact absurd (hf.symm.trans (he u f v hev).1) (by decide)

/-- A disabled unit may be configured, one field after the other, and stays disabled. -/
theorem configWritesSafe_append_configured {u : Chan} {h : List Event} (ws : List (Field × Word)) (hs : ConfigWritesSafe h)
    (hu : lastWrite u .sse h = some 0) (hws : ∀ fv ∈ ws, fieldConfig fv.1 = true) :
    ConfigWritesSafe (h ++ ws.map fun fv => .write u fv.1 fv.2) := by
  induction ws generalizing h with
  | nil => rwa [List.map_nil, List.append_nil]
  | cons fv ws ih =>
    obtain ⟨hfv, hws⟩ := List.forall_mem_cons.1 hws
    have hne : fv.1 ≠ .sse := fun hsse => absurd (hsse ▸ hfv) (by decide)
    rw [List.map_cons, List.append_cons]
    refine ih (configWritesSafe_append_event hs fun d f v hev _ => ?_) (by simp [lastWrite_write, hne, hu]) hws
    rwa [← (Event.write.inj hev).1]

/-- INIT disables the unit, writes configuration fields, and enables it (40_init_bitrate R100). -/
theorem initWrites_split (p : Params) (e : CfgEntry) :
    ∃ ws, initWrites p e = (.sse, 0) :: (ws ++ [(.sse, 1)]) ∧ ∀ fv ∈ ws, fieldConfig fv.1 = true :=
  ⟨(initWrites p e).tail.dropLast, rfl, by simp [initWrites, fieldConfig]⟩

theorem configWritesSafe_append_initEvents {h : List Event} (p : Params) (c : Chan) (hs : ConfigWritesSafe h) :
    ConfigWritesSafe (h ++ initEvents p c) := by
  unfold initEvents
  split
  · rwa [List.append_nil]
  · rename_i e _
    obtain ⟨ws, hsplit, hws⟩ := initWrites_split p e
    have sse : ∀ {h} (v : Word), ConfigWritesSafe h → ConfigWritesSafe (h ++ [.write c .sse v]) := fun v hs =>
      configWritesSafe_append_event hs fun _ _ _ hev hf => absurd ((Event.write.inj hev).2.1 ▸ hf) (by decide)
    rw [hsplit, List.map_cons, List.map_append, List.append_cons, ← List.append_assoc]
    exact sse 1 (configWritesSafe_append_configured ws (sse 0 hs) (by simp [lastWrite_write]) hws)

theorem configWritesSafe_append_initChannels {h : List Event} (p : Params) (l : List Chan) (hs : ConfigWritesSafe h) :
    ConfigWritesSafe (h ++ l.flatMap (initEvents p)) := by
  induction l generalizing h with
  | nil => rwa [List.flatMap_nil, List.append_nil]
  | cons c l ih =>
    rw [List.flatMap_cons, ← List.append_assoc]
    exact ih (configWritesSafe_append_initEvents p c hs)

/-! ### Steps that run no INIT -/

/-- From `s` to `t` the history grew, and no event of the growth writes a configuration field or SSE. -/
def GrewSparingConfig (s t : State) : Prop := ∃ es, t.hist = s.hist ++ es ∧ ∀ e ∈ es, SparesConfig e

theorem GrewSparingConfig.of_same {s t : State} (h : t.hist = s.hist) : GrewSparingConfig s t := ⟨[], by simp [h], by simp⟩

theorem GrewSparingConfig.respond {s m : State} (h : GrewSparingConfig s m) (op : Op) (r : PortWord) (data : List PortWord) :
    GrewSparingConfig s (respond op r data m) := by
  obtain ⟨es, hes, hall⟩ := h
  have hrsp : SparesConfig (.rsp op r data) := fun _ _ _ hev => Event.noConfusion hev
  exact ⟨es ++ [.rsp op r data], by rw [respond_hist, hes, List.append_assoc],
    List.forall_mem_append.2 ⟨hall, List.forall_mem_singleton.2 hrsp⟩⟩

theorem GrewSparingConfig.syncEnd {s m : State} (h : GrewSparingConfig s m) (c : Chan) (r : PortWord) :
    GrewSparingConfig s (syncEnd c r m) := by
  have hidle : GrewSparingConfig s ((setStatus c .idle (setTxIdx c 0 m)).setSeq .ready) := h
  exact hidle.respond ..

theorem GrewSparingConfig.safe {s t : State} (h : GrewSparingConfig s t) (hs : ConfigWritesSafe s.hist) :
    ConfigWritesSafe t.hist := by
  obtain ⟨es, hes, hall⟩ := h
  exact hes ▸ configWritesSafe_append_spared es hs hall

theorem GrewSparingConfig.newEvents {s t : State} (h : GrewSparingConfig s t) {u : Chan} {f : Field} {v : Word}
    (hw : .write u f v ∈ newEvents s t) : fieldConfig f = false ∧ f ≠ .sse := by
  obtain ⟨es, hes, hall⟩ := h
  rw [newEvents_of_append hes] at hw
  exact hall _ hw u f v rfl

theorem sparesConfig_of_transferField {f : Field} (h : transferField f = true) : fieldConfig f = false ∧ f ≠ .sse := by
  cases f <;> simp_all [transferField, fieldConfig]

/-- Work on a channel writes the fields of a transfer alone. -/
theorem Acts.grewSparingConfig {c : Chan} {s t : State} (h : Acts c s t) : GrewSparingConfig s t := by
  obtain ⟨es, hes, hall⟩ := h.framed.hist
  refine ⟨es, hes, fun e he u f v hev => ?_⟩
  obtain ⟨hunit, -, -, hwrite⟩ := hall e he
  subst hev
  obtain rfl : u = c := Option.some.inj hunit
  exact sparesConfig_of_transferField (hwrite f v rfl).1

theorem effect_grewSparingConfig {i : Instr} {s m : State} (hi : i ≠ .init) (h : Effect i s m) : GrewSparingConfig s m := by
  cases hc : i.chan? with
  | some c =>
    obtain hacts | ⟨words, -, -, rfl⟩ := effect_acts hc h
    · exact hacts.grewSparingConfig
    · exact .of_same rfl
  | none =>
    cases i <;> simp only [Instr.chan?, reduceCtorEq] at hc
    case init => exact absurd rfl hi
    case bitrateCalc => exact .of_same (congrArg State.hist h)

theorem exec_grewSparingConfig {i : Instr} {s t : State} (hi : i ≠ .init) (h : exec i s = .next t) :
    GrewSparingConfig s t := by
  obtain ⟨-, hran⟩ := exec_ran h
  obtain ⟨f, rfl⟩ | ⟨m, r, data, hm, rfl⟩ | ⟨c, rfl, -, rfl⟩ := hran
  · exact .of_same rfl
  · exact (effect_grewSparingConfig hi hm).respond ..
  · exact .of_same rfl

theorem syncWrite_grewSparingConfig {c : Chan} {i : Nat} {s t : State} (h : syncWrite c i s = .ok t) :
    GrewSparingConfig s t := by
  unfold syncWrite at h
  split at h
  · exact Except.ok.inj h ▸ GrewSparingConfig.syncEnd (.of_same rfl) ..
  · rename_i hi
    split at h
    · exact absurd h (by simp)
    · rename_i m hm
      exact Except.ok.inj h ▸ (sendWord_acts (Nat.not_le.1 hi) hm).grewSparingConfig

theorem syncWait_grewSparingConfig (c : Chan) (i polls : Nat) (s : State) : GrewSparingConfig s (syncWait c i polls s) := by
  have hread : GrewSparingConfig s (phyRead c .bsy s) := (Acts.refl.read .bsy rfl).grewSparingConfig
  obtain ⟨q, hq⟩ | hq := syncWait_cases c i polls s
  · exact hq ▸ hread
  · exact hq ▸ hread.syncEnd ..

theorem microStep_grewSparingConfig (s : State) : GrewSparingConfig s (microStep s) := by
  match hseq : s.seq with
  | .ready => exact .of_same (by rw [microStep_ready hseq])
  | .syncTx c i .write polls =>
    rw [microStep_write hseq]
    cases hr : syncWrite c i s.enterMainline with
    | error f => exact .of_same rfl
    | ok t =>
      have hgrew : GrewSparingConfig s.enterMainline t := syncWrite_grewSparingConfig hr
      exact hgrew
  | .syncTx c i .wait polls =>
    rw [microStep_wait hseq]
    exact syncWait_grewSparingConfig c i polls s.enterMainline

/-- Moves that run no command: holds, answers to illegal words, and micro-steps. -/
theorem moved_grewSparingConfig {s t : State} (h : fetch s = .moved t) : GrewSparingConfig s t := by
  obtain rfl | ⟨w, words, rfl⟩ | rfl := fetch_moved h
  · exact .of_same (popTurn_hist s)
  · exact .respond (.of_same (by simp [takeWord])) ..
  · simpa [GrewSparingConfig] using microStep_grewSparingConfig s.popTurn

/-! ### INIT, and every step -/

theorem exec_configWritesSafe {i : Instr} {s t : State} (hs : ConfigWritesSafe s.hist) (h : exec i s = .next t) :
    ConfigWritesSafe t.hist := by
  by_cases hi : i = .init
  · subst hi
    obtain ⟨-, hran⟩ := exec_ran h
    obtain ⟨f, rfl⟩ | ⟨m, r, data, ⟨-, rfl⟩, rfl⟩ | ⟨c, hc, -, -⟩ := hran
    · exact hs
    · refine GrewSparingConfig.safe (.respond (.of_same rfl) ..) ?_
      rw [setInited_hist, (initChannels_spec allChans allChans_nodup s).1]
      exact configWritesSafe_append_initChannels s.params allChans hs
    · exact absurd hc (by simp)
  · exact (exec_grewSparingConfig hi h).safe hs

/-- Settles O42: a unit INIT configures is one whose SSE it has just written 0, and no other command and no move that runs none
writes a configuration field or SSE. -/
theorem configWritesOnlyWhileDisabled : Obligations.ConfigWritesOnlyWhileDisabled := by
  refine ⟨fun s t hs h => ?_, fun i s t hi h u f v => (exec_grewSparingConfig hi h).newEvents, fun s t h hno u f v => ?_⟩
  · obtain ⟨i, s', -, hhist, hexec⟩ | hmoved := step_fetch h
    · exact exec_configWritesSafe (hhist ▸ hs) hexec
    · exact (moved_grewSparingConfig hmoved).safe hs
  · obtain ⟨i, s', hfetch, hhist, hexec⟩ | hmoved := step_fetch h
    · have hi : i ≠ .init := fun hi => hno s' (hi ▸ hfetch)
      have hgrew : GrewSparingConfig s t := by simpa [GrewSparingConfig, hhist] using exec_grewSparingConfig hi hexec
      exact hgrew.newEvents
    · exact (moved_grewSparingConfig hmoved).newEvents

end Sys2Proof.Machine
end

section
/-! An ended run with every source masked (70_reset_and_hazards R246): the dispatcher's entries find nothing pending. -/

namespace Sys2Proof.Machine

/-- With every source masked MIS shows none, whatever the PHY answers (20_memory R56). -/
theorem legalDraw_mis_of_masked {p : Shadow} (h : p.imTx = 1 ∧ p.imRx = 1 ∧ p.imRt = 1 ∧ p.imRor = 1) (raw : Word) :
    legalDraw p .mis raw = 0 := by
  obtain ⟨htx, hrx, hrt, hror⟩ := h
  have hvisible : misVisible p = 0 := by simp [misVisible, htx, hrx, hrt, hror]
  simp [legalDraw, hvisible]

/-- An entry with every source masked is the MIS read and the response (44_dispatch R180). -/
theorem exec_irqEntry_of_masked {u : Chan} {s t : State} (hs : Accepts u s) (hm : AllMasked s)
    (h : exec (.irqEntry u) s = .next t) : t = respond .irqEntry 0x00000000 [] { s.popDraw with
      hist := s.hist ++ [.read u .mis (legalDraw s.phy[u] .mis s.nextDraw)] } := by
  rw [irqEntryIdleOrStubOnlyReadsMis u s hs (.inl (legalDraw_mis_of_masked (hm u) _))] at h
  exact (Host.Outcome.next.inj h).symm

/-- Settles O55: the host has no word and the sequencer no transfer, so a step is a hold or a dispatcher's entry, which finds
every source masked. -/
theorem endedMaskedRunsAreStable : Obligations.EndedMaskedRunsAreStable := by
  rintro s t ⟨hfault, hseq, hpend, hcmd⟩ hmasked hctx h
  obtain ⟨-, hstep⟩ := step_next h
  cases hstep with
  | hold h => subst h; simp [Ended, hfault, hseq, hpend, hcmd, hctx]
  | illegal w words _ _ hc _ => rw [hcmd] at hc; exact absurd hc (by simp)
  | host i w words rest _ _ hc _ _ => rw [hcmd] at hc; exact absurd hc (by simp)
  | dispatcher u hi hcfg h =>
    have haccepts : Accepts u (enterInterrupt s.popTurn) := by simpa [Accepts, hfault, hi] using hcfg
    have hsources : AllMasked (enterInterrupt s.popTurn) := by simpa [AllMasked] using hmasked
    rw [exec_irqEntry_of_masked haccepts hsources h]
    simp [Ended, hfault, hseq, hpend, hcmd]
  | completed c i polls hs _ _ => rw [hseq] at hs; exact absurd hs (by simp)
  | unwritten c i polls hs _ _ _ => rw [hseq] at hs; exact absurd hs (by simp)
  | wrote c i polls m hs _ _ _ => rw [hseq] at hs; exact absurd hs (by simp)
  | waited c i polls hs _ => rw [hseq] at hs; exact absurd hs (by simp)

end Sys2Proof.Machine
end

section
/-! The machine right after reset (70_reset_and_hazards R230, R231). -/

namespace Sys2Proof.Machine

theorem slotAt_unwritten (n i : Nat) : slotAt (List.replicate n none) i = none := by
  unfold slotAt
  by_cases hi : i < n <;> simp [List.getD, hi]

/-- Settles O45: the records and the shadows are those of `Channel.reset` and `Shadow.reset`. -/
theorem resetValues : Obligations.ResetValues := by
  refine ⟨rfl, rfl, rfl, rfl, rfl, fun c => ?_, resetWith_phy _⟩
  rw [State.reset, resetWith_ch]
  exact ⟨rfl, rfl, rfl, rfl, slotAt_unwritten _, slotAt_unwritten _⟩

/-- The reset state after `k` free turns. -/
def resetAfter (k : Nat) : State := { State.reset with nTurns := k }

/-- No agent has a move: the host has no word, the dispatcher waits for INIT, and the sequencer has no transfer. -/
theorem step_resetAfter (k : Nat) : step (resetAfter k) = .next (resetAfter (k + 1)) := by
  have hpop : (resetAfter k).popTurn = resetAfter (k + 1) := rfl
  obtain ⟨hhost, -, hsequencer⟩ := holdsChangeNothing (resetAfter k) rfl
  rw [← hpop]
  cases hturn : (resetAfter k).nextTurn with
  | host => exact hhost hturn (.inr (.inr rfl))
  | dispatcher u => exact (stepRunsTheDispatchersEntry (resetAfter k) u rfl hturn).2 (.inl rfl)
  | sequencer => exact hsequencer hturn rfl

/-- A run from any count of turns. -/
theorem run_resetAfter (k j : Nat) : run k (resetAfter j) = .next (resetAfter (j + k)) := by
  induction k generalizing j with
  | zero => rfl
  | succ k ih => rw [run_succ (step_resetAfter j), ih, Nat.add_assoc, Nat.add_comm 1]

/-- Settles O46: the run that has used no turn yet. -/
theorem resetMachineWaits : Obligations.ResetMachineWaits := fun k => by
  have hrun := run_resetAfter k 0
  rwa [Nat.zero_add] at hrun

end Sys2Proof.Machine
end
